-- ==== Sys2Proof/Word.lean ====
section
/-! DEFINITION. The bit-vector types of the block: a register word, a binary64 pattern, and the words of the encodings. -/

namespace Sys2Proof

/-- A 32-bit register of the register window (10_state.md R21, R24). -/
abbrev Word := BitVec 32

/-- A 64-bit pattern read as IEEE 754 binary64 (00_scope.md R10). -/
abbrev F64 := BitVec 64

/-- A Format B word: one host bus transaction (30_encoding.md R101). -/
abbrev BusWord := BitVec 48

/-- A Format T word: one beat of the trace port (30_encoding.md R104). -/
abbrev BeatWord := BitVec 36

/-- A Format S or Format P word: one beat of a tap port (30_encoding.md R105). -/
abbrev TapWord := BitVec 112

/-- A word together with the port it is seen on. A decoder tells the format from the port, never from the word
(30_encoding.md R100): `bus` is Format B, `beat` is Format T. -/
inductive PortWord where
  | bus (w : BusWord)
  | beat (w : BeatWord)
deriving DecidableEq, Repr

end Sys2Proof
end

