-- ==== Sys2Proof/Syntax.lean ====
section
/-! DEFINITION. The operations of the block, one constructor for each row of the opcode table (30_encoding.md R108, R110),
and the registers of the window (10_state.md R24). -/

namespace Sys2Proof

/-- The 35 defined words of the register window, in address order (10_state.md R24). -/
inductive Reg where
  | id | version | cmd | status | err | errInfo | irqEn | irqPend | cap0 | cap1 | cap2
  | srcRate | targetRate | minRate | filterTaps | frameSize | hopSize | numBands | targetZone | threshLo | threshHi
  | inCount | dsCount | frameCount | peakFrames | peakCount | hashCount | inLevel | hashLevel
  | sampleLo | sampleHi | hashData | coefSel | coefLo | coefHi
deriving DecidableEq, Repr

/-- An operation of the block: a host bus transaction with a meaning of its own (R108), or one turn of a stage agent
(R110). A read has no operand, a write has the data word. A stage turn has an operand only where the step leaves
something to choose: WFFT its frame (44_fft_magnitude.md R231), FAULT its cause (60_exceptions.md R318). -/
inductive Instr where
  | rdId | rdVersion
  | cmdNop | cmdStart | cmdFinish | cmdClear | cmdReset
  | rdStatus | rdErr | rdErrInfo
  | rdIrqEn | wrIrqEn (data : Word)
  | rdIrqPend | rdCap0 | rdCap1 | rdCap2
  | rdSrcRate | wrSrcRate (data : Word)
  | rdTargetRate | wrTargetRate (data : Word)
  | rdMinRate | wrMinRate (data : Word)
  | rdFilterTaps | wrFilterTaps (data : Word)
  | rdFrameSize | wrFrameSize (data : Word)
  | rdHopSize | wrHopSize (data : Word)
  | rdNumBands | wrNumBands (data : Word)
  | rdTargetZone | wrTargetZone (data : Word)
  | rdThreshLo | wrThreshLo (data : Word)
  | rdThreshHi | wrThreshHi (data : Word)
  | rdInCount | rdDsCount | rdFrameCount | rdPeakFrames | rdPeakCount | rdHashCount | rdInLevel | rdHashLevel
  | wrSampleLo (data : Word) | wrSampleHi (data : Word)
  | rdHashData
  | rdCoefSel | wrCoefSel (data : Word)
  | rdCoefLo | rdCoefHi
  | ingest | kdes | wgen | fird
  | wfft (idx : Word)
  | peak | hemit | hadv | retire
  | fault (errWord : Word)
deriving DecidableEq, Repr

end Sys2Proof
end

