-- ==== Sys2Proof/WellFormed.lean ====
section
/-! DEFINITION. Which instruction terms the spec admits. Operand widths are fixed by their types, so one check is left:
a FAULT beat carries one of the five values of `ERR` that a fault records (60_exceptions.md R312). -/

namespace Sys2Proof

/-- The five `ERR` values of R312: `KIND = 1` and a sub-cause 1 to 5. -/
def faultWords : List Word := [0x00000101#32, 0x00000201#32, 0x00000301#32, 0x00000401#32, 0x00000501#32]

/-- The well-formed instructions. -/
def Instr.wellFormed : Instr → Bool
  | .fault e => faultWords.contains e
  | .rdId | .rdVersion | .cmdNop | .cmdStart | .cmdFinish | .cmdClear | .cmdReset | .rdStatus | .rdErr | .rdErrInfo
  | .rdIrqEn | .wrIrqEn _ | .rdIrqPend | .rdCap0 | .rdCap1 | .rdCap2 | .rdSrcRate | .wrSrcRate _ | .rdTargetRate
  | .wrTargetRate _ | .rdMinRate | .wrMinRate _ | .rdFilterTaps | .wrFilterTaps _ | .rdFrameSize | .wrFrameSize _
  | .rdHopSize | .wrHopSize _ | .rdNumBands | .wrNumBands _ | .rdTargetZone | .wrTargetZone _ | .rdThreshLo
  | .wrThreshLo _ | .rdThreshHi | .wrThreshHi _ | .rdInCount | .rdDsCount | .rdFrameCount | .rdPeakFrames
  | .rdPeakCount | .rdHashCount | .rdInLevel | .rdHashLevel | .wrSampleLo _ | .wrSampleHi _ | .rdHashData
  | .rdCoefSel | .wrCoefSel _ | .rdCoefLo | .rdCoefHi | .ingest | .kdes | .wgen | .fird | .wfft _ | .peak | .hemit
  | .hadv | .retire => true

end Sys2Proof
end

