-- ==== Sys2Proof/Decode.lean ====
section
/-! DEFINITION. The decoder, total on any port word and rejecting by name, and after it the encoder. Formats B and T of
30_encoding.md R101, R104; the operation maps of R108 and R110; the order of the first three checks of
40_host_ops.md R130. -/

namespace Sys2Proof

/-- Why a port word is no instruction. The first is no transaction at all (R101); the next five are transactions the
block refuses (40_host_ops.md R130, R149); the last is a beat that is never emitted (R110). -/
inductive DecodeError where
  /-- `rsv != 000`: the word encodes no transaction. -/
  | reservedBits
  /-- `addr[1:0] != 0`. -/
  | misaligned
  /-- `addr` is not a defined word of the window. -/
  | reservedAddress
  /-- A write to a read-only register. -/
  | writeToReadOnly
  /-- A read of a write-only register. -/
  | readOfWriteOnly
  /-- A write to `CMD` of 5 or more. -/
  | reservedCommand
  /-- The stage operation id 0 or 11 to 15. -/
  | reservedStageOp
deriving DecidableEq, Repr

/-- The byte address of a register in the window (10_state.md R24). -/
def regAddr : Reg → BitVec 12
  | .id => 0x000#12 | .version => 0x004#12 | .cmd => 0x008#12 | .status => 0x00C#12
  | .err => 0x010#12 | .errInfo => 0x014#12 | .irqEn => 0x018#12 | .irqPend => 0x01C#12
  | .cap0 => 0x020#12 | .cap1 => 0x024#12 | .cap2 => 0x028#12
  | .srcRate => 0x040#12 | .targetRate => 0x044#12 | .minRate => 0x048#12 | .filterTaps => 0x04C#12
  | .frameSize => 0x050#12 | .hopSize => 0x054#12 | .numBands => 0x058#12 | .targetZone => 0x05C#12
  | .threshLo => 0x060#12 | .threshHi => 0x064#12
  | .inCount => 0x080#12 | .dsCount => 0x084#12 | .frameCount => 0x088#12 | .peakFrames => 0x08C#12
  | .peakCount => 0x090#12 | .hashCount => 0x094#12 | .inLevel => 0x098#12 | .hashLevel => 0x09C#12
  | .sampleLo => 0x0C0#12 | .sampleHi => 0x0C4#12 | .hashData => 0x0C8#12
  | .coefSel => 0x0E0#12 | .coefLo => 0x0E4#12 | .coefHi => 0x0E8#12

/-- Every register of the window, in address order. -/
def allRegs : List Reg :=
  [.id, .version, .cmd, .status, .err, .errInfo, .irqEn, .irqPend, .cap0, .cap1, .cap2,
   .srcRate, .targetRate, .minRate, .filterTaps, .frameSize, .hopSize, .numBands, .targetZone, .threshLo, .threshHi,
   .inCount, .dsCount, .frameCount, .peakFrames, .peakCount, .hashCount, .inLevel, .hashLevel,
   .sampleLo, .sampleHi, .hashData, .coefSel, .coefLo, .coefHi]

/-- The register at an address; every other address of the window is reserved (20_memory.md R76). -/
def regAt (addr : BitVec 12) : Option Reg := allRegs.find? fun r => regAddr r == addr

/-- Bit 47 of a Format B word. -/
def busWe (w : BusWord) : Bool := w.extractLsb' 47 1 == 1#1

/-- Bits 46:44 of a Format B word. -/
def busRsv (w : BusWord) : BitVec 3 := w.extractLsb' 44 3

/-- Bits 43:32 of a Format B word. -/
def busAddr (w : BusWord) : BitVec 12 := w.extractLsb' 32 12

/-- Bits 31:0 of a Format B word. -/
def busData (w : BusWord) : Word := w.extractLsb' 0 32

/-- A read of a register. -/
def decodeRead : Reg → Except DecodeError Instr
  | .id => .ok .rdId | .version => .ok .rdVersion | .status => .ok .rdStatus
  | .err => .ok .rdErr | .errInfo => .ok .rdErrInfo | .irqEn => .ok .rdIrqEn | .irqPend => .ok .rdIrqPend
  | .cap0 => .ok .rdCap0 | .cap1 => .ok .rdCap1 | .cap2 => .ok .rdCap2
  | .srcRate => .ok .rdSrcRate | .targetRate => .ok .rdTargetRate | .minRate => .ok .rdMinRate
  | .filterTaps => .ok .rdFilterTaps | .frameSize => .ok .rdFrameSize | .hopSize => .ok .rdHopSize
  | .numBands => .ok .rdNumBands | .targetZone => .ok .rdTargetZone
  | .threshLo => .ok .rdThreshLo | .threshHi => .ok .rdThreshHi
  | .inCount => .ok .rdInCount | .dsCount => .ok .rdDsCount | .frameCount => .ok .rdFrameCount
  | .peakFrames => .ok .rdPeakFrames | .peakCount => .ok .rdPeakCount | .hashCount => .ok .rdHashCount
  | .inLevel => .ok .rdInLevel | .hashLevel => .ok .rdHashLevel
  | .hashData => .ok .rdHashData | .coefSel => .ok .rdCoefSel | .coefLo => .ok .rdCoefLo | .coefHi => .ok .rdCoefHi
  | .cmd | .sampleLo | .sampleHi => .error .readOfWriteOnly

/-- A write of the command register: the whole 32-bit value selects the command (10_state.md R32). -/
def decodeCommand (data : Word) : Except DecodeError Instr :=
  if data = 0#32 then .ok .cmdNop
  else if data = 1#32 then .ok .cmdStart
  else if data = 2#32 then .ok .cmdFinish
  else if data = 3#32 then .ok .cmdClear
  else if data = 4#32 then .ok .cmdReset
  else .error .reservedCommand

/-- A write of a register. -/
def decodeWrite (r : Reg) (data : Word) : Except DecodeError Instr :=
  match r with
  | .cmd => decodeCommand data
  | .irqEn => .ok (.wrIrqEn data)
  | .srcRate => .ok (.wrSrcRate data) | .targetRate => .ok (.wrTargetRate data) | .minRate => .ok (.wrMinRate data)
  | .filterTaps => .ok (.wrFilterTaps data) | .frameSize => .ok (.wrFrameSize data) | .hopSize => .ok (.wrHopSize data)
  | .numBands => .ok (.wrNumBands data) | .targetZone => .ok (.wrTargetZone data)
  | .threshLo => .ok (.wrThreshLo data) | .threshHi => .ok (.wrThreshHi data)
  | .sampleLo => .ok (.wrSampleLo data) | .sampleHi => .ok (.wrSampleHi data) | .coefSel => .ok (.wrCoefSel data)
  | .id | .version | .status | .err | .errInfo | .irqPend | .cap0 | .cap1 | .cap2
  | .inCount | .dsCount | .frameCount | .peakFrames | .peakCount | .hashCount | .inLevel | .hashLevel
  | .hashData | .coefLo | .coefHi => .error .writeToReadOnly

/-- A Format B word. The data of a read is not sampled (R101). -/
def decodeBus (w : BusWord) : Except DecodeError Instr :=
  if busRsv w ≠ 0#3 then .error .reservedBits
  else if (busAddr w).extractLsb' 0 2 ≠ 0#2 then .error .misaligned
  else
    match regAt (busAddr w) with
    | none => .error .reservedAddress
    | some r => if busWe w then decodeWrite r (busData w) else decodeRead r

/-- Bits 35:32 of a Format T word. -/
def beatOp (w : BeatWord) : BitVec 4 := w.extractLsb' 32 4

/-- Bits 31:0 of a Format T word. -/
def beatIdx (w : BeatWord) : Word := w.extractLsb' 0 32

/-- A Format T word as the turn of a stage agent (log entry 5). `idx` is an operand of WFFT and FAULT; of every other
beat it is an output, a function of the state, and the decoder does not look at it. -/
def decodeBeat (w : BeatWord) : Except DecodeError Instr :=
  match (beatOp w).toNat with
  | 1 => .ok .ingest
  | 2 => .ok .kdes
  | 3 => .ok .wgen
  | 4 => .ok .fird
  | 5 => .ok (.wfft (beatIdx w))
  | 6 => .ok .peak
  | 7 => .ok .hemit
  | 8 => .ok .hadv
  | 9 => .ok .retire
  | 10 => .ok (.fault (beatIdx w))
  | _ => .error .reservedStageOp

/-- The decoder. -/
def decodeWord : PortWord → Except DecodeError Instr
  | .bus w => decodeBus w
  | .beat w => decodeBeat w

/-- The word of `nbits` whole bytes on its port: 36-bit beats take five bytes, 48-bit transactions six. -/
def portWord (nbits w : Nat) : PortWord :=
  if nbits ≤ 40 then .beat (BitVec.ofNat 36 w) else .bus (BitVec.ofNat 48 w)

/-- The instruction the decoder reads from the bits `w` of a row of the opcode table. -/
def decodeTableWord (nbits w : Nat) : Option Instr :=
  if w < (if nbits ≤ 40 then 2 ^ 36 else 2 ^ 48) then
    match decodeWord (portWord nbits w) with
    | .ok i => some i
    | .error _ => none
  else none

/-- Format B: the transaction that writes `data` at a register. -/
def writeWord (r : Reg) (data : Word) : BusWord := 1#1 ++ 0#3 ++ regAddr r ++ data

/-- Format B: the transaction that reads a register, in its canonical form (R101). -/
def readWord (r : Reg) : BusWord := 0#1 ++ 0#3 ++ regAddr r ++ 0#32

/-- Format T. -/
def beatWord (op : BitVec 4) (idx : Word) : BeatWord := op ++ idx

/-- The encoder: the canonical word of an instruction (R103, R108, R110). -/
def encode : Instr → PortWord
  | .rdId => .bus (readWord .id)
  | .rdVersion => .bus (readWord .version)
  | .cmdNop => .bus (writeWord .cmd 0#32)
  | .cmdStart => .bus (writeWord .cmd 1#32)
  | .cmdFinish => .bus (writeWord .cmd 2#32)
  | .cmdClear => .bus (writeWord .cmd 3#32)
  | .cmdReset => .bus (writeWord .cmd 4#32)
  | .rdStatus => .bus (readWord .status)
  | .rdErr => .bus (readWord .err)
  | .rdErrInfo => .bus (readWord .errInfo)
  | .rdIrqEn => .bus (readWord .irqEn)
  | .wrIrqEn data => .bus (writeWord .irqEn data)
  | .rdIrqPend => .bus (readWord .irqPend)
  | .rdCap0 => .bus (readWord .cap0)
  | .rdCap1 => .bus (readWord .cap1)
  | .rdCap2 => .bus (readWord .cap2)
  | .rdSrcRate => .bus (readWord .srcRate)
  | .wrSrcRate data => .bus (writeWord .srcRate data)
  | .rdTargetRate => .bus (readWord .targetRate)
  | .wrTargetRate data => .bus (writeWord .targetRate data)
  | .rdMinRate => .bus (readWord .minRate)
  | .wrMinRate data => .bus (writeWord .minRate data)
  | .rdFilterTaps => .bus (readWord .filterTaps)
  | .wrFilterTaps data => .bus (writeWord .filterTaps data)
  | .rdFrameSize => .bus (readWord .frameSize)
  | .wrFrameSize data => .bus (writeWord .frameSize data)
  | .rdHopSize => .bus (readWord .hopSize)
  | .wrHopSize data => .bus (writeWord .hopSize data)
  | .rdNumBands => .bus (readWord .numBands)
  | .wrNumBands data => .bus (writeWord .numBands data)
  | .rdTargetZone => .bus (readWord .targetZone)
  | .wrTargetZone data => .bus (writeWord .targetZone data)
  | .rdThreshLo => .bus (readWord .threshLo)
  | .wrThreshLo data => .bus (writeWord .threshLo data)
  | .rdThreshHi => .bus (readWord .threshHi)
  | .wrThreshHi data => .bus (writeWord .threshHi data)
  | .rdInCount => .bus (readWord .inCount)
  | .rdDsCount => .bus (readWord .dsCount)
  | .rdFrameCount => .bus (readWord .frameCount)
  | .rdPeakFrames => .bus (readWord .peakFrames)
  | .rdPeakCount => .bus (readWord .peakCount)
  | .rdHashCount => .bus (readWord .hashCount)
  | .rdInLevel => .bus (readWord .inLevel)
  | .rdHashLevel => .bus (readWord .hashLevel)
  | .wrSampleLo data => .bus (writeWord .sampleLo data)
  | .wrSampleHi data => .bus (writeWord .sampleHi data)
  | .rdHashData => .bus (readWord .hashData)
  | .rdCoefSel => .bus (readWord .coefSel)
  | .wrCoefSel data => .bus (writeWord .coefSel data)
  | .rdCoefLo => .bus (readWord .coefLo)
  | .rdCoefHi => .bus (readWord .coefHi)
  | .ingest => .beat (beatWord 1#4 0#32)
  | .kdes => .beat (beatWord 2#4 0#32)
  | .wgen => .beat (beatWord 3#4 0#32)
  | .fird => .beat (beatWord 4#4 0#32)
  | .wfft idx => .beat (beatWord 5#4 idx)
  | .peak => .beat (beatWord 6#4 0#32)
  | .hemit => .beat (beatWord 7#4 0#32)
  | .hadv => .beat (beatWord 8#4 0#32)
  | .retire => .beat (beatWord 9#4 0#32)
  | .fault errWord => .beat (beatWord 10#4 errWord)

end Sys2Proof
end

