-- ==== Sys2Proof/Config.lean ====
section
/-! DEFINITION. What an implementation of the block fixes (00_scope.md R5, R6), and the values the spec leaves open.
The open values are opaque constants: no proof can see one. -/

namespace Sys2Proof

/-- Which numerics configuration (R6) the implementation has: the reference instantiation the spec gives by decision
(41_kernel_design.md R172, 44_fft_magnitude.md R229), or another one, with its parameters `EPS_TRIG` (R172; suggested
`2^-52`) and `EPS_DFT` (R228; suggested `2^-40`). The tag tells apart implementations with the same two parameters. -/
inductive NumericsChoice where
  | reference
  | other (tag : Nat) (epsTrig epsDft : ℚ)
deriving DecidableEq, Repr

/-- The implementation parameters of R5. They are constants of one block: no step changes them. -/
structure Impl where
  maxTaps : Nat
  maxFrame : Nat
  maxBands : Nat
  fftLanes : Nat
  inDepth : Nat
  outDepth : Nat
  numerics : NumericsChoice
deriving DecidableEq, Repr

namespace Config

/-- The suggested column of R5, with the reference numerics of R6: what `State.reset` is built with
(DESIGN CHOICE, log entry 1). Statements are about every `Impl`, not about this one. -/
def suggested : Impl where
  maxTaps := 1023
  maxFrame := 4096
  maxBands := 64
  fftLanes := 1
  inDepth := 16
  outDepth := 64
  numerics := .reference

/-- The constraint column of R5. -/
abbrev legal (p : Impl) : Prop :=
  p.maxTaps % 2 = 1 ∧ 101 ≤ p.maxTaps ∧ p.maxTaps ≤ 65535 ∧
  1024 ≤ p.maxFrame ∧ p.maxFrame ≤ 65535 ∧
  6 ≤ p.maxBands ∧ p.maxBands ≤ 255 ∧
  1 ≤ p.fftLanes ∧ p.fftLanes ≤ 255 ∧
  1 ≤ p.inDepth ∧ p.inDepth ≤ 65535 ∧
  1 ≤ p.outDepth ∧ p.outDepth ≤ 65535

/-- Something the implementation chooses among what the spec admits: the choice of the implementation that `tag` names, if
it names one. Free value, log entry 2. -/
opaque openChoice {α : Type} (admitted : α → Prop) (tag : Nat) : Option {a : α // admitted a}

/-- The reference `SIN` of an infinity or a NaN: R172 speaks of the real number an argument represents, and these represent
none. Free value, log entry 19. -/
opaque sinNonFinite : F64 → F64

/-- As `sinNonFinite`, for `COS`. Free value, log entry 19. -/
opaque cosNonFinite : F64 → F64

/-- The sign of the reference `SIN` of `-0.0`: the sine is zero, the rounding of R172 gives it no sign, and TRIG-ZERO speaks
of `+0.0` only. Free value, log entry 19. -/
opaque sinNegZeroSign : Bool

/-- What the Normalizer gives for so many samples when all are zero: 47_host_boundary.md R293 leaves it open. Free value,
log entry 16. -/
opaque normalisedSilence : Nat → List F64

/-- The sign and payload of the NaN an IEEE operation returns, which R10 does not give. Free value, log entry 3. -/
opaque nanBits : F64 → F64 → BitVec 52

end Config
end Sys2Proof
end

