-- ==== Sys2Proof/Machine/Float.lean ====
section
/-! DEFINITION. The binary64 primitives of 00_scope.md R10. A finite value is an exact integer count of `2^-1074`, the
smallest subnormal; every operation is computed exactly on such counts and rounded once, to nearest, ties to even. -/

namespace Sys2Proof.Machine

/-- Bit 63. -/
def signBit (a : F64) : Bool := a.getLsbD 63

/-- Bits 62:52, the biased exponent. -/
def expField (a : F64) : Nat := (a.extractLsb' 52 11).toNat

/-- Bits 51:0, the fraction. -/
def fracField (a : F64) : Nat := (a.extractLsb' 0 52).toNat

/-- `isfinite(a)`: the exponent field is not all ones. -/
def isFinite (a : F64) : Bool := expField a != 2047

/-- The exponent field is all ones and the fraction is not zero. -/
def isNaN (a : F64) : Bool := expField a == 2047 && fracField a != 0

/-- The magnitude of a finite value in units of `2^-1074`; subnormals included. -/
def fixMag (a : F64) : Nat :=
  if expField a = 0 then fracField a else (2 ^ 52 + fracField a) * 2 ^ (expField a - 1)

/-- A finite value in units of `2^-1074`. -/
def toFix (a : F64) : Int := if signBit a then -(fixMag a : Int) else (fixMag a : Int)

/-- The rational value of a finite pattern. -/
def toRat (a : F64) : ℚ := (toFix a : ℚ) / 2 ^ 1074

/-- How many units of `2^-1074` make 1.0. -/
def fixOne : Nat := 2 ^ 1074

/-- The pattern with the sign `neg` and the low 63 bits `bits`. -/
def withSign (neg : Bool) (bits : Nat) : F64 := BitVec.ofNat 64 (if neg then 2 ^ 63 + bits else bits)

/-- The pattern of infinity, without its sign. -/
def infBits : Nat := 2047 * 2 ^ 52

/-- The binary64 nearest to `num/den * 2^-1074`, ties to even, with the sign given; values that round beyond the
largest finite one are infinite. The exponent and the significand stand beside each other in the pattern, so a carry out
of the significand moves into the exponent by itself. -/
def roundFix (neg : Bool) (num den : Nat) : F64 :=
  let shift := Nat.log2 (num / den) - 52
  let unit := den * 2 ^ shift
  let m := num / unit
  let r := num % unit
  let up := if unit < 2 * r ∨ (2 * r = unit ∧ m % 2 = 1) then 1 else 0
  withSign neg (min (shift * 2 ^ 52 + m + up) infBits)

/-- A quiet NaN, whose sign and payload the spec leaves open (log entry 3). -/
def nanOf (a b : F64) : F64 :=
  (Config.nanBits a b).extractLsb' 51 1 ++ 0xFFF#12 ++ (Config.nanBits a b).extractLsb' 0 51

/-- `f64(i)`: an integer with `|i| < 2^53` as a binary64, exactly. -/
def f64OfInt (i : Int) : F64 := roundFix (i < 0) (i.natAbs * fixOne) 1

/-- `f64(i)` for a natural number. -/
def f64OfNat (i : Nat) : F64 := roundFix false (i * fixOne) 1

/-- `fabs(a)`: the sign bit cleared. -/
def fabs (a : F64) : F64 := a &&& 0x7FFFFFFFFFFFFFFF#64

/-- The sign bit inverted. -/
def fneg (a : F64) : F64 := a ^^^ 0x8000000000000000#64

/-- `feq0(a)`: `+0` or `-0`. -/
def feq0 (a : F64) : Bool := fabs a == 0#64

/-- `fadd(a, b)`. An exact sum of zero is `-0` only when both operands are negative zeros. -/
def fadd (a b : F64) : F64 :=
  if isNaN a || isNaN b then nanOf a b
  else if !isFinite a then (if !isFinite b && signBit a != signBit b then nanOf a b else a)
  else if !isFinite b then b
  else
    let v := toFix a + toFix b
    if v = 0 then withSign (signBit a && signBit b) 0 else roundFix (v < 0) v.natAbs 1

/-- `fsub(a, b)`. -/
def fsub (a b : F64) : F64 := if isNaN a || isNaN b then nanOf a b else fadd a (fneg b)

/-- `fmul(a, b)`. -/
def fmul (a b : F64) : F64 :=
  let s := signBit a != signBit b
  if isNaN a || isNaN b then nanOf a b
  else if !isFinite a then (if feq0 b then nanOf a b else withSign s infBits)
  else if !isFinite b then (if feq0 a then nanOf a b else withSign s infBits)
  else roundFix s (fixMag a * fixMag b) fixOne

/-- `fdiv(a, b)`. -/
def fdiv (a b : F64) : F64 :=
  let s := signBit a != signBit b
  if isNaN a || isNaN b then nanOf a b
  else if !isFinite a then (if !isFinite b then nanOf a b else withSign s infBits)
  else if !isFinite b then withSign s 0
  else if feq0 b then (if feq0 a then nanOf a b else withSign s infBits)
  else roundFix s (fixMag a * fixOne) (fixMag b)

/-- The order of the values that are not NaN, as integers: the low 63 bits, negated under a sign; both zeros give 0. -/
def orderKey (a : F64) : Int := if signBit a then -((fabs a).toNat : Int) else ((fabs a).toNat : Int)

/-- `fgt(a, b)`: IEEE greater-than, false when either operand is a NaN, with `+0 = -0`. -/
def fgt (a b : F64) : Bool := !isNaN a && !isNaN b && decide (orderKey b < orderKey a)

/-- `+0.0`. -/
def fzero : F64 := 0#64

/-- `ONE` of R10. -/
def fONE : F64 := 0x3FF0000000000000#64

/-- `TWO` of R10. -/
def fTWO : F64 := 0x4000000000000000#64

/-- `PI` of R10, the binary64 nearest to pi (general knowledge, as the spec says). -/
def fPI : F64 := 0x400921FB54442D18#64

/-- `C054` of R10, the binary64 nearest to 0.54. -/
def fC054 : F64 := 0x3FE147AE147AE148#64

/-- `C046` of R10, the binary64 nearest to 0.46. -/
def fC046 : F64 := 0x3FDD70A3D70A3D71#64

/-- `TWOPI = fmul(TWO, PI)` of R10. -/
def fTWOPI : F64 := 0x401921FB54442D18#64

/-- The least `x'` of a falling Newton sequence for the integer square root of `n`, from `x`. -/
def sqrtLoop (n : Nat) : Nat → Nat → Nat
  | 0, x => x
  | fuel + 1, x => if (x + n / x) / 2 < x then sqrtLoop n fuel ((x + n / x) / 2) else x

/-- The integer square root, for the reference `SQRT`. -/
def isqrt (n : Nat) : Nat := sqrtLoop n (Nat.log2 n + 2) (2 ^ (Nat.log2 n / 2 + 1))

/-- The correctly rounded square root, the reference `SQRT` of 44_fft_magnitude.md R229. The root is taken to more than
500 bits and one sticky bit, then rounded once. `SQRT(-0) = -0`; a negative number or a NaN has no root. -/
def fsqrt (a : F64) : F64 :=
  if isNaN a then nanOf a a
  else if feq0 a then a
  else if signBit a then nanOf a a
  else if !isFinite a then a
  else
    let n := fixMag a * fixOne
    let r := isqrt n
    roundFix false (2 * r + (if r * r = n then 0 else 1)) 2

end Sys2Proof.Machine
end

