-- ==== Sys2Proof/Machine/State.lean ====
section
/-! DEFINITION. The state of the block (10_state.md), what its ports have shown, and what its environment does next. -/

namespace Sys2Proof.Machine

/-- The run sequencer (R22). -/
inductive Phase where
  | idle | run | flush | done | fault
deriving DecidableEq, Repr

/-- `STATUS[2:0]` of a phase (R22); the codes 5 to 7 are never held. -/
def Phase.code : Phase → BitVec 3
  | .idle => 0#3 | .run => 1#3 | .flush => 2#3 | .done => 3#3 | .fault => 4#3

/-- A peak (R57): frame index, bin, magnitude. -/
structure Peak where
  frame : Nat
  bin : Nat
  mag : F64
deriving DecidableEq, Repr

/-- The response of a bus transaction (30_encoding.md R102). -/
structure Resp where
  err : Bool
  rdata : Word
deriving DecidableEq, Repr

/-- One beat of the trace port (Format T, 30_encoding.md R104). -/
structure TraceBeat where
  op : BitVec 4
  idx : Word
deriving DecidableEq, Repr

/-- One beat of the spectrogram tap or of the peak tap (Formats S and P, 30_encoding.md R105). -/
structure TapBeat where
  frame : Word
  bin : BitVec 16
  mag : F64
deriving DecidableEq, Repr

/-- What happens next, as the schedule has it: a word on a port (a host transaction, or a stage agent's turn), the turn of
WFFT on frame `j` itself, which its beat's 32 bits cannot always name (44_fft_magnitude.md R231, log entry 8), or the hard
reset, which is an event of the environment (70_reset_and_hazards.md R350). -/
inductive Event where
  | word (p : PortWord)
  | frame (j : Nat)
  | hardReset
deriving DecidableEq, Repr

/-- The causes of a fault, the sub-causes of `INVALID_INPUT` (60_exceptions.md R312). -/
inductive FaultSub where
  | emptyInput | rateBelowFloor | evenTaps | badConfig | sampleRange
deriving DecidableEq, Repr

/-- Everything the block holds (10_state.md R20), the implementation it is, what its ports have shown, and the schedule
that is still to come. -/
structure State where
  /-- The implementation parameters (00_scope.md R5, R6); the MODEL's field, no step changes it. -/
  impl : Impl
  /-- The run sequencer (R22). -/
  phase : Phase
  /-- `ERR` and `ERR_INFO`, the error record (R34). -/
  err : Word
  errInfo : Word
  /-- `IRQ_EN` (R35). -/
  irqEn : Word
  /-- `COEF_SEL` (R49). -/
  coefSel : Word
  /-- The configuration registers (R37 to R45). -/
  srcRate : Word
  targetRate : Word
  minRate : Word
  filterTaps : Word
  frameSize : Word
  hopSize : Word
  numBands : Word
  targetZone : Word
  threshLo : Word
  threshHi : Word
  /-- The latch behind `SAMPLE_LO` (R48). -/
  slo : Word
  /-- The input FIFO, head first, and end of input (R50). -/
  inFifo : List F64
  fin : Bool
  /-- The samples ingested (R51). -/
  xin : List F64
  /-- The FIR kernel, absent until KDES, with its flags (R52). -/
  kern : List F64
  kvalid : Bool
  ksumZero : Bool
  /-- The frame window, absent until WGEN, with its flag (R53). -/
  win : List F64
  wvalid : Bool
  /-- The decimated samples (R54). -/
  ys : List F64
  /-- The spectrogram: the filled slots by frame index, indices strictly rising (R56). -/
  spec : List (Nat × List F64)
  /-- The peaks, and how many frames the peak detector has finished (R57). -/
  pk : List Peak
  npf : Nat
  /-- The hash encoder's cursors: anchor and next target (R58). -/
  a : Nat
  t : Nat
  /-- The output FIFO, head first, and the hashes pushed in this run (R59). -/
  hq : List Word
  hashCount : Nat
  /-- The words the host has popped in this run: with `hq` the Fingerprint (R59); the MODEL's field. -/
  popped : List Word
  /-- The response of the last completed bus transaction (30_encoding.md R102); the MODEL's field. -/
  resp : Option Resp
  /-- The beats of the trace port, oldest first (60_exceptions.md R338); the MODEL's field. -/
  trace : List TraceBeat
  /-- The beats of the spectrogram tap (R339) and of the peak tap (R340); the MODEL's fields. -/
  stap : List TapBeat
  ptap : List TapBeat
  /-- The events to come, next first (the schedule, 00_scope.md R13, R17); the MODEL's field. -/
  script : List Event
deriving DecidableEq, Repr

/-- The machine right after hard reset (10_state.md R62, 70_reset_and_hazards.md R351). -/
def State.reset : State where
  impl := Config.suggested
  phase := .idle
  err := 0#32
  errInfo := 0#32
  irqEn := 0#32
  coefSel := 0#32
  srcRate := 0#32
  targetRate := 11025#32
  minRate := 11025#32
  filterTaps := 101#32
  frameSize := 1024#32
  hopSize := 512#32
  numBands := 6#32
  targetZone := 20#32
  threshLo := 0x9999999A#32
  threshHi := 0x3FB99999#32
  slo := 0#32
  inFifo := []
  fin := false
  xin := []
  kern := []
  kvalid := false
  ksumZero := false
  win := []
  wvalid := false
  ys := []
  spec := []
  pk := []
  npf := 0
  a := 0
  t := 1
  hq := []
  hashCount := 0
  popped := []
  resp := none
  trace := []
  stap := []
  ptap := []
  script := []

/-- Why the MODEL stops with a fault. Nothing does: the block's own faults are the phase `FAULT`, a state like any other
(60_exceptions.md R318), and a bad address is refused on the bus (40_host_ops.md R134). Nobody raises one; safe. -/
inductive Fault where
deriving DecidableEq, Repr

/-- Why the model has no meaning for what the schedule offers. -/
inductive Refusal where
  /-- Raised by `exec` for an instruction with no meaning yet: none. Safe: the model stops. -/
  | notModelled (mnemonic : String)
  /-- Raised by `step` for a Format B word with `rsv != 000`, which encodes no transaction (R101). Safe: the hardware has
  no such input. -/
  | notATransaction
  /-- Raised by `step` for a Format T word with a reserved operation id, which is never emitted (R110). Safe: there is no
  such agent. -/
  | noSuchStage
deriving DecidableEq, Repr

/-- The outcome of an operation. -/
abbrev Out := Host.Outcome State Fault Refusal

end Sys2Proof.Machine
end

