-- ==== Sys2Proof/Machine/Operands.lean ====
section
/-! DEFINITION. The operands of the operations: the abbreviations of 10_state.md for configuration values, the derived
counters, the fields of `COEF_SEL`, and 64-bit values assembled from two words (30_encoding.md R107). -/

namespace Sys2Proof.Machine

/-- `Fs = csr.SRC_RATE`. -/
def State.Fs (s : State) : Nat := s.srcRate.toNat

/-- `Ft = csr.TARGET_RATE`. -/
def State.Ft (s : State) : Nat := s.targetRate.toNat

/-- `NT = csr.FILTER_TAPS`. -/
def State.NT (s : State) : Nat := s.filterTaps.toNat

/-- `M = (NT - 1)/2`. -/
def State.M (s : State) : Nat := (s.NT - 1) / 2

/-- `F = csr.FRAME_SIZE`. -/
def State.F (s : State) : Nat := s.frameSize.toNat

/-- `H = csr.HOP_SIZE`. -/
def State.H (s : State) : Nat := s.hopSize.toNat

/-- `NB = csr.NUM_BANDS`. -/
def State.NB (s : State) : Nat := s.numBands.toNat

/-- `Z = csr.TARGET_ZONE`. -/
def State.Z (s : State) : Nat := s.targetZone.toNat

/-- A 64-bit value from its two words, `{HI, LO}` (20_memory.md R72). -/
def join (hi lo : Word) : F64 := hi ++ lo

/-- The low word of a 64-bit value. -/
def lo32 (v : F64) : Word := v.extractLsb' 0 32

/-- The high word of a 64-bit value. -/
def hi32 (v : F64) : Word := v.extractLsb' 32 32

/-- `MULT = {csr.THRESH_HI, csr.THRESH_LO}` (10_state.md R45). -/
def State.MULT (s : State) : F64 := join s.threshHi s.threshLo

/-- `B = floor(F/2) + 1`, the bins of a magnitude vector. -/
def State.B (s : State) : Nat := s.F / 2 + 1

/-- `n = |xin|`. -/
def State.n (s : State) : Nat := s.xin.length

/-- `m = |ys|`. -/
def State.m (s : State) : Nat := s.ys.length

/-- `P = |pk|`. -/
def State.P (s : State) : Nat := s.pk.length

/-- `csr.IN_COUNT`: the samples accepted in this run, ingested or still queued (10_state.md R47). -/
def State.accepted (s : State) : Nat := s.n + s.inFifo.length

/-- A counter register shows the low 32 bits of an exact count (10_state.md R47). -/
def low32 (v : Nat) : Word := BitVec.ofNat 32 v

/-- `COEF_SEL.BANK` (10_state.md R49). -/
def coefBank (s : State) : BitVec 1 := s.coefSel.extractLsb' 31 1

/-- `COEF_SEL.INDEX`. -/
def coefIndex (s : State) : Nat := (s.coefSel.extractLsb' 0 16).toNat

/-- What `COEF_SEL` keeps of a written word (40_host_ops.md R139). -/
def coefSelOf (data : Word) : Word := data.extractLsb' 31 1 ++ 0#15 ++ data.extractLsb' 0 16

/-- What `IRQ_EN` keeps of a written word (40_host_ops.md R138). -/
def irqEnOf (data : Word) : Word := (data.extractLsb' 0 4).setWidth 32

/-- The coefficient that `COEF_SEL` selects; none while its bank is not valid or the index is out of range
(40_host_ops.md R148). -/
def selectedCoef (s : State) : Option F64 :=
  if coefBank s = 0#1 then
    if s.kvalid && decide (coefIndex s < s.NT) then some (s.kern.getD (coefIndex s) fzero) else none
  else
    if s.wvalid && decide (coefIndex s < s.F) then some (s.win.getD (coefIndex s) fzero) else none

/-- `CAP0` (10_state.md R36). -/
def cap0Word (p : Impl) : Word := BitVec.ofNat 16 p.maxFrame ++ BitVec.ofNat 16 p.maxTaps

/-- `CAP1` (10_state.md R36). -/
def cap1Word (p : Impl) : Word := 0#16 ++ BitVec.ofNat 8 p.fftLanes ++ BitVec.ofNat 8 p.maxBands

/-- `CAP2` (10_state.md R36). -/
def cap2Word (p : Impl) : Word := BitVec.ofNat 16 p.outDepth ++ BitVec.ofNat 16 p.inDepth

/-- The constant `ID` (10_state.md R31). -/
def idWord : Word := 0x4E414650#32

/-- The constant `VERSION` (10_state.md R31). -/
def versionWord : Word := 0x00010000#32

/-- The spectrogram slot of a frame, none when it is empty (10_state.md R56). -/
def slot? (spec : List (Nat × List F64)) (j : Nat) : Option (List F64) :=
  match spec with
  | [] => none
  | (k, v) :: rest => if k = j then some v else slot? rest j

/-- Fill the slot of a frame, keeping the frame indices rising. -/
def fillSlot (spec : List (Nat × List F64)) (j : Nat) (v : List F64) : List (Nat × List F64) :=
  match spec with
  | [] => [(j, v)]
  | (k, u) :: rest =>
    if j < k then (j, v) :: (k, u) :: rest
    else if j = k then (j, v) :: rest
    else (k, u) :: fillSlot rest j v

end Sys2Proof.Machine
end

