-- ==== Sys2Proof/Machine/Flags.lean ====
section
/-! DEFINITION. The derived predicates of 10_state.md R61 and the words computed from them: `STATUS` (R33), `IRQ_PEND`
(R35) and the interrupt line (60_exceptions.md R322). -/

namespace Sys2Proof.Machine

/-- `stage_ok` (R61): a run is on and the output FIFO has room. -/
def stageOk (s : State) : Bool :=
  (s.phase == .run || s.phase == .flush) && decide (s.hq.length < s.impl.outDepth)

/-- `centre(i)`: the input position selected for output `i` (42_fir_decimate.md R192). -/
def centre (Fs Ft i : Nat) : Nat := i * Fs / Ft

/-- `lenok(i)`: output `i` exists for `n` samples (R61). -/
def lenOk (Fs Ft n i : Nat) : Bool := decide ((i + 1) * Fs ≤ n * Ft)

/-- `newLength(L)`: how many outputs `L` samples give (42_fir_decimate.md R192). -/
def newLength (Fs Ft L : Nat) : Nat := L * Ft / Fs

/-- `NFR(k)`: the frames in `k` samples (43_frame_window.md R211). -/
def frameCount (F H k : Nat) : Nat := if F ≤ k then (k - F) / H + 1 else 0

/-- `NFR(m)`. -/
def State.frames (s : State) : Nat := frameCount s.F s.H s.m

/-- `xdone` (R61): the end of input was signalled and every sample is ingested. -/
def xdone (s : State) : Bool := s.fin && s.inFifo.isEmpty

/-- `ydone` (R61): no further output exists. -/
def ydone (s : State) : Bool := xdone s && !lenOk s.Fs s.Ft s.n s.m

/-- `sdone` (R61): every frame has its slot filled. -/
def sdone (s : State) : Bool := ydone s && (List.range s.frames).all fun j => (slot? s.spec j).isSome

/-- `pdone` (R61): every frame has been searched for peaks. -/
def pdone (s : State) : Bool := sdone s && s.npf == s.frames

/-- `hdone` (R61): every anchor has been released. -/
def hdone (s : State) : Bool := pdone s && s.a == s.P

/-- The longest run in samples, `2^32 - 1` (40_host_ops.md R146). -/
def maxSamples : Nat := 2 ^ 32 - 1

/-- The input FIFO has a free place and the run may still grow: what a push needs besides its phase. -/
def roomForSample (s : State) : Bool :=
  decide (s.inFifo.length < s.impl.inDepth) && decide (s.accepted < maxSamples)

/-- `IN_READY`, `STATUS[4]` (R33). -/
def inReady (s : State) : Bool := s.phase == .run && roomForSample s

/-- The phases in which hashes may be popped (40_host_ops.md R132). -/
def popPhase (p : Phase) : Bool := p == .run || p == .flush || p == .done

/-- `HASH_AVAIL`, `STATUS[5]` (R33). -/
def hashAvail (s : State) : Bool := popPhase s.phase && !s.hq.isEmpty

/-- `STATUS` (R33), from bit 31 down. -/
def statusWord (s : State) : Word :=
  0#17 ++ BitVec.ofBool (hdone s) ++ BitVec.ofBool (pdone s) ++ BitVec.ofBool (sdone s) ++ BitVec.ofBool (ydone s) ++
    BitVec.ofBool (xdone s) ++ BitVec.ofBool s.fin ++ BitVec.ofBool s.ksumZero ++ BitVec.ofBool s.wvalid ++
    BitVec.ofBool s.kvalid ++ BitVec.ofBool (hashAvail s) ++ BitVec.ofBool (inReady s) ++ 0#1 ++ s.phase.code

/-- `IRQ_PEND` (R35): the live levels of the four sources. -/
def irqPendWord (s : State) : Word :=
  0#28 ++ BitVec.ofBool (inReady s) ++ BitVec.ofBool (hashAvail s) ++ BitVec.ofBool (s.phase == .fault) ++
    BitVec.ofBool (s.phase == .done)

/-- The interrupt line `irq` (60_exceptions.md R322), a function of the state that nothing in the block reads. -/
def irqLine (s : State) : Bool := s.irqEn.extractLsb' 0 4 &&& (irqPendWord s).extractLsb' 0 4 != 0#4

end Sys2Proof.Machine
end

