-- ==== Sys2Proof/Machine/Ops.lean ====
section
/-! DEFINITION. The shared operations: bus responses, refusal, beats of the monitor ports, the run-state clear, the two
resets, the checks of `START`, and fault entry, the block's one exception (60_exceptions.md R318). -/

namespace Sys2Proof.Machine

/-- Complete a bus transaction with `err = 0` and the data given (30_encoding.md R102). -/
def respond (v : Word) (s : State) : State := { s with resp := some ⟨false, v⟩ }

/-- Complete a write: `err = 0`, `rdata = 0`. -/
def accept (s : State) : State := respond 0#32 s

/-- `refuse`: `err = 1`, `rdata = 0`, and no change of the block's state (40_host_ops.md R133). -/
def refuse (s : State) : State := { s with resp := some ⟨true, 0#32⟩ }

/-- `trace(op, idx)`: one beat on the trace port (60_exceptions.md R338). -/
def emit (op : BitVec 4) (idx : Nat) (s : State) : State := { s with trace := s.trace ++ [⟨op, low32 idx⟩] }

/-- The run-state clear (10_state.md R63). The coefficient memories become absent (70_reset_and_hazards.md R352). -/
def clearRun (s : State) : State :=
  { s with
    slo := 0#32, inFifo := [], fin := false, xin := [], kern := [], kvalid := false, ksumZero := false, win := [],
    wvalid := false, ys := [], spec := [], pk := [], npf := 0, a := 0, t := 1, hq := [], hashCount := 0, popped := [] }

/-- The reset state of 10_state.md R62, over the implementation, the monitor ports' records and the schedule, which are no
architectural state (log entry 7). -/
def resetBlock (s : State) : State :=
  { State.reset with
    impl := s.impl, trace := s.trace, stap := s.stap, ptap := s.ptap, script := s.script }

/-- The number of a sub-cause (60_exceptions.md R312). -/
def FaultSub.code : FaultSub → BitVec 8
  | .emptyInput => 1#8 | .rateBelowFloor => 2#8 | .evenTaps => 3#8 | .badConfig => 4#8 | .sampleRange => 5#8

/-- `ERR = 1 + (sub << 8)` (60_exceptions.md R312, R318). -/
def errWordOf (sub : FaultSub) : Word := 0#16 ++ sub.code ++ 1#8

/-- Fault entry, `raise InvalidInput(sub, info)` (60_exceptions.md R318). `ERR` and `ERR_INFO` save the cause, the output
FIFO is flushed, the phase becomes `FAULT`, the trace port shows the entry, and the raising transaction completes. -/
def enterFault (sub : FaultSub) (info : Word) (s : State) : State :=
  accept (emit 10#4 (errWordOf sub).toNat
    { s with err := errWordOf sub, errInfo := info, hq := [], phase := .fault })

/-- The way out of `FAULT`, and of any other phase (40_host_ops.md R143, 60_exceptions.md R321). -/
def leaveRun (s : State) : State := { clearRun s with err := 0#32, errInfo := 0#32, phase := .idle }

/-- The checks of `START` in their order (60_exceptions.md R316): the first that fails, with its information word; none
when the configuration is legal. -/
def startCheck (s : State) : Option (FaultSub × Word) :=
  if s.srcRate < s.minRate then some (.rateBelowFloor, s.srcRate)
  else if s.NT % 2 = 0 then some (.evenTaps, s.filterTaps)
  else if s.Ft = 0 then some (.badConfig, 0x044#32)
  else if s.Fs = 0 then some (.badConfig, 0x040#32)
  else if s.NT < 3 ∨ s.impl.maxTaps < s.NT then some (.badConfig, 0x04C#32)
  else if s.F < 2 ∨ s.impl.maxFrame < s.F then some (.badConfig, 0x050#32)
  else if s.H = 0 then some (.badConfig, 0x054#32)
  else if s.NB = 0 ∨ s.impl.maxBands < s.NB ∨ s.B < s.NB then some (.badConfig, 0x058#32)
  else if isFinite s.MULT = false then some (.badConfig, 0x060#32)
  else none

/-- `cfg_ok`: the configuration is legal (10_state.md R46). -/
abbrev cfgOk (s : State) : Prop :=
  s.minRate ≤ s.srcRate ∧ s.NT % 2 = 1 ∧ 1 ≤ s.Ft ∧ 1 ≤ s.Fs ∧ 3 ≤ s.NT ∧ s.NT ≤ s.impl.maxTaps ∧
  2 ≤ s.F ∧ s.F ≤ s.impl.maxFrame ∧ 1 ≤ s.H ∧ 1 ≤ s.NB ∧ s.NB ≤ min s.impl.maxBands s.B ∧ isFinite s.MULT = true

/-- A sample outside the input domain: not finite, or of magnitude above 1.0 (40_host_ops.md R146). -/
def outOfRange (v : F64) : Bool := !isFinite v || fgt (fabs v) fONE

/-- A configuration write (40_host_ops.md R137): refused outside `IDLE`, otherwise `t` is the state with the register
written. -/
def configWrite (s t : State) : State := if s.phase = .idle then accept t else refuse s

/-- A turn offered to an agent whose guard is false: there is no step to take (00_scope.md R13, log entry 4). -/
def noStep (s : State) : State := s

/-- What `step` answers to a word that is no instruction. A transaction the dispatch of 40_host_ops.md R130 refuses
completes with an error; a word that encodes no transaction, or a beat of no agent, has no meaning. -/
def turnAway (e : DecodeError) (s : State) : Out :=
  match e with
  | .reservedBits => .refused .notATransaction
  | .reservedStageOp => .refused .noSuchStage
  | .misaligned | .reservedAddress | .writeToReadOnly | .readOfWriteOnly | .reservedCommand => .next (refuse s)

/-- Hard reset (70_reset_and_hazards.md R350): the reset state, and no response. -/
def hardReset (s : State) : State := resetBlock s

/-- Take the next event off the schedule; none when nothing more is scheduled. -/
def nextEvent (s : State) : Option (Event × State) :=
  match s.script with
  | [] => none
  | e :: rest => some (e, { s with script := rest })

/-- Put an event before the schedule. -/
def schedule (e : Event) (s : State) : State := { s with script := e :: s.script }

end Sys2Proof.Machine
end

