-- ==== Sys2Proof/Machine/Command.lean ====
section
/-! DEFINITION. The five commands written to `CMD` (40_host_ops.md R140 to R144), and the FAULT row of the operation map
(60_exceptions.md R318). -/

namespace Sys2Proof.Machine

/-- `CMD.NOP` (R140). -/
def execCmdNop (s : State) : Out := .next (accept s)

/-- `CMD.START` (R141): outside `IDLE` refused; otherwise the run state is cleared, and the run starts or the first
failing check faults. -/
def execCmdStart (s : State) : Out :=
  if s.phase = .idle then
    match startCheck s with
    | some (sub, info) => .next (enterFault sub info (clearRun s))
    | none => .next (accept { clearRun s with phase := .run })
  else .next (refuse s)

/-- `CMD.FINISH` (R142): outside `RUN` refused; with no sample accepted it faults. -/
def execCmdFinish (s : State) : Out :=
  if s.phase = .run then
    if s.accepted = 0 then .next (enterFault .emptyInput 0#32 s)
    else .next (accept { s with fin := true, phase := .flush })
  else .next (refuse s)

/-- `CMD.CLEAR` (R143). -/
def execCmdClear (s : State) : Out := .next (accept (leaveRun s))

/-- `CMD.RESET` (R144). -/
def execCmdReset (s : State) : Out := .next (accept (resetBlock s))

/-- The fault entry that the value `e` of `ERR` names, when its cause stands in `s`: the condition and the information word
of 60_exceptions.md R312, in the phase of the host operation that raises it. `START` clears the run state first. -/
def faultNamed (e : Word) (s : State) : Option State :=
  if s.phase = .run then
    if e = errWordOf .emptyInput ∧ s.accepted = 0 then some (enterFault .emptyInput 0#32 s)
    else if e = errWordOf .sampleRange ∧ roomForSample s = true then
      some (enterFault .sampleRange (low32 s.accepted) s)
    else none
  else if s.phase = .idle then
    match startCheck s with
    | some (sub, info) => if e = errWordOf sub then some (enterFault sub info (clearRun s)) else none
    | none => none
  else none

/-- The FAULT row (R318): the fault entry whose beat is `A_<e>`. Faults arise only from host operations (R320), so the
turn enters the fault exactly where a host operation could raise that cause, and with that operation's effect; elsewhere
there is no such step (log entry 6). -/
def execFault (e : Word) (s : State) : Out := .next ((faultNamed e s).getD (noStep s))

end Sys2Proof.Machine
end

