-- ==== Sys2Proof/Machine/DataPort.lean ====
section
/-! DEFINITION. The data ports: the sample latch and the push (40_host_ops.md R145, R146), the pop (R147) and the
coefficient read-back (R148). -/

namespace Sys2Proof.Machine

/-- `WR.SAMPLE_LO` (R145). -/
def execWrSampleLo (data : Word) (s : State) : Out :=
  if s.phase = .run then .next (accept { s with slo := data }) else .next (refuse s)

/-- `WR.SAMPLE_HI`, the push (R146): checked in the order phase, FIFO full and run length, range. -/
def execWrSampleHi (data : Word) (s : State) : Out :=
  if s.phase = .run ∧ roomForSample s = true then
    if outOfRange (join data s.slo) then .next (enterFault .sampleRange (low32 s.accepted) s)
    else .next (accept { s with inFifo := s.inFifo ++ [join data s.slo] })
  else .next (refuse s)

/-- `RD.HASH_DATA`, the pop (R147). -/
def execRdHashData (s : State) : Out :=
  if popPhase s.phase then
    match s.hq with
    | [] => .next (refuse s)
    | h :: rest => .next (respond h { s with hq := rest, popped := s.popped ++ [h] })
  else .next (refuse s)

/-- A read of one half of the selected coefficient (R148). -/
def readCoef (half : F64 → Word) (s : State) : State :=
  if s.phase = .idle then refuse s
  else
    match selectedCoef s with
    | none => refuse s
    | some c => respond (half c) s

/-- `RD.COEF_LO` (R148). -/
def execRdCoefLo (s : State) : Out := .next (readCoef lo32 s)

/-- `RD.COEF_HI` (R148). -/
def execRdCoefHi (s : State) : Out := .next (readCoef hi32 s)

end Sys2Proof.Machine
end

