-- ==== Sys2Proof/Machine/HostRead.lean ====
section
/-! DEFINITION. The plain register reads (40_host_ops.md R136): allowed in every phase, they change nothing but the bus
response. One definition for each row. -/

namespace Sys2Proof.Machine

/-- `RD.ID` (10_state.md R31). -/
def execRdId (s : State) : Out := .next (respond idWord s)
/-- `RD.VERSION` (R31). -/
def execRdVersion (s : State) : Out := .next (respond versionWord s)
/-- `RD.STATUS` (R33). -/
def execRdStatus (s : State) : Out := .next (respond (statusWord s) s)
/-- `RD.ERR` (R34). -/
def execRdErr (s : State) : Out := .next (respond s.err s)
/-- `RD.ERR_INFO` (R34). -/
def execRdErrInfo (s : State) : Out := .next (respond s.errInfo s)
/-- `RD.IRQ_EN` (R35). -/
def execRdIrqEn (s : State) : Out := .next (respond s.irqEn s)
/-- `RD.IRQ_PEND` (R35). -/
def execRdIrqPend (s : State) : Out := .next (respond (irqPendWord s) s)
/-- `RD.CAP0` (R36). -/
def execRdCap0 (s : State) : Out := .next (respond (cap0Word s.impl) s)
/-- `RD.CAP1` (R36). -/
def execRdCap1 (s : State) : Out := .next (respond (cap1Word s.impl) s)
/-- `RD.CAP2` (R36). -/
def execRdCap2 (s : State) : Out := .next (respond (cap2Word s.impl) s)
/-- `RD.SRC_RATE` (R37). -/
def execRdSrcRate (s : State) : Out := .next (respond s.srcRate s)
/-- `RD.TARGET_RATE` (R38). -/
def execRdTargetRate (s : State) : Out := .next (respond s.targetRate s)
/-- `RD.MIN_RATE` (R39). -/
def execRdMinRate (s : State) : Out := .next (respond s.minRate s)
/-- `RD.FILTER_TAPS` (R40). -/
def execRdFilterTaps (s : State) : Out := .next (respond s.filterTaps s)
/-- `RD.FRAME_SIZE` (R41). -/
def execRdFrameSize (s : State) : Out := .next (respond s.frameSize s)
/-- `RD.HOP_SIZE` (R42). -/
def execRdHopSize (s : State) : Out := .next (respond s.hopSize s)
/-- `RD.NUM_BANDS` (R43). -/
def execRdNumBands (s : State) : Out := .next (respond s.numBands s)
/-- `RD.TARGET_ZONE` (R44). -/
def execRdTargetZone (s : State) : Out := .next (respond s.targetZone s)
/-- `RD.THRESH_LO` (R45). -/
def execRdThreshLo (s : State) : Out := .next (respond s.threshLo s)
/-- `RD.THRESH_HI` (R45). -/
def execRdThreshHi (s : State) : Out := .next (respond s.threshHi s)
/-- `RD.IN_COUNT` (R47). -/
def execRdInCount (s : State) : Out := .next (respond (low32 s.accepted) s)
/-- `RD.DS_COUNT` (R47). -/
def execRdDsCount (s : State) : Out := .next (respond (low32 s.m) s)
/-- `RD.FRAME_COUNT` (R47). -/
def execRdFrameCount (s : State) : Out := .next (respond (low32 s.spec.length) s)
/-- `RD.PEAK_FRAMES` (R47). -/
def execRdPeakFrames (s : State) : Out := .next (respond (low32 s.npf) s)
/-- `RD.PEAK_COUNT` (R47). -/
def execRdPeakCount (s : State) : Out := .next (respond (low32 s.P) s)
/-- `RD.HASH_COUNT` (R47). -/
def execRdHashCount (s : State) : Out := .next (respond (low32 s.hashCount) s)
/-- `RD.IN_LEVEL` (R47). -/
def execRdInLevel (s : State) : Out := .next (respond (low32 s.inFifo.length) s)
/-- `RD.HASH_LEVEL` (R47). -/
def execRdHashLevel (s : State) : Out := .next (respond (low32 s.hq.length) s)
/-- `RD.COEF_SEL` (R49). -/
def execRdCoefSel (s : State) : Out := .next (respond s.coefSel s)

end Sys2Proof.Machine
end

