-- ==== Sys2Proof/Machine/HostWrite.lean ====
section
/-! DEFINITION. The register writes that store: the ten configuration registers (40_host_ops.md R137), `IRQ_EN` (R138)
and `COEF_SEL` (R139). -/

namespace Sys2Proof.Machine

/-- `WR.IRQ_EN` (R138): allowed in every phase; bits 31:4 are dropped. -/
def execWrIrqEn (data : Word) (s : State) : Out := .next (accept { s with irqEn := irqEnOf data })
/-- `WR.COEF_SEL` (R139): allowed in every phase; bits 30:16 are dropped. -/
def execWrCoefSel (data : Word) (s : State) : Out := .next (accept { s with coefSel := coefSelOf data })
/-- `WR.SRC_RATE` (R137). -/
def execWrSrcRate (data : Word) (s : State) : Out := .next (configWrite s { s with srcRate := data })
/-- `WR.TARGET_RATE` (R137). -/
def execWrTargetRate (data : Word) (s : State) : Out := .next (configWrite s { s with targetRate := data })
/-- `WR.MIN_RATE` (R137). -/
def execWrMinRate (data : Word) (s : State) : Out := .next (configWrite s { s with minRate := data })
/-- `WR.FILTER_TAPS` (R137). -/
def execWrFilterTaps (data : Word) (s : State) : Out := .next (configWrite s { s with filterTaps := data })
/-- `WR.FRAME_SIZE` (R137). -/
def execWrFrameSize (data : Word) (s : State) : Out := .next (configWrite s { s with frameSize := data })
/-- `WR.HOP_SIZE` (R137). -/
def execWrHopSize (data : Word) (s : State) : Out := .next (configWrite s { s with hopSize := data })
/-- `WR.NUM_BANDS` (R137). -/
def execWrNumBands (data : Word) (s : State) : Out := .next (configWrite s { s with numBands := data })
/-- `WR.TARGET_ZONE` (R137). -/
def execWrTargetZone (data : Word) (s : State) : Out := .next (configWrite s { s with targetZone := data })
/-- `WR.THRESH_LO` (R137). -/
def execWrThreshLo (data : Word) (s : State) : Out := .next (configWrite s { s with threshLo := data })
/-- `WR.THRESH_HI` (R137). -/
def execWrThreshHi (data : Word) (s : State) : Out := .next (configWrite s { s with threshHi := data })

end Sys2Proof.Machine
end

