-- ==== Sys2Proof/Machine/Reference.lean ====
section
/-! DEFINITION. The reference instantiation of the numerics configuration: `SIN` and `COS` of 41_kernel_design.md R172
and `DFTMAG_ref` of 44_fft_magnitude.md R229. -/

namespace Sys2Proof.Machine

/-- The Taylor sum of sine or cosine of `x * 2^-p`, in units of `2^-p`: from the term `term` of degree `deg` on. -/
def taylor (p : Nat) (x2 : Int) : Nat → Int → Nat → Int
  | 0, _, _ => 0
  | fuel + 1, term, deg =>
    term + taylor p x2 fuel (-(term * x2 / 2 ^ p / (((deg + 1) * (deg + 2) : Nat) : Int))) (deg + 2)

/-- `k` angle doublings of the pair (cosine, sine), in units of `2^-p`. -/
def doubleAngle (p : Nat) : Nat → Int × Int → Int × Int
  | 0, cs => cs
  | k + 1, cs => doubleAngle p k ((cs.1 * cs.1 - cs.2 * cs.2) / 2 ^ p, 2 * cs.1 * cs.2 / 2 ^ p)

/-- How often a finite angle is halved to come below `2^-10`. -/
def halvings (a : F64) : Nat := Nat.log2 (fixMag a) + 11 - 1074

/-- Bits after the point: 400 that the result keeps, and two for each doubling. -/
def trigPrec (a : F64) : Nat := 400 + 2 * halvings a

/-- Cosine and sine of a finite `a` in units of `2^-(trigPrec a)`: the Taylor sums of the halved angle, then doublings.
Below `2^-10` each term of the sums is more than 20 bits smaller than the one before, which fixes their number. No
reduction by pi is needed, so one computation serves every finite argument. -/
def cosSin (a : F64) : Int × Int :=
  let k := halvings a
  let p := trigPrec a
  let x : Int := toFix a * 2 ^ p / 2 ^ (1074 + k)
  let x2 : Int := x * x / 2 ^ p
  doubleAngle p k (taylor p x2 (p / 20 + 2) (2 ^ p) 0, taylor p x2 (p / 20 + 2) x 1)

/-- A fixed-point number of `p` bits after the point as a binary64, rounded once. -/
def roundBits (p : Nat) (v : Int) : F64 := roundFix (v < 0) (v.natAbs * fixOne) (2 ^ p)

/-- `v` units of `2^-p`, held between -1 and 1: no sine and no cosine lies outside. -/
def clampUnit (p : Nat) (v : Int) : Int := max (-2 ^ p) (min (2 ^ p) v)

/-- Below `2^-27` the nearest binary64 to the sine is the angle itself, and to the cosine 1.0. -/
def isTiny (a : F64) : Bool := expField a < 1023 - 27

/-- The reference `SIN` (R172): more than 350 correct bits rounded once to binary64 (log entry 2). What it is at an infinity
or a NaN, and which zero it is at `-0.0`, the spec does not say, and neither does the model: free values (log entry 19). -/
def sinRef (a : F64) : F64 :=
  if !isFinite a then Config.sinNonFinite a
  else if feq0 a && signBit a then withSign Config.sinNegZeroSign 0
  else if isTiny a then a
  else roundBits (trigPrec a) (clampUnit (trigPrec a) (cosSin a).2)

/-- The reference `COS` (R172), as `sinRef`; it is free at infinities and NaNs only (log entry 19). -/
def cosRef (a : F64) : F64 :=
  if !isFinite a then Config.cosNonFinite a
  else if isTiny a then fONE
  else roundBits (trigPrec a) (clampUnit (trigPrec a) (cosSin a).1)

/-- `DFTMAG_ref(F, xw)` of R229: the direct transform, in its stated order, over the `SIN`, `COS` and `SQRT` given. -/
def dftMagRef (sin cos sqrt : F64 → F64) (F : Nat) (xw : List F64) : List F64 :=
  (List.range (F / 2 + 1)).map fun k =>
    let angle := fun n => fdiv (fmul fTWOPI (f64OfNat ((k * n) % F))) (f64OfNat F)
    let re := (List.range F).foldl (fun acc n => fadd acc (fmul (xw.getD n fzero) (cos (angle n)))) fzero
    let im := (List.range F).foldl (fun acc n => fadd acc (fmul (xw.getD n fzero) (sin (angle n)))) fzero
    sqrt (fadd (fmul re re) (fmul im im))

end Sys2Proof.Machine
end

