-- ==== Sys2Proof/Machine/Numerics.lean ====
section
/-! DEFINITION. The numerics configurations with their named properties (00_scope.md R6), and what the stages compute: the
kernel and the window (41_kernel_design.md), the convolution (42_fir_decimate.md), the windowed frame (43_frame_window.md),
the bands and peaks (45_peak_detect.md) and the hash word (46_hash_encode.md). Each sum runs in the order its rule states,
from `+0.0`. -/

namespace Sys2Proof.Machine

/-- A numerics configuration (00_scope.md R6): the functions the spec leaves to the implementation. `SQRT` is used by the
reference instantiation of `DFTMAG` (44_fft_magnitude.md R227), and the spec names no property of it. -/
structure Numerics where
  sin : F64 → F64
  cos : F64 → F64
  sqrt : F64 → F64
  dftMag : Nat → List F64 → List F64

/-- TRIG-FINITE (R172): of finite arguments; of others nothing is said. -/
def TrigFinite (N : Numerics) : Prop :=
  ∀ x, isFinite x = true →
    (isFinite (N.sin x) = true ∧ |toRat (N.sin x)| ≤ 1) ∧ (isFinite (N.cos x) = true ∧ |toRat (N.cos x)| ≤ 1)

/-- TRIG-ZERO (R172). -/
def TrigZero (N : Numerics) : Prop := N.sin fzero = fzero ∧ N.cos fzero = fONE

/-- TRIG-ACC (R172) with `EPS_TRIG = eps`. -/
def TrigAcc (N : Numerics) (eps : ℚ) : Prop :=
  ∀ x, isFinite x = true → |toRat x| ≤ 2 ^ 20 →
    |(toRat (N.sin x) : ℝ) - Real.sin (toRat x)| ≤ eps ∧ |(toRat (N.cos x) : ℝ) - Real.cos (toRat x)| ≤ eps

/-- DFT-LEN (44_fft_magnitude.md R227, R228). -/
def DftLen (N : Numerics) : Prop := ∀ F xw, xw.length = F → (N.dftMag F xw).length = F / 2 + 1

/-- DFT-NONNEG (R228): of a frame of finite elements every magnitude is finite, not below zero, never `-0.0`; of others
nothing is said. -/
def DftNonneg (N : Numerics) : Prop :=
  ∀ F xw, xw.length = F → (∀ x ∈ xw, isFinite x = true) →
    ∀ v ∈ N.dftMag F xw, isFinite v = true ∧ signBit v = false

/-- The exact magnitude of bin `k` of a real frame (44_fft_magnitude.md R225), by its square. -/
def IsMagnitude (F : Nat) (xw : List F64) (k : Nat) (mag : ℝ) : Prop :=
  0 ≤ mag ∧ mag ^ 2 =
    (∑ n ∈ Finset.range F, (toRat (xw.getD n fzero) : ℝ) * Real.cos (2 * Real.pi * k * n / F)) ^ 2 +
    (∑ n ∈ Finset.range F, (toRat (xw.getD n fzero) : ℝ) * Real.sin (2 * Real.pi * k * n / F)) ^ 2

/-- `v` is within `eps` times the sum of the magnitudes of the frame of the exact magnitude of bin `k` (R228). -/
def NearMagnitude (eps : ℚ) (F : Nat) (xw : List F64) (k : Nat) (v : F64) : Prop :=
  ∀ mag, IsMagnitude F xw k mag →
    |(toRat v : ℝ) - mag| ≤ eps * ∑ n ∈ Finset.range F, |(toRat (xw.getD n fzero) : ℝ)|

/-- No binary64 that DFT-NONNEG admits is nearer than `v` to the exact magnitude of bin `k`. -/
def NearestMagnitude (F : Nat) (xw : List F64) (k : Nat) (v : F64) : Prop :=
  ∀ mag, IsMagnitude F xw k mag → ∀ u, isFinite u = true → signBit u = false →
    |(toRat v : ℝ) - mag| ≤ |(toRat u : ℝ) - mag|

/-- DFT-ACC (R228) with `EPS_DFT = eps`: every bin of every finite frame is within the bound. Where no binary64 that
DFT-NONNEG admits is (the exact magnitude is beyond the largest one, or the bound is below the spacing of binary64 there), no
function can meet the rule, and the bin is to be as near as any of them (log entry 2). -/
def DftAcc (N : Numerics) (eps : ℚ) : Prop :=
  ∀ F xw, xw.length = F → (∀ x ∈ xw, isFinite x = true) → ∀ k, k < F / 2 + 1 →
    NearMagnitude eps F xw k ((N.dftMag F xw).getD k fzero) ∨ NearestMagnitude F xw k ((N.dftMag F xw).getD k fzero)

/-- The named properties of a numerics configuration with its two parameters, which are positive (92_eei_decisions.md
section 2): all that R6 lets a model assume. DFT-FUN holds because `dftMag` is a function. -/
structure Conforms (epsTrig epsDft : ℚ) (N : Numerics) : Prop where
  epsTrigPos : 0 < epsTrig
  epsDftPos : 0 < epsDft
  trigFinite : TrigFinite N
  trigZero : TrigZero N
  trigAcc : TrigAcc N epsTrig
  dftLen : DftLen N
  dftNonneg : DftNonneg N
  dftAcc : DftAcc N epsDft

/-- The reference instantiation (R172, R229). -/
def referenceNumerics : Numerics := ⟨sinRef, cosRef, fsqrt, dftMagRef sinRef cosRef fsqrt⟩

/-- The numerics configuration of an implementation: the reference one, or any that conforms. A tag that names no
implementation stands for the reference one (log entry 2). -/
def numericsOf : NumericsChoice → Numerics
  | .reference => referenceNumerics
  | .other tag epsTrig epsDft =>
    match Config.openChoice (Conforms epsTrig epsDft) tag with
    | some N => N.val
    | none => referenceNumerics

/-- The sum of a list in ascending order from `+0.0`. -/
def fsum (l : List F64) : F64 := l.foldl fadd fzero

/-- `hamming(k, L)` (R173). -/
def hamming (N : Numerics) (k L : Nat) : F64 :=
  fsub fC054 (fmul fC046 (N.cos (fdiv (fmul fTWOPI (f64OfNat k)) (f64OfNat (L - 1)))))

/-- `fc`, the cutoff as a fraction of the source rate (R174). -/
def cutoffRatio (Fs Ft : Nat) : F64 := fdiv (fdiv (f64OfNat Ft) fTWO) (f64OfNat Fs)

/-- `sincf(k)` (R174); the centre tap, where the quotient would be `0/0`, is `2*fc`. -/
def sincTap (N : Numerics) (Fs Ft NT k : Nat) : F64 :=
  let fc := cutoffRatio Fs Ft
  let d : Int := (k : Int) - (((NT - 1) / 2 : Nat) : Int)
  if d = 0 then fmul fTWO fc
  else fdiv (N.sin (fmul (fmul fTWOPI fc) (f64OfInt d))) (fmul fPI (f64OfInt d))

/-- The raw kernel of KDES (R176). -/
def rawKernel (N : Numerics) (Fs Ft NT : Nat) : List F64 :=
  (List.range NT).map fun k => fmul (sincTap N Fs Ft NT k) (hamming N k NT)

/-- The normalised kernel, and whether normalisation was skipped because the raw sum was zero (R176). -/
def normaliseKernel (raw : List F64) : List F64 × Bool :=
  if feq0 (fsum raw) then (raw, true) else (raw.map fun v => fdiv v (fsum raw), false)

/-- The kernel KDES designs, with its `ksum_zero` (R176). -/
def designKernel (N : Numerics) (Fs Ft NT : Nat) : List F64 × Bool := normaliseKernel (rawKernel N Fs Ft NT)

/-- The window WGEN generates (R180). -/
def makeWindow (N : Numerics) (F : Nat) : List F64 := (List.range F).map fun k => hamming N k F

/-- `conv(c)` (42_fir_decimate.md R193): tap `k` meets the sample at `c + M - k`; positions outside the signal are
skipped. -/
def conv (kern xin : List F64) (NT c : Nat) : F64 :=
  (List.range NT).foldl (fun acc k =>
    if k ≤ c + (NT - 1) / 2 ∧ c + (NT - 1) / 2 - k < xin.length then
      fadd acc (fmul (kern.getD k fzero) (xin.getD (c + (NT - 1) / 2 - k) fzero))
    else acc) fzero

/-- `xw(j)`: frame `j` times the window (43_frame_window.md R212). -/
def windowedFrame (ys win : List F64) (F H j : Nat) : List F64 :=
  (List.range F).map fun k => fmul (ys.getD (j * H + k) fzero) (win.getD k fzero)

/-- `bw`, the width of a band (45_peak_detect.md R246). -/
def bandWidth (B NB : Nat) : Nat := B / NB

/-- `lo(b)` (R246). -/
def bandLo (B NB b : Nat) : Nat := b * bandWidth B NB

/-- `hi(b)` (R246): the last band absorbs the remainder. -/
def bandHi (B NB b : Nat) : Nat := if b + 1 < NB then (b + 1) * bandWidth B NB else B

/-- `mean(b)` (R248) of the bins `lo` to `hi - 1`. -/
def bandMean (v : List F64) (lo hi : Nat) : F64 :=
  fdiv (fsum ((List.range' lo (hi - lo)).map fun k => v.getD k fzero)) (f64OfNat (hi - lo))

/-- `thr(b)` (R248). -/
def bandThreshold (v : List F64) (lo hi : Nat) (mult : F64) : F64 := fmul (bandMean v lo hi) mult

/-- `best` (R249): the lowest bin among those with the largest magnitude of the band. -/
def bestBin (v : List F64) (lo hi : Nat) : Nat :=
  (List.range' (lo + 1) (hi - (lo + 1))).foldl
    (fun best k => if fgt (v.getD k fzero) (v.getD best fzero) then k else best) lo

/-- The peak of band `b`, when it qualifies (R250). -/
def bandPeak (B NB : Nat) (mult : F64) (j : Nat) (v : List F64) (b : Nat) : Option Peak :=
  let lo := bandLo B NB b
  let hi := bandHi B NB b
  let best := bestBin v lo hi
  if fgt (v.getD best fzero) (bandThreshold v lo hi mult) then some ⟨j, best, v.getD best fzero⟩ else none

/-- The peaks of a frame, in ascending band (R254). -/
def framePeaks (B NB : Nat) (mult : F64) (j : Nat) (v : List F64) : List Peak :=
  (List.range NB).filterMap (bandPeak B NB mult j v)

/-- `pack(b1, b2, d)` (46_hash_encode.md R267): each field saturates. -/
def pack (b1 b2 d : Nat) : Word :=
  BitVec.ofNat 9 (min b1 0x1FF) ++ BitVec.ofNat 9 (min b2 0x1FF) ++ BitVec.ofNat 14 (min d 0x3FFF)

/-- The inverse of the hash word (R269): the two bins and the delta. -/
def unpack (h : Word) : Nat × Nat × Nat :=
  ((h.extractLsb' 23 9).toNat, (h.extractLsb' 14 9).toNat, (h.extractLsb' 0 14).toNat)

end Sys2Proof.Machine
end

