-- ==== Sys2Proof/Machine/StageFront.lean ====
section
/-! DEFINITION. The turns of the front stages: INGEST and FIRD (42_fir_decimate.md R191, R195), KDES and WGEN
(41_kernel_design.md R176, R180). A turn whose guard is false leaves the state as it is. -/

namespace Sys2Proof.Machine

/-- INGEST (R191). -/
def execIngest (s : State) : Out :=
  if stageOk s then
    match s.inFifo with
    | [] => .next (noStep s)
    | v :: rest => .next (emit 1#4 s.n { s with inFifo := rest, xin := s.xin ++ [v] })
  else .next (noStep s)

/-- KDES over a numerics configuration (R176). -/
def kdesStep (N : Numerics) (s : State) : State :=
  if stageOk s && !s.kvalid then
    emit 2#4 s.NT
      { s with
        kern := (designKernel N s.Fs s.Ft s.NT).1, ksumZero := (designKernel N s.Fs s.Ft s.NT).2, kvalid := true }
  else noStep s

/-- KDES (R176). -/
def execKdes (s : State) : Out := .next (kdesStep (numericsOf s.impl.numerics) s)

/-- WGEN over a numerics configuration (R180). -/
def wgenStep (N : Numerics) (s : State) : State :=
  if stageOk s && !s.wvalid then emit 3#4 s.F { s with win := makeWindow N s.F, wvalid := true } else noStep s

/-- WGEN (R180). -/
def execWgen (s : State) : Out := .next (wgenStep (numericsOf s.impl.numerics) s)

/-- The guard of FIRD (R195): the next output exists and every sample it reads is in, or none will come. -/
def firdReady (s : State) : Bool :=
  stageOk s && s.kvalid && lenOk s.Fs s.Ft s.n s.m &&
    (decide (centre s.Fs s.Ft s.m + s.M + 1 ≤ s.n) || xdone s)

/-- FIRD (R195). -/
def execFird (s : State) : Out :=
  if firdReady s then
    .next (emit 4#4 s.m { s with ys := s.ys ++ [conv s.kern s.xin s.NT (centre s.Fs s.Ft s.m)] })
  else .next (noStep s)

end Sys2Proof.Machine
end

