-- ==== Sys2Proof/Machine/StageHash.lean ====
section
/-! DEFINITION. The turns of the hash encoder, HEMIT and HADV (46_hash_encode.md R272 to R274), and RETIRE
(40_host_ops.md R160). -/

namespace Sys2Proof.Machine

/-- `d`: the frames between an anchor and a target (R272). -/
def frameDelta (anchor target : Peak) : Nat := target.frame - anchor.frame

/-- The pair HEMIT takes next: the anchor and the next candidate, when it is in the zone (R272). -/
def pairInZone (s : State) : Option (Peak × Peak) :=
  match s.pk[s.a]?, s.pk[s.t]? with
  | some p, some q => if frameDelta p q ≤ s.Z then some (p, q) else none
  | _, _ => none

/-- HEMIT (R272). -/
def execHemit (s : State) : Out :=
  if stageOk s then
    match pairInZone s with
    | none => .next (noStep s)
    | some (p, q) =>
      .next (emit 7#4 s.hashCount
        { s with
          hq := s.hq ++ [pack p.bin q.bin (frameDelta p q)], hashCount := s.hashCount + 1, t := s.t + 1 })
  else .next (noStep s)

/-- The anchor can be released: the candidate is beyond the zone (R273), or there is no candidate and no later peak can be
in the zone (R274). -/
def anchorDone (s : State) : Bool :=
  match s.pk[s.a]? with
  | none => false
  | some p =>
    match s.pk[s.t]? with
    | some q => decide (s.Z < frameDelta p q)
    | none => s.t == s.P && (pdone s || decide (p.frame + s.Z < s.npf))

/-- HADV, both forms (R273, R274). -/
def execHadv (s : State) : Out :=
  if stageOk s && anchorDone s then .next (emit 8#4 (s.a + 1) { s with a := s.a + 1, t := s.a + 2 })
  else .next (noStep s)

/-- RETIRE (40_host_ops.md R160). Its guard includes `stage_ok`, as that of every stage step (00_scope.md R13), and does not
require it: `hdone` leaves room in the output FIFO, because the HADV that releases the last anchor had room and no hash is
pushed after it (log entry 17). -/
def execRetire (s : State) : Out :=
  if s.phase = .flush ∧ hdone s = true ∧ stageOk s = true then .next (emit 9#4 s.hashCount { s with phase := .done })
  else .next (noStep s)

end Sys2Proof.Machine
end

