-- ==== Sys2Proof/Machine/StageSpectrum.lean ====
section
/-! DEFINITION. The turns of the spectral stages: WFFT (44_fft_magnitude.md R231) and PEAK (45_peak_detect.md R254), with
their beats on the two taps (60_exceptions.md R339, R340). -/

namespace Sys2Proof.Machine

/-- A tap beat (30_encoding.md R105): the low 32 bits of the frame index, the bin, the magnitude. -/
def tapBeat (frame bin : Nat) (mag : F64) : TapBeat := ⟨low32 frame, BitVec.ofNat 16 bin, mag⟩

/-- Frame `j` exists and its slot is empty (R231). -/
def frameReady (s : State) (j : Nat) : Bool := decide (j * s.H + s.F ≤ s.m) && (slot? s.spec j).isNone

/-- The frame a beat of WFFT names: the ready one whose index has `idx` as its low 32 bits, the lowest if several do; the
event `Event.frame` names any (log entry 8). -/
def chosenFrame (s : State) (idx : Word) : Option Nat :=
  (List.range s.frames).find? fun j => frameReady s j && low32 j == idx

/-- The magnitude vector of frame `j`. -/
def frameMagnitudes (N : Numerics) (s : State) (j : Nat) : List F64 :=
  N.dftMag s.F (windowedFrame s.ys s.win s.F s.H j)

/-- The beats of one WFFT step, bins ascending (R231). -/
def spectrumBeats (j : Nat) (v : List F64) : List TapBeat :=
  (List.range v.length).map fun k => tapBeat j k (v.getD k fzero)

/-- The step of WFFT on frame `j` (R231): its slot is filled, every bin is shown on the tap. -/
def transform (N : Numerics) (j : Nat) (s : State) : State :=
  emit 5#4 j
    { s with
      spec := fillSlot s.spec j (frameMagnitudes N s j),
      stap := s.stap ++ spectrumBeats j (frameMagnitudes N s j) }

/-- WFFT over a numerics configuration (R231). -/
def wfftStep (N : Numerics) (idx : Word) (s : State) : State :=
  if stageOk s && s.wvalid then
    match chosenFrame s idx with
    | none => noStep s
    | some j => transform N j s
  else noStep s

/-- The turn of WFFT on frame `j`, whichever ready frame that is (R231, log entry 8). -/
def frameTurn (j : Nat) (s : State) : State :=
  if stageOk s && s.wvalid && frameReady s j then transform (numericsOf s.impl.numerics) j s else noStep s

/-- WFFT (R231). -/
def execWfft (idx : Word) (s : State) : Out := .next (wfftStep (numericsOf s.impl.numerics) idx s)

/-- The beats of one PEAK step, in the order appended (R254). -/
def peakBeats (ps : List Peak) : List TapBeat := ps.map fun p => tapBeat p.frame p.bin p.mag

/-- PEAK (R254). -/
def execPeak (s : State) : Out :=
  if stageOk s then
    match slot? s.spec s.npf with
    | none => .next (noStep s)
    | some v =>
      .next (emit 6#4 s.npf
        { s with
          pk := s.pk ++ framePeaks s.B s.NB s.MULT s.npf v,
          ptap := s.ptap ++ peakBeats (framePeaks s.B s.NB s.MULT s.npf v),
          npf := s.npf + 1 })
  else .next (noStep s)

end Sys2Proof.Machine
end

