-- ==== Sys2Proof/Machine/Dispatch.lean ====
section
/-! DEFINITION. One arm for each operation of the opcode table. -/

namespace Sys2Proof.Machine

def exec (i : Instr) (s : State) : Host.Outcome State Fault Refusal :=
  match i with
  | .rdId => Sys2Proof.Machine.execRdId s
  | .rdVersion => Sys2Proof.Machine.execRdVersion s
  | .cmdNop => Sys2Proof.Machine.execCmdNop s
  | .cmdStart => Sys2Proof.Machine.execCmdStart s
  | .cmdFinish => Sys2Proof.Machine.execCmdFinish s
  | .cmdClear => Sys2Proof.Machine.execCmdClear s
  | .cmdReset => Sys2Proof.Machine.execCmdReset s
  | .rdStatus => Sys2Proof.Machine.execRdStatus s
  | .rdErr => Sys2Proof.Machine.execRdErr s
  | .rdErrInfo => Sys2Proof.Machine.execRdErrInfo s
  | .rdIrqEn => Sys2Proof.Machine.execRdIrqEn s
  | .wrIrqEn data => Sys2Proof.Machine.execWrIrqEn data s
  | .rdIrqPend => Sys2Proof.Machine.execRdIrqPend s
  | .rdCap0 => Sys2Proof.Machine.execRdCap0 s
  | .rdCap1 => Sys2Proof.Machine.execRdCap1 s
  | .rdCap2 => Sys2Proof.Machine.execRdCap2 s
  | .rdSrcRate => Sys2Proof.Machine.execRdSrcRate s
  | .wrSrcRate data => Sys2Proof.Machine.execWrSrcRate data s
  | .rdTargetRate => Sys2Proof.Machine.execRdTargetRate s
  | .wrTargetRate data => Sys2Proof.Machine.execWrTargetRate data s
  | .rdMinRate => Sys2Proof.Machine.execRdMinRate s
  | .wrMinRate data => Sys2Proof.Machine.execWrMinRate data s
  | .rdFilterTaps => Sys2Proof.Machine.execRdFilterTaps s
  | .wrFilterTaps data => Sys2Proof.Machine.execWrFilterTaps data s
  | .rdFrameSize => Sys2Proof.Machine.execRdFrameSize s
  | .wrFrameSize data => Sys2Proof.Machine.execWrFrameSize data s
  | .rdHopSize => Sys2Proof.Machine.execRdHopSize s
  | .wrHopSize data => Sys2Proof.Machine.execWrHopSize data s
  | .rdNumBands => Sys2Proof.Machine.execRdNumBands s
  | .wrNumBands data => Sys2Proof.Machine.execWrNumBands data s
  | .rdTargetZone => Sys2Proof.Machine.execRdTargetZone s
  | .wrTargetZone data => Sys2Proof.Machine.execWrTargetZone data s
  | .rdThreshLo => Sys2Proof.Machine.execRdThreshLo s
  | .wrThreshLo data => Sys2Proof.Machine.execWrThreshLo data s
  | .rdThreshHi => Sys2Proof.Machine.execRdThreshHi s
  | .wrThreshHi data => Sys2Proof.Machine.execWrThreshHi data s
  | .rdInCount => Sys2Proof.Machine.execRdInCount s
  | .rdDsCount => Sys2Proof.Machine.execRdDsCount s
  | .rdFrameCount => Sys2Proof.Machine.execRdFrameCount s
  | .rdPeakFrames => Sys2Proof.Machine.execRdPeakFrames s
  | .rdPeakCount => Sys2Proof.Machine.execRdPeakCount s
  | .rdHashCount => Sys2Proof.Machine.execRdHashCount s
  | .rdInLevel => Sys2Proof.Machine.execRdInLevel s
  | .rdHashLevel => Sys2Proof.Machine.execRdHashLevel s
  | .wrSampleLo data => Sys2Proof.Machine.execWrSampleLo data s
  | .wrSampleHi data => Sys2Proof.Machine.execWrSampleHi data s
  | .rdHashData => Sys2Proof.Machine.execRdHashData s
  | .rdCoefSel => Sys2Proof.Machine.execRdCoefSel s
  | .wrCoefSel data => Sys2Proof.Machine.execWrCoefSel data s
  | .rdCoefLo => Sys2Proof.Machine.execRdCoefLo s
  | .rdCoefHi => Sys2Proof.Machine.execRdCoefHi s
  | .ingest => Sys2Proof.Machine.execIngest s
  | .kdes => Sys2Proof.Machine.execKdes s
  | .wgen => Sys2Proof.Machine.execWgen s
  | .fird => Sys2Proof.Machine.execFird s
  | .wfft idx => Sys2Proof.Machine.execWfft idx s
  | .peak => Sys2Proof.Machine.execPeak s
  | .hemit => Sys2Proof.Machine.execHemit s
  | .hadv => Sys2Proof.Machine.execHadv s
  | .retire => Sys2Proof.Machine.execRetire s
  | .fault errWord => Sys2Proof.Machine.execFault errWord s

end Sys2Proof.Machine
end

