-- ==== Sys2Proof/Machine/Step.lean ====
section
/-! DEFINITION. One step of the machine: the next event of the schedule. -/

namespace Sys2Proof.Machine

/-- A word on a port: decoded and executed, or turned away. -/
def runWord (p : PortWord) (s : State) : Out :=
  match decodeWord p with
  | .ok i => exec i s
  | .error e => turnAway e s

/-- One step: the next scheduled event happens (00_scope.md R13). With nothing scheduled the block waits as it is. -/
def step (s : State) : Host.Outcome State Fault Refusal :=
  match nextEvent s with
  | none => .next s
  | some (.hardReset, rest) => .next (hardReset rest)
  | some (.frame j, rest) => .next (frameTurn j rest)
  | some (.word p, rest) => runWord p rest

/-- The state whose next event is the word `w` of `nbits` bits. -/
def State.withFetchWord (s : State) (nbits w : Nat) : State := schedule (.word (portWord nbits w)) s

end Sys2Proof.Machine
end

