-- ==== Sys2Proof/Machine/Boundary.lean ====
section
/-! DEFINITION. The boundary with the host's software: the pseudo-operations of the host script (30_encoding.md R114), the
words of the monitor ports (R104, R105), and the host-side reference of the Normalizer (47_host_boundary.md R292). The
block's operations use none of these. -/

namespace Sys2Proof.Machine

/-- `PUSH v`: the low half, then the high half, which acts. -/
def pushOps (v : F64) : List Instr := [.wrSampleLo (lo32 v), .wrSampleHi (hi32 v)]

/-- `SETMULT v`. -/
def setMultOps (v : F64) : List Instr := [.wrThreshLo (lo32 v), .wrThreshHi (hi32 v)]

/-- `RDCOEF b, i`: `COEF_SEL` gets `(b << 31) + i`. -/
def rdCoefOps (bank : Bool) (i : Nat) : List Instr :=
  [.wrCoefSel (BitVec.ofNat 32 ((if bank then 2 ^ 31 else 0) + i)), .rdCoefLo, .rdCoefHi]

/-- A host script as a schedule: one event for each transaction. -/
def scriptOf (ops : List Instr) : List Event := ops.map fun i => .word (encode i)

/-- The Format T word of a trace beat (30_encoding.md R104). -/
def traceWord (b : TraceBeat) : BeatWord := b.op ++ b.idx

/-- The Format S or Format P word of a tap beat (30_encoding.md R105). -/
def tapWord (b : TapBeat) : TapWord := b.frame ++ b.bin ++ b.mag

/-- `mag(v)`: the magnitude of a 16-bit sample; that of -32768 is 32768. -/
def sampleMag (v : Int) : Nat := v.natAbs

/-- `maxmag`. -/
def maxMag (raw : List Int) : Nat := raw.foldl (fun m v => max m (sampleMag v)) 0

/-- The Normalizer (R292): one binary64 division for each sample. Where no sample has a magnitude above 0, what it produces
is open (R293), and the model leaves it free (log entry 16). -/
def normalise (raw : List Int) : List F64 :=
  if maxMag raw = 0 then Config.normalisedSilence raw.length
  else raw.map fun v => fdiv (f64OfInt v) (f64OfNat (maxMag raw))

end Sys2Proof.Machine
end

