-- ==== Sys2Proof/Safety.lean ====
section
/-! DEFINITION. The terms of the claims: how a run ends, the batch result a run must equal, the invariants, fair
executions, and correct rounding. -/

namespace Sys2Proof.Safety

open Sys2Proof.Machine

/-- A run has ended normally: every hash is produced and popped (40_host_ops.md R163). -/
abbrev EndedNormally (s : State) : Prop := s.phase = .done ∧ s.hq = []

/-- An abnormal end: the run has no Fingerprint (R163). -/
abbrev EndedAbnormally (s : State) : Prop := s.phase = .fault

/-- The hashes of the run so far: those popped, then those still queued. -/
def produced (s : State) : List Word := s.popped ++ s.hq

/-- The turns of the nine stage agents (00_scope.md R16). -/
def isStageTurn : Instr → Bool
  | .ingest | .kdes | .wgen | .fird | .wfft _ | .peak | .hemit | .hadv | .retire => true
  | _ => false

/-- `stage_ok` as a proposition (10_state.md R61). -/
abbrev StageOk (s : State) : Prop := (s.phase = .run ∨ s.phase = .flush) ∧ s.hq.length < s.impl.outDepth

/-- `xdone` (R61). -/
abbrev XDone (s : State) : Prop := s.fin = true ∧ s.inFifo = []

/-- `lenok(i)` (R61). -/
abbrev LenOk (s : State) (i : Nat) : Prop := (i + 1) * s.srcRate.toNat ≤ s.xin.length * s.targetRate.toNat

/-- `ydone` (R61). -/
abbrev YDone (s : State) : Prop := XDone s ∧ ¬ LenOk s s.ys.length

/-- `NFR(m)` (R61). -/
def framesOf (s : State) : Nat :=
  if s.frameSize.toNat ≤ s.ys.length then (s.ys.length - s.frameSize.toNat) / s.hopSize.toNat + 1 else 0

/-- `sdone` (R61). -/
abbrev SDone (s : State) : Prop := YDone s ∧ ∀ j, j < framesOf s → slot? s.spec j ≠ none

/-- `pdone` (R61). -/
abbrev PDone (s : State) : Prop := SDone s ∧ s.npf = framesOf s

/-- `hdone` (R61). -/
abbrev HDone (s : State) : Prop := PDone s ∧ s.a = s.pk.length

/-- The guard of a stage step, as its rule writes it: 42_fir_decimate.md R191, R195; 41_kernel_design.md R176, R180;
44_fft_magnitude.md R231; 45_peak_detect.md R254; 46_hash_encode.md R272 to R274; 40_host_ops.md R160, with the `stage_ok`
that 00_scope.md R13 gives every one (log entry 17). -/
def Guard : Instr → State → Prop
  | .ingest, s => StageOk s ∧ 0 < s.inFifo.length
  | .kdes, s => StageOk s ∧ s.kvalid = false
  | .wgen, s => StageOk s ∧ s.wvalid = false
  | .fird, s => StageOk s ∧ s.kvalid = true ∧ LenOk s s.ys.length ∧
      (s.ys.length * s.srcRate.toNat / s.targetRate.toNat + (s.filterTaps.toNat - 1) / 2 + 1 ≤ s.xin.length ∨ XDone s)
  | .wfft idx, s => StageOk s ∧ s.wvalid = true ∧
      ∃ j, BitVec.ofNat 32 j = idx ∧ j * s.hopSize.toNat + s.frameSize.toNat ≤ s.ys.length ∧ slot? s.spec j = none
  | .peak, s => StageOk s ∧ slot? s.spec s.npf ≠ none
  | .hemit, s => StageOk s ∧
      ∃ p q, s.pk[s.a]? = some p ∧ s.pk[s.t]? = some q ∧ q.frame - p.frame ≤ s.targetZone.toNat
  | .hadv, s => StageOk s ∧
      ∃ p, s.pk[s.a]? = some p ∧
        ((∃ q, s.pk[s.t]? = some q ∧ s.targetZone.toNat < q.frame - p.frame) ∨
          (s.t = s.pk.length ∧ (PDone s ∨ p.frame + s.targetZone.toNat < s.npf)))
  | .retire, s => StageOk s ∧ s.phase = .flush ∧ HDone s
  | _, _ => False

/-- A host bus transaction, as against a stage agent's turn or a fault beat. -/
def isBusOp (i : Instr) : Bool :=
  match i with
  | .fault _ => false
  | i => !isStageTurn i

/-- The operations that read a register and change nothing, `HASH_DATA` apart (40_host_ops.md R136, R148). -/
def isPlainRead : Instr → Bool
  | .rdId | .rdVersion | .rdStatus | .rdErr | .rdErrInfo | .rdIrqEn | .rdIrqPend | .rdCap0 | .rdCap1 | .rdCap2
  | .rdSrcRate | .rdTargetRate | .rdMinRate | .rdFilterTaps | .rdFrameSize | .rdHopSize | .rdNumBands | .rdTargetZone
  | .rdThreshLo | .rdThreshHi | .rdInCount | .rdDsCount | .rdFrameCount | .rdPeakFrames | .rdPeakCount | .rdHashCount
  | .rdInLevel | .rdHashLevel | .rdCoefSel | .rdCoefLo | .rdCoefHi => true
  | _ => false

/-- The writes of the register window, commands included. -/
def isWriteOp (i : Instr) : Bool := isBusOp i && !isPlainRead i && i != .rdHashData

/-- The configuration registers as one value. -/
def configOf (s : State) : List Word :=
  [s.srcRate, s.targetRate, s.minRate, s.filterTaps, s.frameSize, s.hopSize, s.numBands, s.targetZone, s.threshLo,
    s.threshHi]

/-- The state after a refused transaction (40_host_ops.md R133). -/
def refusedAt (s : State) : State := { s with resp := some ⟨true, 0#32⟩ }

/-- The state after fault entry with the values `e` of `ERR` and `info` of `ERR_INFO` (60_exceptions.md R318). -/
def faulted (e info : Word) (s : State) : State :=
  { s with
    err := e, errInfo := info, hq := [], phase := .fault, trace := s.trace ++ [⟨10#4, e⟩]
    resp := some ⟨false, 0#32⟩ }

/-- The checks of `START` in the order of 60_exceptions.md R316: whether the check fails, and the values of `ERR` and
`ERR_INFO` it reports. -/
def startChecks (s : State) : List (Bool × Word × Word) :=
  [(decide (s.srcRate.toNat < s.minRate.toNat), 0x201#32, s.srcRate),
   (decide (s.filterTaps.toNat % 2 = 0), 0x301#32, s.filterTaps),
   (decide (s.targetRate.toNat = 0), 0x401#32, 0x044#32),
   (decide (s.srcRate.toNat = 0), 0x401#32, 0x040#32),
   (decide (s.filterTaps.toNat < 3 ∨ s.impl.maxTaps < s.filterTaps.toNat), 0x401#32, 0x04C#32),
   (decide (s.frameSize.toNat < 2 ∨ s.impl.maxFrame < s.frameSize.toNat), 0x401#32, 0x050#32),
   (decide (s.hopSize.toNat = 0), 0x401#32, 0x054#32),
   (decide (s.numBands.toNat = 0 ∨ s.impl.maxBands < s.numBands.toNat ∨ s.frameSize.toNat / 2 + 1 < s.numBands.toNat),
     0x401#32, 0x058#32),
   (!isFinite (s.threshHi ++ s.threshLo), 0x401#32, 0x060#32)]

/-- The reserved word addresses of the window (20_memory.md R76). -/
def reservedAddress (a : Nat) : Prop :=
  a % 4 = 0 ∧ (0x02C ≤ a ∧ a ≤ 0x03C ∨ 0x068 ≤ a ∧ a ≤ 0x07C ∨ 0x0A0 ≤ a ∧ a ≤ 0x0BC ∨ 0x0CC ≤ a ∧ a ≤ 0x0DC ∨
    0x0EC ≤ a ∧ a ≤ 0xFFC)

/-- The addresses of the read-only registers (40_host_ops.md R135). -/
def readOnlyAddresses : List Nat :=
  [0x000, 0x004, 0x00C, 0x010, 0x014, 0x01C, 0x020, 0x024, 0x028, 0x080, 0x084, 0x088, 0x08C, 0x090, 0x094, 0x098,
    0x09C, 0x0C8, 0x0E4, 0x0E8]

/-- The addresses of the write-only registers (R135). -/
def writeOnlyAddresses : List Nat := [0x008, 0x0C0, 0x0C4]

/-- A stage step is enabled: some agent's turn changes the state (00_scope.md R13). -/
def StageEnabled (s : State) : Prop := ∃ i, isStageTurn i = true ∧ exec i s ≠ .next s

/-- No stage step is enabled and the run has not ended: the block waits for the host (70_reset_and_hazards.md R364). -/
def Stuck (s : State) : Prop := ¬ StageEnabled s ∧ (s.phase = .run ∨ s.phase = .flush)

/-- The trace beat of a stage step from `s` to `t`, by the table of 30_encoding.md R110: the operation id and the index the
step worked on. -/
def stepBeat (i : Instr) (s t : State) : Option TraceBeat :=
  match i with
  | .ingest => some ⟨1#4, BitVec.ofNat 32 s.xin.length⟩
  | .kdes => some ⟨2#4, s.filterTaps⟩
  | .wgen => some ⟨3#4, s.frameSize⟩
  | .fird => some ⟨4#4, BitVec.ofNat 32 s.ys.length⟩
  | .wfft idx => some ⟨5#4, idx⟩
  | .peak => some ⟨6#4, BitVec.ofNat 32 s.npf⟩
  | .hemit => some ⟨7#4, BitVec.ofNat 32 s.hashCount⟩
  | .hadv => some ⟨8#4, BitVec.ofNat 32 t.a⟩
  | .retire => some ⟨9#4, BitVec.ofNat 32 s.hashCount⟩
  | _ => none

/-! ### Fair executions (00_scope.md R13, 70_reset_and_hazards.md R364) -/

/-- An execution: the event `ev n` happens in the state `st n` and leads to the next. The schedule is given one event at a
time, so that an execution may go on for ever. -/
def Executes (st : Nat → State) (ev : Nat → Event) : Prop :=
  (st 0).script = [] ∧ ∀ n, step (schedule (ev n) (st n)) = .next (st (n + 1))

/-- The event gives operation `i` its turn: a word that decodes to it, or, for WFFT, the ready frame its index names. -/
def TakesTurn (i : Instr) (e : Event) (s : State) : Prop :=
  (∃ p, e = .word p ∧ decodeWord p = .ok i) ∨
  ∃ j, e = .frame j ∧ i = .wfft (BitVec.ofNat 32 j) ∧ frameReady s j = true

/-- Weak fairness (R13): a stage operation that stays enabled is eventually taken. -/
def WeaklyFair (st : Nat → State) (ev : Nat → Event) : Prop :=
  ∀ (i : Instr) (n : Nat), isStageTurn i = true → (∀ m, n ≤ m → Guard i (st m)) →
    ∃ m, n ≤ m ∧ TakesTurn i (ev m) (st m)

/-- The event is a stage step: an enabled stage operation takes its turn. -/
def StageStep (e : Event) (s : State) : Prop :=
  ∃ i, isStageTurn i = true ∧ Guard i s ∧ TakesTurn i e s

/-- From `n` on the host pops a word, sooner or later, whenever one is available (R364 (c), (d)). -/
def HostPops (st : Nat → State) (ev : Nat → Event) (n : Nat) : Prop :=
  ∀ m, n ≤ m → hashAvail (st m) = true → ∃ k, m ≤ k ∧ TakesTurn .rdHashData (ev k) (st k)

/-- The event abandons a run: `CLEAR`, `RESET` or hard reset. -/
def Abandons (e : Event) : Prop :=
  e = .hardReset ∨ ∃ p, e = .word p ∧ (decodeWord p = .ok .cmdClear ∨ decodeWord p = .ok .cmdReset)

/-! ### The batch result -/

/-- The hashes of one anchor over the later peaks, stopping at the first beyond the zone (46_hash_encode.md R270). -/
def anchorHashes (Z : Nat) (p : Peak) : List Peak → List Word
  | [] => []
  | q :: rest => if frameDelta p q ≤ Z then pack p.bin q.bin (frameDelta p q) :: anchorHashes Z p rest else []

/-- The canonical sequence of a complete peak list: anchor-major, target-minor (R270). -/
def canonicalHashes (Z : Nat) : List Peak → List Word
  | [] => []
  | p :: rest => anchorHashes Z p rest ++ canonicalHashes Z rest

/-- The unbounded scan of R276, which skips a pair out of the zone and goes on. -/
def skipScanHashes (Z : Nat) : List Peak → List Word
  | [] => []
  | p :: rest =>
    (rest.filter fun q => frameDelta p q ≤ Z).map (fun q => pack p.bin q.bin (frameDelta p q)) ++ skipScanHashes Z rest

/-- The whole decimated signal of an input `x` (42_fir_decimate.md R190, R196). -/
def batchDecimated (N : Numerics) (s : State) (x : List F64) : List F64 :=
  (List.range (newLength s.Fs s.Ft x.length)).map fun i =>
    conv (designKernel N s.Fs s.Ft s.NT).1 x s.NT (centre s.Fs s.Ft i)

/-- The magnitudes of frame `j` of a decimated signal (44_fft_magnitude.md R225, R231). -/
def batchMagnitudes (N : Numerics) (s : State) (ys : List F64) (j : Nat) : List F64 :=
  N.dftMag s.F (windowedFrame ys (makeWindow N s.F) s.F s.H j)

/-- Every peak of a decimated signal, frame by frame (45_peak_detect.md R245, R254). -/
def batchPeaks (N : Numerics) (s : State) (ys : List F64) : List Peak :=
  (List.range (frameCount s.F s.H ys.length)).flatMap fun j =>
    framePeaks s.B s.NB s.MULT j (batchMagnitudes N s ys j)

/-- The Fingerprint of an input under the configuration of `s`: the source's batch pipeline, stage after stage. -/
def batchFingerprint (N : Numerics) (s : State) (x : List F64) : List Word :=
  canonicalHashes s.Z (batchPeaks N s (batchDecimated N s x))

/-! ### Invariants -/

/-- The frame indices of the filled slots rise strictly: equal spectrograms are equal lists. -/
abbrev SlotsRising (spec : List (Nat × List F64)) : Prop := spec.Pairwise fun x y => x.1 < y.1

/-- A run is in progress or has ended normally. -/
abbrev Active (s : State) : Prop := s.phase = .run ∨ s.phase = .flush ∨ s.phase = .done

/-- What holds of the registers and queues in every reachable state (10_state.md R22, R33 to R35, R47 to R59). -/
structure ArchInv (s : State) : Prop where
  slotsRising : SlotsRising s.spec
  irqEnReserved : s.irqEn.extractLsb' 4 28 = 0#28
  coefSelReserved : s.coefSel.extractLsb' 16 15 = 0#15
  errPhase : s.err ≠ 0#32 ↔ s.phase = .fault
  errValue : s.err = 0#32 ∨ s.err ∈ faultWords
  errInfoPhase : s.phase ≠ .fault → s.errInfo = 0#32
  inFifoBound : s.inFifo.length ≤ s.impl.inDepth
  hqBound : s.hq.length ≤ s.impl.outDepth
  acceptedBound : s.accepted ≤ maxSamples
  samplesInRange : ∀ v ∈ s.xin ++ s.inFifo, outOfRange v = false
  idleClear : s.phase = .idle → clearRun s = s
  finPhase : s.fin = true ↔ s.phase = .flush ∨ s.phase = .done
  inputSeen : s.fin = true → 0 < s.accepted
  configLegal : Active s → cfgOk s
  ksumFlag : s.ksumZero = true → s.kvalid = true
  kernLength : s.kvalid = true → s.kern.length = s.NT
  winLength : s.wvalid = true → s.win.length = s.F
  faultFlushed : s.phase = .fault → s.hq = []
  hashesCounted : s.phase ≠ .fault → s.hashCount = (produced s).length
  doneComplete : s.phase = .done → hdone s = true
  /-- When no anchor is left the output FIFO has room: RETIRE never meets a full one (log entry 17). -/
  roomWhenReleased : s.a = s.P → s.hq = [] ∨ s.hq.length < s.impl.outDepth

/-- The hashes pushed when the anchors below `a` are released and the targets of anchor `a` below `t` are taken. -/
def hashesBelow (Z : Nat) (pk : List Peak) (a t : Nat) : List Word :=
  ((List.range a).flatMap fun i =>
    match pk[i]? with
    | some p => anchorHashes Z p (pk.drop (i + 1))
    | none => []) ++
  match pk[a]? with
  | some p => ((pk.take t).drop (a + 1)).map fun q => pack p.bin q.bin (frameDelta p q)
  | none => []

/-- What the stages have computed so far is what the batch pipeline computes (20_memory.md R81, 42_fir_decimate.md R196,
44_fft_magnitude.md R233, 46_hash_encode.md R275). -/
structure StreamInv (s : State) : Prop where
  /-- The kernel is the one the configuration designs (41_kernel_design.md R176). -/
  kernel : s.kvalid = true → (s.kern, s.ksumZero) = designKernel (numericsOf s.impl.numerics) s.Fs s.Ft s.NT
  /-- The window is the one of the frame length (R180). -/
  window : s.wvalid = true → s.win = makeWindow (numericsOf s.impl.numerics) s.F
  /-- Every decimated sample is final and is the convolution at its centre (R195). -/
  outputs : ∀ i, i < s.m → s.kvalid = true ∧ lenOk s.Fs s.Ft s.n i = true ∧
    (centre s.Fs s.Ft i + s.M + 1 ≤ s.n ∨ xdone s = true) ∧
    s.ys[i]? = some (conv s.kern s.xin s.NT (centre s.Fs s.Ft i))
  /-- Every filled slot is that of a frame that exists, and holds its magnitudes (R231). -/
  slots : ∀ j v, slot? s.spec j = some v →
    s.wvalid = true ∧ j * s.H + s.F ≤ s.m ∧ v = frameMagnitudes (numericsOf s.impl.numerics) s j
  /-- The peak list is that of the first `npf` frames, in order (R254). -/
  peaks : s.pk = (List.range s.npf).flatMap fun j => framePeaks s.B s.NB s.MULT j ((slot? s.spec j).getD [])
  searched : ∀ j, j < s.npf → (slot? s.spec j).isSome = true
  /-- The cursors (R58, R275). -/
  anchorBound : s.a ≤ s.P
  targetBound : s.a < s.P → s.a + 1 ≤ s.t ∧ s.t ≤ s.P
  targetFresh : s.a = s.P → s.t = s.a + 1
  /-- The targets already taken are in the zone of the anchor. -/
  taken : ∀ p q k, s.pk[s.a]? = some p → s.a < k → k < s.t → s.pk[k]? = some q → frameDelta p q ≤ s.Z
  /-- No later peak is a target of a released anchor (R274). -/
  released : ∀ i p, i < s.a → s.pk[i]? = some p →
    (∃ q ∈ s.pk.drop (i + 1), s.Z < frameDelta p q) ∨ p.frame + s.Z < s.npf ∨ pdone s = true
  /-- The hashes pushed are those of the cursors' positions (R275). -/
  hashes : s.phase ≠ .fault → produced s = hashesBelow s.Z s.pk s.a s.t

/-- How far a run has come: each stage step adds one (70_reset_and_hazards.md R364 (b)). -/
def progress (s : State) : Nat :=
  s.n + s.kvalid.toNat + s.wvalid.toNat + s.m + s.spec.length + s.npf + s.hashCount + s.a +
    (if s.phase = .done then 1 else 0)

/-! ### Correct rounding -/

/-- Half a unit in the last place beyond the largest finite value: from here on rounding gives infinity. -/
def overflowBound : ℚ := 2 ^ 1024 - 2 ^ 970

/-- `r` is `x` rounded to nearest, ties to even: the nearest finite pattern, with an even significand when another is as
near; infinity of the sign of `x` beyond the overflow bound (00_scope.md R10). -/
def RoundsTo (x : ℚ) (r : F64) : Prop :=
  if |x| < overflowBound then
    isFinite r = true ∧ ∀ c, isFinite c = true →
      |toRat r - x| ≤ |toRat c - x| ∧ (toRat c ≠ toRat r → |toRat c - x| = |toRat r - x| → r.getLsbD 0 = false)
  else r = withSign (x < 0) infBits

end Sys2Proof.Safety
end

