-- ==== Sys2Proof/Certificates/Slice0/Obligations.lean ====
section
/-! DEFINITION. The statements for the provers. A statement that names a log entry rests on that choice of the model. -/

section Statements

open Sys2Proof Sys2Proof.Machine Sys2Proof.Safety

/-! ### Encodings -/

/-- The decoder reads every instruction back from the word the encoder writes (30_encoding.md R101, R104, R108, R110). -/
def Obligations.DecodeInvertsEncode : Prop :=
  ∀ i : Instr, decodeWord (encode i) = .ok i

/-- A word that decodes is the canonical word of its instruction, but for the fields a decoder does not look at: the data
of a read (30_encoding.md R101), and the index of a beat that is no operand. That the index is an operand of WFFT (operation
id 5) and FAULT (10) and of no other beat is the model's choice (log entry 5). -/
def Obligations.DecodedWordsReencode : Prop :=
  (∀ (w : BusWord) (i : Instr), decodeWord (.bus w) = .ok i →
    encode i = .bus (if w.getLsbD 47 then w else w &&& 0xFFFF00000000#48)) ∧
  ∀ (w : BeatWord) (i : Instr), decodeWord (.beat w) = .ok i →
    encode i = .beat (if w.extractLsb' 32 4 = 5#4 ∨ w.extractLsb' 32 4 = 10#4 then w else w &&& 0xF00000000#36)

/-- The five command words of 30_encoding.md R103, and words of Formats B and T written out from the tables of R108 and R110,
decode to their instructions. That a beat is read as a turn, with its index kept for WFFT and FAULT, is the model's choice
(log entry 5). -/
def Obligations.CommandAndSampleWordsDecode : Prop :=
  decodeWord (.bus 0x800800000000#48) = .ok .cmdNop ∧ decodeWord (.bus 0x800800000001#48) = .ok .cmdStart ∧
  decodeWord (.bus 0x800800000002#48) = .ok .cmdFinish ∧ decodeWord (.bus 0x800800000003#48) = .ok .cmdClear ∧
  decodeWord (.bus 0x800800000004#48) = .ok .cmdReset ∧
  decodeWord (.bus 0x000C00000000#48) = .ok .rdStatus ∧
  decodeWord (.bus 0x80400000AC44#48) = .ok (.wrSrcRate 44100#32) ∧
  decodeWord (.bus 0x80C43FE00000#48) = .ok (.wrSampleHi 0x3FE00000#32) ∧
  decodeWord (.bus 0x00C800000000#48) = .ok .rdHashData ∧
  decodeWord (.bus 0x80E080000003#48) = .ok (.wrCoefSel 0x80000003#32) ∧
  decodeWord (.beat 0x100000000#36) = .ok .ingest ∧ decodeWord (.beat 0x500000007#36) = .ok (.wfft 7#32) ∧
  decodeWord (.beat 0xA00000301#36) = .ok (.fault 0x301#32)

/-- The hash word: each field saturates, and a word whose fields are in range is recovered (46_hash_encode.md R267,
R269). -/
def Obligations.HashWordFieldsSaturateAndInvert : Prop :=
  (∀ b1 b2 d : Nat,
    (pack b1 b2 d).toNat = min b1 511 * 2 ^ 23 + min b2 511 * 2 ^ 14 + min d 16383 ∧
    unpack (pack b1 b2 d) = (min b1 511, min b2 511, min d 16383)) ∧
  ∀ h : Word, pack (unpack h).1 (unpack h).2.1 (unpack h).2.2 = h

/-! ### Steps -/

/-- When the next event is a word that decodes, a step takes the event and is that instruction's `exec`. The schedule as a
field of the state is the model's choice (log entry 9), and so is a beat as a turn (log entry 5). -/
def Obligations.StepRunsTheDecodedInstruction : Prop :=
  ∀ (s : State) (p : PortWord) (rest : List Event) (i : Instr),
    s.script = .word p :: rest → decodeWord p = .ok i → step s = exec i { s with script := rest }

/-- The steps that run no instruction: an empty schedule, the hard reset (70_reset_and_hazards.md R350), a word that
encodes no transaction (30_encoding.md R101) and a beat that is never emitted (R110). The model's choices in it: waiting on
an empty schedule (log entry 9), what a hard reset keeps (log entry 7), and that the two last are refused by name (log entry
13). -/
def Obligations.StepsThatRunNoInstruction : Prop :=
  (∀ s : State, s.script = [] → step s = .next s) ∧
  (∀ (s : State) (rest : List Event), s.script = .hardReset :: rest →
    step s = .next { State.reset with
      impl := s.impl, trace := s.trace, stap := s.stap, ptap := s.ptap, script := rest }) ∧
  (∀ (s : State) (w : BusWord) (rest : List Event), s.script = .word (.bus w) :: rest →
    w.extractLsb' 44 3 ≠ 0#3 → step s = .refused .notATransaction) ∧
  ∀ (s : State) (w : BeatWord) (rest : List Event), s.script = .word (.beat w) :: rest →
    ((w.extractLsb' 32 4).toNat = 0 ∨ 11 ≤ (w.extractLsb' 32 4).toNat) → step s = .refused .noSuchStage

/-- A misaligned transaction, one at a reserved address, a write to a read-only register, a read of a write-only register
and a reserved command are refused (20_memory.md R73, 40_host_ops.md R134, R135, R149). -/
def Obligations.IllegalTransactionsAreRefused : Prop :=
  ∀ (s : State) (w : BusWord) (rest : List Event), s.script = .word (.bus w) :: rest → w.extractLsb' 44 3 = 0#3 →
    ((w.extractLsb' 32 12).toNat % 4 ≠ 0 ∨ reservedAddress (w.extractLsb' 32 12).toNat ∨
     (w.getLsbD 47 = true ∧ (w.extractLsb' 32 12).toNat ∈ readOnlyAddresses) ∨
     (w.getLsbD 47 = false ∧ (w.extractLsb' 32 12).toNat ∈ writeOnlyAddresses) ∨
     (w.getLsbD 47 = true ∧ w.extractLsb' 32 12 = 0x008#12 ∧ 5 ≤ (w.extractLsb' 0 32).toNat)) →
    step s = .next (refusedAt { s with script := rest })

/-- The transactions of `PUSH` (30_encoding.md R114) queue one sample, whatever the latch held. -/
def Obligations.PushPairQueuesTheSample : Prop :=
  ∀ (s : State) (v : F64) (rest : List Event), s.script = scriptOf (pushOps v) ++ rest → s.phase = .run →
    s.inFifo.length < s.impl.inDepth → s.xin.length + s.inFifo.length < 2 ^ 32 - 1 → isFinite v = true →
    |toRat v| ≤ 1 →
    ∃ t, step s = .next t ∧
      step t = .next
        { s with
          script := rest, slo := v.extractLsb' 0 32, inFifo := s.inFifo ++ [v], resp := some ⟨false, 0#32⟩ }

/-! ### Register reads -/

/-- `ID` and `VERSION` read their constants (10_state.md R31), and the capability registers show the implementation
parameters, field by field (R36). -/
def Obligations.ConstantRegisterReads : Prop :=
  (∀ s : State, exec .rdId s = .next { s with resp := some ⟨false, 0x4E414650#32⟩ } ∧
    exec .rdVersion s = .next { s with resp := some ⟨false, 0x00010000#32⟩ }) ∧
  ∀ s : State, Config.legal s.impl →
    ∃ c0 c1 c2 : Word,
      exec .rdCap0 s = .next { s with resp := some ⟨false, c0⟩ } ∧
      exec .rdCap1 s = .next { s with resp := some ⟨false, c1⟩ } ∧
      exec .rdCap2 s = .next { s with resp := some ⟨false, c2⟩ } ∧
      (c0.extractLsb' 0 16).toNat = s.impl.maxTaps ∧ (c0.extractLsb' 16 16).toNat = s.impl.maxFrame ∧
      (c1.extractLsb' 0 8).toNat = s.impl.maxBands ∧ (c1.extractLsb' 8 8).toNat = s.impl.fftLanes ∧
      c1.extractLsb' 16 16 = 0#16 ∧
      (c2.extractLsb' 0 16).toNat = s.impl.inDepth ∧ (c2.extractLsb' 16 16).toNat = s.impl.outDepth

/-- A stored register reads as it is stored, and a counter as the low 32 bits of its quantity, in every phase; the read
changes nothing (40_host_ops.md R136, 10_state.md R47). -/
def Obligations.StoredRegisterAndCounterReads : Prop :=
  ∀ s : State,
    exec .rdErr s = .next { s with resp := some ⟨false, s.err⟩ } ∧
    exec .rdErrInfo s = .next { s with resp := some ⟨false, s.errInfo⟩ } ∧
    exec .rdIrqEn s = .next { s with resp := some ⟨false, s.irqEn⟩ } ∧
    exec .rdCoefSel s = .next { s with resp := some ⟨false, s.coefSel⟩ } ∧
    exec .rdSrcRate s = .next { s with resp := some ⟨false, s.srcRate⟩ } ∧
    exec .rdTargetRate s = .next { s with resp := some ⟨false, s.targetRate⟩ } ∧
    exec .rdMinRate s = .next { s with resp := some ⟨false, s.minRate⟩ } ∧
    exec .rdFilterTaps s = .next { s with resp := some ⟨false, s.filterTaps⟩ } ∧
    exec .rdFrameSize s = .next { s with resp := some ⟨false, s.frameSize⟩ } ∧
    exec .rdHopSize s = .next { s with resp := some ⟨false, s.hopSize⟩ } ∧
    exec .rdNumBands s = .next { s with resp := some ⟨false, s.numBands⟩ } ∧
    exec .rdTargetZone s = .next { s with resp := some ⟨false, s.targetZone⟩ } ∧
    exec .rdThreshLo s = .next { s with resp := some ⟨false, s.threshLo⟩ } ∧
    exec .rdThreshHi s = .next { s with resp := some ⟨false, s.threshHi⟩ } ∧
    exec .rdInCount s = .next { s with resp := some ⟨false, BitVec.ofNat 32 (s.xin.length + s.inFifo.length)⟩ } ∧
    exec .rdDsCount s = .next { s with resp := some ⟨false, BitVec.ofNat 32 s.ys.length⟩ } ∧
    exec .rdFrameCount s = .next { s with resp := some ⟨false, BitVec.ofNat 32 s.spec.length⟩ } ∧
    exec .rdPeakFrames s = .next { s with resp := some ⟨false, BitVec.ofNat 32 s.npf⟩ } ∧
    exec .rdPeakCount s = .next { s with resp := some ⟨false, BitVec.ofNat 32 s.pk.length⟩ } ∧
    exec .rdHashCount s = .next { s with resp := some ⟨false, BitVec.ofNat 32 s.hashCount⟩ } ∧
    exec .rdInLevel s = .next { s with resp := some ⟨false, BitVec.ofNat 32 s.inFifo.length⟩ } ∧
    exec .rdHashLevel s = .next { s with resp := some ⟨false, BitVec.ofNat 32 s.hq.length⟩ }

/-- `STATUS`, bit by bit (10_state.md R33). -/
def Obligations.StatusReadsEveryBit : Prop :=
  ∀ s : State, ∃ w : Word, exec .rdStatus s = .next { s with resp := some ⟨false, w⟩ } ∧
    (w.extractLsb' 0 3).toNat =
      (match s.phase with | .idle => 0 | .run => 1 | .flush => 2 | .done => 3 | .fault => 4) ∧
    w.getLsbD 3 = false ∧
    (w.getLsbD 4 = true ↔ s.phase = .run ∧ s.inFifo.length < s.impl.inDepth ∧
      s.xin.length + s.inFifo.length < 2 ^ 32 - 1) ∧
    (w.getLsbD 5 = true ↔ (s.phase = .run ∨ s.phase = .flush ∨ s.phase = .done) ∧ 0 < s.hq.length) ∧
    w.getLsbD 6 = s.kvalid ∧ w.getLsbD 7 = s.wvalid ∧ w.getLsbD 8 = s.ksumZero ∧ w.getLsbD 9 = s.fin ∧
    (w.getLsbD 10 = true ↔ XDone s) ∧ (w.getLsbD 11 = true ↔ YDone s) ∧ (w.getLsbD 12 = true ↔ SDone s) ∧
    (w.getLsbD 13 = true ↔ PDone s) ∧ (w.getLsbD 14 = true ↔ HDone s) ∧ w.extractLsb' 15 17 = 0#17

/-- In `IDLE` every bit of `STATUS` and of `IRQ_PEND` reads 0, and so does every counter (10_state.md R33, R35, R47). -/
def Obligations.IdleReadsZero : Prop :=
  ∀ (s : State) (i : Instr), ArchInv s → s.phase = .idle →
    i ∈ [.rdStatus, .rdErr, .rdErrInfo, .rdIrqPend, .rdInCount, .rdDsCount, .rdFrameCount, .rdPeakFrames, .rdPeakCount,
      .rdHashCount, .rdInLevel, .rdHashLevel] →
    exec i s = .next { s with resp := some ⟨false, 0#32⟩ }

/-- `IRQ_PEND` shows the four live levels, and the interrupt line is their masked OR (10_state.md R35,
60_exceptions.md R322). -/
def Obligations.InterruptLevelsAndLine : Prop :=
  ∀ s : State, ∃ w : Word, exec .rdIrqPend s = .next { s with resp := some ⟨false, w⟩ } ∧
    (w.getLsbD 0 = true ↔ s.phase = .done) ∧ (w.getLsbD 1 = true ↔ s.phase = .fault) ∧
    (w.getLsbD 2 = true ↔ (s.phase = .run ∨ s.phase = .flush ∨ s.phase = .done) ∧ 0 < s.hq.length) ∧
    (w.getLsbD 3 = true ↔ s.phase = .run ∧ s.inFifo.length < s.impl.inDepth ∧
      s.xin.length + s.inFifo.length < 2 ^ 32 - 1) ∧
    w.extractLsb' 4 28 = 0#28 ∧
    (irqLine s = true ↔ ∃ k, k < 4 ∧ s.irqEn.getLsbD k = true ∧ w.getLsbD k = true)

/-! ### Register writes -/

/-- A configuration write stores any value in `IDLE`, and is refused in every other phase (40_host_ops.md R137). -/
def Obligations.ConfigurationWrites : Prop :=
  (∀ (s : State) (d : Word), s.phase = .idle →
    exec (.wrSrcRate d) s = .next { s with srcRate := d, resp := some ⟨false, 0#32⟩ } ∧
    exec (.wrTargetRate d) s = .next { s with targetRate := d, resp := some ⟨false, 0#32⟩ } ∧
    exec (.wrMinRate d) s = .next { s with minRate := d, resp := some ⟨false, 0#32⟩ } ∧
    exec (.wrFilterTaps d) s = .next { s with filterTaps := d, resp := some ⟨false, 0#32⟩ } ∧
    exec (.wrFrameSize d) s = .next { s with frameSize := d, resp := some ⟨false, 0#32⟩ } ∧
    exec (.wrHopSize d) s = .next { s with hopSize := d, resp := some ⟨false, 0#32⟩ } ∧
    exec (.wrNumBands d) s = .next { s with numBands := d, resp := some ⟨false, 0#32⟩ } ∧
    exec (.wrTargetZone d) s = .next { s with targetZone := d, resp := some ⟨false, 0#32⟩ } ∧
    exec (.wrThreshLo d) s = .next { s with threshLo := d, resp := some ⟨false, 0#32⟩ } ∧
    exec (.wrThreshHi d) s = .next { s with threshHi := d, resp := some ⟨false, 0#32⟩ }) ∧
  ∀ (s : State) (d : Word) (i : Instr), s.phase ≠ .idle →
    i ∈ [.wrSrcRate d, .wrTargetRate d, .wrMinRate d, .wrFilterTaps d, .wrFrameSize d, .wrHopSize d, .wrNumBands d,
      .wrTargetZone d, .wrThreshLo d, .wrThreshHi d] →
    exec i s = .next (refusedAt s)

/-- `WR.IRQ_EN` keeps the low four bits of its data, `WR.COEF_SEL` keeps bit 31 and bits 15:0; the other bits are dropped
and the write completes, in every phase (40_host_ops.md R138, R139). -/
def Obligations.InterruptEnableAndSelectWrites : Prop :=
  ∀ (s : State) (d : Word), ∃ v w : Word,
    exec (.wrIrqEn d) s = .next { s with irqEn := v, resp := some ⟨false, 0#32⟩ } ∧
    exec (.wrCoefSel d) s = .next { s with coefSel := w, resp := some ⟨false, 0#32⟩ } ∧
    (∀ k, v.getLsbD k = (decide (k < 4) && d.getLsbD k)) ∧
    ∀ k, w.getLsbD k = (decide (k < 16 ∨ k = 31) && d.getLsbD k)

/-! ### Commands -/

/-- `CMD.START` in `IDLE` with a legal configuration clears the run state and starts a run; outside `IDLE` it is refused
(40_host_ops.md R141, 10_state.md R46, R63). -/
def Obligations.StartOnALegalConfiguration : Prop :=
  (∀ s : State, s.phase = .idle → s.minRate.toNat ≤ s.srcRate.toNat → s.filterTaps.toNat % 2 = 1 →
    1 ≤ s.targetRate.toNat → 1 ≤ s.srcRate.toNat → 3 ≤ s.filterTaps.toNat → s.filterTaps.toNat ≤ s.impl.maxTaps →
    2 ≤ s.frameSize.toNat → s.frameSize.toNat ≤ s.impl.maxFrame → 1 ≤ s.hopSize.toNat → 1 ≤ s.numBands.toNat →
    s.numBands.toNat ≤ min s.impl.maxBands (s.frameSize.toNat / 2 + 1) →
    isFinite (s.threshHi ++ s.threshLo) = true →
    exec .cmdStart s = .next
      { s with
        slo := 0#32, inFifo := [], fin := false, xin := [], kern := [], kvalid := false, ksumZero := false, win := []
        wvalid := false, ys := [], spec := [], pk := [], npf := 0, a := 0, t := 1, hq := [], hashCount := 0
        popped := [], phase := .run, resp := some ⟨false, 0#32⟩ }) ∧
  ∀ s : State, s.phase ≠ .idle → exec .cmdStart s = .next (refusedAt s)

/-- `CMD.START` in `IDLE` reports the first check of R316 that fails, with its cause and information word; when none fails
the configuration is legal and the run starts (60_exceptions.md R316, R318). -/
def Obligations.StartReportsTheFirstFailingCheck : Prop :=
  (∀ (s : State) (e info : Word), s.phase = .idle → (startChecks s).find? (fun c => c.1) = some (true, e, info) →
    exec .cmdStart s = .next (faulted e info (clearRun s))) ∧
  ∀ s : State, s.phase = .idle → (startChecks s).find? (fun c => c.1) = none →
    cfgOk s ∧ exec .cmdStart s = .next { clearRun s with phase := .run, resp := some ⟨false, 0#32⟩ }

/-- `CMD.FINISH`: end of input in `RUN`, the fault `EMPTY_INPUT` when no sample was accepted, refused in every other phase
(40_host_ops.md R142). -/
def Obligations.FinishEndsTheInput : Prop :=
  ∀ s : State,
    (s.phase = .run → 0 < s.xin.length + s.inFifo.length →
      exec .cmdFinish s = .next { s with fin := true, phase := .flush, resp := some ⟨false, 0#32⟩ }) ∧
    (s.phase = .run → s.xin.length + s.inFifo.length = 0 →
      exec .cmdFinish s = .next (faulted 0x101#32 0#32 s)) ∧
    (s.phase ≠ .run → exec .cmdFinish s = .next (refusedAt s))

/-- `CMD.NOP` completes and changes nothing (40_host_ops.md R140). `CMD.CLEAR` clears the run state and the error record and
returns to `IDLE`, keeping the configuration, `IRQ_EN` and `COEF_SEL`; in `IDLE` it changes nothing visible (R143,
10_state.md R63). -/
def Obligations.NopAndClearCommands : Prop :=
  (∀ s : State, exec .cmdNop s = .next { s with resp := some ⟨false, 0#32⟩ }) ∧
  (∀ s : State, exec .cmdClear s = .next
    { s with
      slo := 0#32, inFifo := [], fin := false, xin := [], kern := [], kvalid := false, ksumZero := false, win := []
      wvalid := false, ys := [], spec := [], pk := [], npf := 0, a := 0, t := 1, hq := [], hashCount := 0
      popped := [], err := 0#32, errInfo := 0#32, phase := .idle, resp := some ⟨false, 0#32⟩ }) ∧
  ∀ s : State, ArchInv s → s.phase = .idle → exec .cmdClear s = .next { s with resp := some ⟨false, 0#32⟩ }

/-- `CMD.RESET`, in every phase, and hard reset give the same state, but for the response: every register the spec gives a
reset value holds it, and the run state is clear (40_host_ops.md R144, 70_reset_and_hazards.md R350, 10_state.md R62). The
implementation, what the monitor ports have shown and the schedule stay (log entry 7). -/
def Obligations.ResetGivesTheResetState : Prop :=
  ∀ s : State, ∃ r : State,
    exec .cmdReset s = .next { r with resp := some ⟨false, 0#32⟩ } ∧
    (∀ rest, s.script = .hardReset :: rest → step s = .next { r with resp := none, script := rest }) ∧
    r.phase = .idle ∧ r.err = 0#32 ∧ r.errInfo = 0#32 ∧ r.irqEn = 0#32 ∧ r.coefSel = 0#32 ∧
    r.srcRate = 0#32 ∧ r.targetRate = 11025#32 ∧ r.minRate = 11025#32 ∧ r.filterTaps = 101#32 ∧
    r.frameSize = 1024#32 ∧ r.hopSize = 512#32 ∧ r.numBands = 6#32 ∧ r.targetZone = 20#32 ∧
    r.threshHi ++ r.threshLo = 0x3FB999999999999A#64 ∧
    r.slo = 0#32 ∧ r.inFifo = [] ∧ r.fin = false ∧ r.xin = [] ∧ r.kvalid = false ∧ r.ksumZero = false ∧
    r.wvalid = false ∧ r.ys = [] ∧ r.spec = [] ∧ r.pk = [] ∧ r.npf = 0 ∧ r.a = 0 ∧ r.t = 1 ∧ r.hq = [] ∧
    r.hashCount = 0 ∧ r.popped = [] ∧
    r.impl = s.impl ∧ r.trace = s.trace ∧ r.stap = s.stap ∧ r.ptap = s.ptap ∧ r.script = s.script

/-! ### Data ports -/

/-- `WR.SAMPLE_LO` latches its data in `RUN` and is refused in every other phase (40_host_ops.md R145). -/
def Obligations.SampleLowLatches : Prop :=
  ∀ (s : State) (d : Word),
    (s.phase = .run → exec (.wrSampleLo d) s = .next { s with slo := d, resp := some ⟨false, 0#32⟩ }) ∧
    (s.phase ≠ .run → exec (.wrSampleLo d) s = .next (refusedAt s))

/-- `WR.SAMPLE_HI`: a finite sample of magnitude at most 1 is queued; any other faults with its index; a push outside `RUN`,
with the FIFO full or at the run length limit is refused before its value is looked at (40_host_ops.md R146). -/
def Obligations.SampleHighPushes : Prop :=
  ∀ (s : State) (d : Word),
    (s.phase = .run → s.inFifo.length < s.impl.inDepth → s.xin.length + s.inFifo.length < 2 ^ 32 - 1 →
      isFinite (d ++ s.slo) = true → |toRat (d ++ s.slo)| ≤ 1 →
      exec (.wrSampleHi d) s = .next
        { s with inFifo := s.inFifo ++ [d ++ s.slo], resp := some ⟨false, 0#32⟩ }) ∧
    (s.phase = .run → s.inFifo.length < s.impl.inDepth → s.xin.length + s.inFifo.length < 2 ^ 32 - 1 →
      (isFinite (d ++ s.slo) = false ∨ 1 < |toRat (d ++ s.slo)|) →
      exec (.wrSampleHi d) s = .next (faulted 0x501#32 (BitVec.ofNat 32 (s.xin.length + s.inFifo.length)) s)) ∧
    ((s.phase ≠ .run ∨ s.impl.inDepth ≤ s.inFifo.length ∨ 2 ^ 32 - 1 ≤ s.xin.length + s.inFifo.length) →
      exec (.wrSampleHi d) s = .next (refusedAt s))

/-- `RD.HASH_DATA` returns and removes the head of the output FIFO in `RUN`, `FLUSH` and `DONE`; otherwise, and when the
FIFO is empty, it is refused (40_host_ops.md R147). -/
def Obligations.HashDataPops : Prop :=
  (∀ (s : State) (h : Word) (rest : List Word), (s.phase = .run ∨ s.phase = .flush ∨ s.phase = .done) →
    s.hq = h :: rest →
    exec .rdHashData s = .next { s with hq := rest, popped := s.popped ++ [h], resp := some ⟨false, h⟩ }) ∧
  ∀ s : State, (s.phase = .idle ∨ s.phase = .fault ∨ s.hq = []) → exec .rdHashData s = .next (refusedAt s)

/-- `RD.COEF_LO` and `RD.COEF_HI` read the halves of the selected coefficient, or are refused (40_host_ops.md R148). -/
def Obligations.CoefficientReads : Prop :=
  (∀ (s : State) (c : F64), s.phase ≠ .idle →
    ((s.coefSel.getLsbD 31 = false ∧ s.kvalid = true ∧ (s.coefSel.extractLsb' 0 16).toNat < s.filterTaps.toNat ∧
        s.kern[(s.coefSel.extractLsb' 0 16).toNat]? = some c) ∨
     (s.coefSel.getLsbD 31 = true ∧ s.wvalid = true ∧ (s.coefSel.extractLsb' 0 16).toNat < s.frameSize.toNat ∧
        s.win[(s.coefSel.extractLsb' 0 16).toNat]? = some c)) →
    exec .rdCoefLo s = .next { s with resp := some ⟨false, c.extractLsb' 0 32⟩ } ∧
    exec .rdCoefHi s = .next { s with resp := some ⟨false, c.extractLsb' 32 32⟩ }) ∧
  ∀ s : State,
    (s.phase = .idle ∨
     (s.coefSel.getLsbD 31 = false ∧
        (s.kvalid = false ∨ s.filterTaps.toNat ≤ (s.coefSel.extractLsb' 0 16).toNat)) ∨
     (s.coefSel.getLsbD 31 = true ∧
        (s.wvalid = false ∨ s.frameSize.toNat ≤ (s.coefSel.extractLsb' 0 16).toNat))) →
    exec .rdCoefLo s = .next (refusedAt s) ∧ exec .rdCoefHi s = .next (refusedAt s)

/-! ### The stages -/

/-- The turn of a stage agent changes the state exactly when its guard holds; otherwise it changes nothing (00_scope.md
R13). The guard of RETIRE has `stage_ok` as R13 asks, and 40_host_ops.md R160 does not require it: where RETIRE is enabled there is
room (log entry 17, RetireEndsTheRun). The model's choices in it: that a turn without a step is offered at all (log entry 4), and that a beat of WFFT names its frame by 32 bits (log entry
8). -/
def Obligations.TurnsActExactlyWhenGuarded : Prop :=
  ∀ (i : Instr) (s : State), isStageTurn i = true → 1 ≤ s.hopSize.toNat →
    (Guard i s ↔ exec i s ≠ .next s)

/-- INGEST moves the head of the input FIFO to the signal (42_fir_decimate.md R191). -/
def Obligations.IngestMovesOneSample : Prop :=
  ∀ (s : State) (v : F64) (rest : List F64), StageOk s → s.inFifo = v :: rest →
    exec .ingest s = .next
      { s with
        inFifo := rest, xin := s.xin ++ [v], trace := s.trace ++ [⟨1#4, BitVec.ofNat 32 s.xin.length⟩] }

/-- KDES: the raw tap is the windowed sinc, the sum runs upward from `+0.0`, and every tap is divided by it unless it is
zero (41_kernel_design.md R173, R174, R176). -/
def Obligations.KernelDesignStep : Prop :=
  ∀ s : State, StageOk s → s.kvalid = false →
    ∃ (kern : List F64) (z : Bool),
      exec .kdes s = .next
        { s with
          kern := kern, ksumZero := z, kvalid := true
          trace := s.trace ++ [⟨2#4, BitVec.ofNat 32 s.filterTaps.toNat⟩] } ∧
      let N := numericsOf s.impl.numerics
      let NT := s.filterTaps.toNat
      let fc := fdiv (fdiv (f64OfNat s.targetRate.toNat) fTWO) (f64OfNat s.srcRate.toNat)
      let ham := fun k : Nat =>
        fsub fC054 (fmul fC046 (N.cos (fdiv (fmul fTWOPI (f64OfNat k)) (f64OfNat (NT - 1)))))
      let sinc := fun k : Nat =>
        if k = (NT - 1) / 2 then fmul fTWO fc
        else fdiv (N.sin (fmul (fmul fTWOPI fc) (f64OfInt ((k : Int) - ((NT - 1) / 2 : Nat)))))
          (fmul fPI (f64OfInt ((k : Int) - ((NT - 1) / 2 : Nat))))
      let raw := fun k : Nat => fmul (sinc k) (ham k)
      let sum := ((List.range NT).map raw).foldl fadd fzero
      kern.length = NT ∧ z = feq0 sum ∧
      ∀ k, k < NT → kern[k]? = some (if feq0 sum = true then raw k else fdiv (raw k) sum)

/-- WGEN: the Hamming window of the frame length (41_kernel_design.md R173, R180). -/
def Obligations.WindowGenerationStep : Prop :=
  ∀ s : State, StageOk s → s.wvalid = false →
    ∃ win : List F64,
      exec .wgen s = .next
        { s with
          win := win, wvalid := true, trace := s.trace ++ [⟨3#4, BitVec.ofNat 32 s.frameSize.toNat⟩] } ∧
      win.length = s.frameSize.toNat ∧
      ∀ k, k < s.frameSize.toNat →
        win[k]? = some (fsub fC054 (fmul fC046 ((numericsOf s.impl.numerics).cos
          (fdiv (fmul fTWOPI (f64OfNat k)) (f64OfNat (s.frameSize.toNat - 1))))))

/-- FIRD: the next output is the sum, upward from `+0.0`, of the taps times the samples at `centre + M - k`, the taps whose
sample lies outside the signal left out (42_fir_decimate.md R193, R195). -/
def Obligations.DecimationStep : Prop :=
  ∀ s : State, Guard .fird s →
    let centre : Nat := s.ys.length * s.srcRate.toNat / s.targetRate.toNat
    let u : Nat → Int := fun k => (centre : Int) + ((s.filterTaps.toNat - 1) / 2 : Nat) - (k : Int)
    let taps : List Nat :=
      (List.range s.filterTaps.toNat).filter fun k => decide (0 ≤ u k) && decide (u k < (s.xin.length : Int))
    let y : F64 := (taps.map fun k => fmul (s.kern.getD k fzero) (s.xin.getD (u k).toNat fzero)).foldl fadd fzero
    exec .fird s = .next { s with ys := s.ys ++ [y], trace := s.trace ++ [⟨4#4, BitVec.ofNat 32 s.ys.length⟩] }

/-- WFFT of a frame that exists and has no magnitudes yet fills its slot, and no other, with the transform of the windowed
frame, and shows every bin on the tap (44_fft_magnitude.md R231). The schedule names any frame by its index; a beat names it
by the low 32 bits, which below `2^32` are the index (log entry 8). Named so, a frame that is not ready changes nothing (log
entry 4). -/
def Obligations.TransformStep : Prop :=
  (∀ (s : State) (j : Nat), StageOk s → s.wvalid = true → 1 ≤ s.hopSize.toNat →
    j * s.hopSize.toNat + s.frameSize.toNat ≤ s.ys.length → slot? s.spec j = none →
    ∃ (v : List F64) (spec : List (Nat × List F64)) (t : State),
      v = (numericsOf s.impl.numerics).dftMag s.frameSize.toNat
        ((List.range s.frameSize.toNat).map fun k =>
          fmul (s.ys.getD (j * s.hopSize.toNat + k) fzero) (s.win.getD k fzero)) ∧
      t = { s with
          spec := spec
          stap := s.stap ++ (List.range v.length).map fun k =>
            ⟨BitVec.ofNat 32 j, BitVec.ofNat 16 k, v.getD k fzero⟩
          trace := s.trace ++ [⟨5#4, BitVec.ofNat 32 j⟩] } ∧
      slot? spec j = some v ∧ (∀ k, k ≠ j → slot? spec k = slot? s.spec k) ∧
      (j < 2 ^ 32 → exec (.wfft (BitVec.ofNat 32 j)) s = .next t) ∧
      ∀ rest, step { s with script := .frame j :: rest } = .next { t with script := rest }) ∧
  ∀ (s : State) (j : Nat) (rest : List Event), s.script = .frame j :: rest →
    ¬ (StageOk s ∧ s.wvalid = true ∧ j * s.hopSize.toNat + s.frameSize.toNat ≤ s.ys.length ∧ slot? s.spec j = none) →
    step s = .next { s with script := rest }

/-- PEAK: in each band, upward, the strongest bin, if it is above the band's mean times the multiplier; the peaks are
appended, shown on the tap, and the next frame is the following one (45_peak_detect.md R246 to R250, R254). -/
def Obligations.PeakStep : Prop :=
  ∀ (s : State) (v : List F64), StageOk s → slot? s.spec s.npf = some v →
    let B := s.frameSize.toNat / 2 + 1
    let NB := s.numBands.toNat
    let lo := fun b : Nat => b * (B / NB)
    let hi := fun b : Nat => if b < NB - 1 then (b + 1) * (B / NB) else B
    let thr := fun b : Nat =>
      fmul (fdiv (((List.range' (lo b) (hi b - lo b)).map fun k => v.getD k fzero).foldl fadd fzero)
        (f64OfNat (hi b - lo b))) (s.threshHi ++ s.threshLo)
    let best := fun b : Nat => bestBin v (lo b) (hi b)
    let found := ((List.range NB).filter fun b => fgt (v.getD (best b) fzero) (thr b)).map fun b =>
      (⟨s.npf, best b, v.getD (best b) fzero⟩ : Peak)
    exec .peak s = .next
      { s with
        pk := s.pk ++ found
        ptap := s.ptap ++ found.map fun p => ⟨BitVec.ofNat 32 p.frame, BitVec.ofNat 16 p.bin, p.mag⟩
        npf := s.npf + 1
        trace := s.trace ++ [⟨6#4, BitVec.ofNat 32 s.npf⟩] }

/-- HEMIT pushes the hash of the anchor and the next candidate, when the candidate is in the zone (46_hash_encode.md R272).
HADV releases the anchor when the candidate is beyond the zone (R273), or when the known peaks are exhausted and no later
peak can be in the zone (R274). The two are never enabled together (R275). -/
def Obligations.HashEncoderSteps : Prop :=
  (∀ (s : State) (p q : Peak), StageOk s → s.pk[s.a]? = some p → s.pk[s.t]? = some q →
    q.frame - p.frame ≤ s.targetZone.toNat →
    exec .hemit s = .next
      { s with
        hq := s.hq ++ [BitVec.ofNat 32 (min p.bin 511 * 2 ^ 23 + min q.bin 511 * 2 ^ 14 +
          min (q.frame - p.frame) 16383)]
        hashCount := s.hashCount + 1, t := s.t + 1
        trace := s.trace ++ [⟨7#4, BitVec.ofNat 32 s.hashCount⟩] }) ∧
  (∀ s : State, Guard .hadv s →
    exec .hadv s = .next
      { s with a := s.a + 1, t := s.a + 2, trace := s.trace ++ [⟨8#4, BitVec.ofNat 32 (s.a + 1)⟩] }) ∧
  ∀ s : State, ¬ (Guard .hemit s ∧ Guard .hadv s)

/-- RETIRE ends the run when everything is done: it needs no `stage_ok` and no empty output FIFO (40_host_ops.md R160). In a
state of a run `hdone` leaves room in the FIFO; where there is room RETIRE acts in any state. -/
def Obligations.RetireEndsTheRun : Prop :=
  (∀ s : State, ArchInv s → 1 ≤ s.impl.outDepth → s.phase = .flush → HDone s →
    s.hq.length < s.impl.outDepth ∧
    exec .retire s = .next { s with phase := .done, trace := s.trace ++ [⟨9#4, BitVec.ofNat 32 s.hashCount⟩] }) ∧
  ∀ s : State, s.hq.length < s.impl.outDepth → s.phase = .flush → HDone s →
    exec .retire s = .next { s with phase := .done, trace := s.trace ++ [⟨9#4, BitVec.ofNat 32 s.hashCount⟩] }

/-- The FAULT turn enters the fault its operand names exactly when a host operation could raise that cause now, with that
operation's effect, and otherwise changes nothing (60_exceptions.md R312, R318; the turn itself is log entry 6). -/
def Obligations.FaultTurnEntersThePossibleFaults : Prop :=
  (∀ s : State, s.phase = .run → s.xin.length + s.inFifo.length = 0 →
    exec (.fault 0x101#32) s = .next (faulted 0x101#32 0#32 s)) ∧
  (∀ s : State, s.phase = .run → s.inFifo.length < s.impl.inDepth → s.xin.length + s.inFifo.length < 2 ^ 32 - 1 →
    exec (.fault 0x501#32) s = .next (faulted 0x501#32 (BitVec.ofNat 32 (s.xin.length + s.inFifo.length)) s)) ∧
  (∀ (s : State) (e info : Word), s.phase = .idle → (startChecks s).find? (fun c => c.1) = some (true, e, info) →
    exec (.fault e) s = .next (faulted e info (clearRun s))) ∧
  (∀ (s : State) (e : Word), s.phase = .run →
    ¬ (e = 0x101#32 ∧ s.xin.length + s.inFifo.length = 0) →
    ¬ (e = 0x501#32 ∧ s.inFifo.length < s.impl.inDepth ∧ s.xin.length + s.inFifo.length < 2 ^ 32 - 1) →
    exec (.fault e) s = .next s) ∧
  (∀ (s : State) (e : Word), s.phase = .idle →
    (∀ c, (startChecks s).find? (fun c => c.1) = some c → c.2.1 ≠ e) → exec (.fault e) s = .next s) ∧
  ∀ (s : State) (e : Word), (s.phase = .flush ∨ s.phase = .done ∨ s.phase = .fault) → exec (.fault e) s = .next s

/-- While the output FIFO is full every stage step is disabled, INGEST included, and a run in `RUN` or `FLUSH` is stuck until
the host acts (20_memory.md R84, 70_reset_and_hazards.md R357, R364). -/
def Obligations.FullOutputFifoStallsEveryStage : Prop :=
  ∀ s : State, s.impl.outDepth ≤ s.hq.length →
    (∀ i, isStageTurn i = true → ¬ Guard i s ∧ exec i s = .next s) ∧ ((s.phase = .run ∨ s.phase = .flush) → Stuck s)

/-- In `FLUSH` with room in the output FIFO some stage step is enabled: a run whose hashes are popped never deadlocks
(70_reset_and_hazards.md R364 (c)). -/
def Obligations.FlushNeverDeadlocks : Prop :=
  ∀ s : State, ArchInv s → StreamInv s → s.phase = .flush → s.hq.length < s.impl.outDepth → StageEnabled s

/-- A stage step moves the run forward by exactly one, and never back (70_reset_and_hazards.md R364 (b)). -/
def Obligations.StageStepsMakeProgress : Prop :=
  ∀ (i : Instr) (s t : State), isStageTurn i = true → exec i s = .next t → t = s ∨ progress t = progress s + 1

/-- Progress under weak fairness (70_reset_and_hazards.md R364). (a) While a run goes on, an enabled stage step, which has room
in the output FIFO, is followed by a stage step. (b) When a run has ended, its stage steps, which `progress` counts one by one,
are as many as R364 says, if it had a frame or has generated both coefficient banks; 40_host_ops.md R160 lets a run without a
frame retire before a bank is generated, and that is one step less (log entry 17). (c) After `FINISH`, a host that pops what is
available and does not abandon the run sees it end normally. (d) In `RUN`, below the run length limit, a host that pops what is
available sees room for a sample. -/
def Obligations.FairRunsProgress : Prop :=
  (∀ (st : Nat → State) (ev : Nat → Event) (n : Nat) (i : Instr), Executes st ev → WeaklyFair st ev →
    ArchInv (st n) → StreamInv (st n) → isStageTurn i = true → Guard i (st n) →
    ∃ m, n ≤ m ∧ (StageStep (ev m) (st m) ∨ ¬ ((st m).phase = .run ∨ (st m).phase = .flush))) ∧
  (∀ s : State, ArchInv s → StreamInv s → s.phase = .done →
    progress s = s.xin.length + (s.kvalid.toNat + s.wvalid.toNat) + s.ys.length + framesOf s + framesOf s + s.hashCount +
      s.pk.length + 1 ∧
    (0 < framesOf s ∨ s.kvalid = true ∧ s.wvalid = true →
      progress s = s.xin.length + 2 + s.ys.length + framesOf s + framesOf s + s.hashCount + s.pk.length + 1)) ∧
  (∀ (st : Nat → State) (ev : Nat → Event) (n : Nat), Executes st ev → WeaklyFair st ev → Config.legal (st n).impl →
    ArchInv (st n) → StreamInv (st n) → (st n).phase = .flush → HostPops st ev n →
    (∀ m, n ≤ m → ¬ Abandons (ev m)) → ∃ m, n ≤ m ∧ EndedNormally (st m)) ∧
  ∀ (st : Nat → State) (ev : Nat → Event) (n : Nat), Executes st ev → WeaklyFair st ev → Config.legal (st n).impl →
    ArchInv (st n) → StreamInv (st n) → (st n).xin.length + (st n).inFifo.length < 2 ^ 32 - 1 → HostPops st ev n →
    (∀ m, n ≤ m → (st m).phase = .run) →
    ∃ m, n ≤ m ∧ (st m).inFifo.length < (st m).impl.inDepth ∧
      (st m).xin.length + (st m).inFifo.length < 2 ^ 32 - 1

/-! ### The whole machine -/

/-- The phase machine: each event of R162 leads where its row says, and no host operation or stage step changes the phase in
any other way (40_host_ops.md R162); RETIRE leads to `DONE` where its guard holds. -/
def Obligations.PhaseTransitions : Prop :=
  (∀ (i : Instr) (s t : State), (isBusOp i = true ∨ isStageTurn i = true) → exec i s = .next t →
    t.phase = s.phase ∨
    ((i = .cmdReset ∨ i = .cmdClear) ∧ t.phase = .idle) ∨
    (i = .cmdStart ∧ s.phase = .idle ∧ cfgOk s ∧ t.phase = .run) ∨
    (i = .cmdStart ∧ s.phase = .idle ∧ ¬ cfgOk s ∧ t.phase = .fault) ∨
    (i = .cmdFinish ∧ s.phase = .run ∧ 0 < s.xin.length + s.inFifo.length ∧ t.phase = .flush) ∨
    (i = .cmdFinish ∧ s.phase = .run ∧ s.xin.length + s.inFifo.length = 0 ∧ t.phase = .fault) ∨
    ((∃ d, i = .wrSampleHi d ∧ (isFinite (d ++ s.slo) = false ∨ 1 < |toRat (d ++ s.slo)|)) ∧ s.phase = .run ∧
      t.phase = .fault) ∨
    (i = .retire ∧ s.phase = .flush ∧ t.phase = .done)) ∧
  (∀ s t : State, (exec .cmdReset s = .next t ∨ exec .cmdClear s = .next t) → t.phase = .idle) ∧
  (∀ (s : State) (rest : List Event), s.script = .hardReset :: rest → ∃ t, step s = .next t ∧ t.phase = .idle) ∧
  (∀ s t : State, s.phase = .idle → exec .cmdStart s = .next t →
    (cfgOk s → t.phase = .run) ∧ (¬ cfgOk s → t.phase = .fault)) ∧
  (∀ s t : State, s.phase = .run → exec .cmdFinish s = .next t →
    (0 < s.xin.length + s.inFifo.length → t.phase = .flush) ∧
    (s.xin.length + s.inFifo.length = 0 → t.phase = .fault)) ∧
  (∀ (s t : State) (d : Word), s.phase = .run → s.inFifo.length < s.impl.inDepth →
    s.xin.length + s.inFifo.length < 2 ^ 32 - 1 → (isFinite (d ++ s.slo) = false ∨ 1 < |toRat (d ++ s.slo)|) →
    exec (.wrSampleHi d) s = .next t → t.phase = .fault) ∧
  ∀ s t : State, Guard .retire s → exec .retire s = .next t → t.phase = .done

/-- The configuration registers change only by `RESET` and, in `IDLE`, by their own writes (40_host_ops.md R137, 20_memory.md
R85). The error record is written only by fault entry and cleared only by `CLEAR` and `RESET` (10_state.md R34). -/
def Obligations.ConfigurationAndErrorRecordOwners : Prop :=
  (∀ (i : Instr) (s t : State), exec i s = .next t →
    configOf t = configOf s ∨ i = .cmdReset ∨
    (s.phase = .idle ∧ ∃ d, i ∈ [.wrSrcRate d, .wrTargetRate d, .wrMinRate d, .wrFilterTaps d, .wrFrameSize d,
      .wrHopSize d, .wrNumBands d, .wrTargetZone d, .wrThreshLo d, .wrThreshHi d])) ∧
  ∀ (i : Instr) (s t : State), exec i s = .next t →
    (t.err = s.err ∧ t.errInfo = s.errInfo) ∨
    (s.phase ≠ .fault ∧ t.phase = .fault ∧ t.err ∈ faultWords) ∨
    ((i = .cmdClear ∨ i = .cmdReset) ∧ t.err = 0#32 ∧ t.errInfo = 0#32)

/-- Every transaction is answered; a refused one answers 0 and changes nothing else; an accepted write answers 0
(30_encoding.md R102, 40_host_ops.md R133). -/
def Obligations.ResponsesAndRefusals : Prop :=
  ∀ (i : Instr) (s t : State), isBusOp i = true → exec i s = .next t →
    ∃ r, t.resp = some r ∧ (r.err = true → r.rdata = 0#32 ∧ t = { s with resp := some r }) ∧
      (isWriteOp i = true → r.rdata = 0#32)

/-- A read other than `HASH_DATA` changes nothing, and a second read gives the same answer (20_memory.md R75). -/
def Obligations.ReadsAreIdempotent : Prop :=
  ∀ (i : Instr) (s t : State), isPlainRead i = true → exec i s = .next t →
    t = { s with resp := t.resp } ∧ exec i t = .next t

/-- The samples of a run, ingested and queued, change only by an accepted push, which appends one, and by the run-state
clear: no sample is lost, repeated or reordered (40_host_ops.md R142, R146, 20_memory.md R81). -/
def Obligations.SamplesKeepTheirOrder : Prop :=
  ∀ (i : Instr) (s t : State), exec i s = .next t →
    t.xin ++ t.inFifo = s.xin ++ s.inFifo ∨
    (∃ d, i = .wrSampleHi d ∧ t.xin ++ t.inFifo = s.xin ++ s.inFifo ++ [d ++ s.slo]) ∨
    ((i = .cmdStart ∨ i = .cmdClear ∨ i = .cmdReset ∨ ∃ e, i = .fault e) ∧ t.xin ++ t.inFifo = [])

/-- Within a run the sequences only grow, a filled slot keeps its magnitudes, and no counter of the run and no flag falls
back: only `START`, `CLEAR`, `RESET` and a fault turn undo them (20_memory.md R80 (d), 10_state.md R61). The two FIFO levels
are no counters of the run: pops and INGEST lower them (R47). -/
def Obligations.RunStateIsMonotone : Prop :=
  ∀ (i : Instr) (s t : State), isBusOp i = true ∨ isStageTurn i = true → i ≠ .cmdStart → i ≠ .cmdClear →
    i ≠ .cmdReset → exec i s = .next t →
    (s.xin <+: t.xin ∧ s.ys <+: t.ys ∧ s.pk <+: t.pk ∧ s.popped <+: t.popped ∧
      ∀ j v, slot? s.spec j = some v → slot? t.spec j = some v) ∧
    (s.xin.length + s.inFifo.length ≤ t.xin.length + t.inFifo.length ∧ s.ys.length ≤ t.ys.length ∧
      s.spec.length ≤ t.spec.length ∧ s.npf ≤ t.npf ∧ s.pk.length ≤ t.pk.length ∧ s.hashCount ≤ t.hashCount ∧
      s.a ≤ t.a) ∧
    (s.kvalid = true → t.kvalid = true ∧ t.kern = s.kern ∧ t.ksumZero = s.ksumZero) ∧
    (s.wvalid = true → t.wvalid = true ∧ t.win = s.win) ∧ (s.fin = true → t.fin = true) ∧
    (ArchInv s → s.ksumZero = true → t.ksumZero = true) ∧
    (ArchInv s → StreamInv s → (XDone s → XDone t) ∧ (YDone s → YDone t) ∧ (SDone s → SDone t) ∧
      (PDone s → PDone t) ∧ (HDone s → HDone t))

/-- The trace port: one beat for every stage step, with the operation id and the index of R110, one for every fault entry,
with the value of `ERR`, and none for any other operation (60_exceptions.md R338, 30_encoding.md R110). -/
def Obligations.TraceShowsEveryStepOnce : Prop :=
  ∀ (i : Instr) (s t : State), exec i s = .next t →
    (t.trace = s.trace ∧ (isStageTurn i = true → t = s) ∧ ¬ (s.phase ≠ .fault ∧ t.phase = .fault)) ∨
    (isStageTurn i = false ∧ s.phase ≠ .fault ∧ t.phase = .fault ∧ t.trace = s.trace ++ [⟨10#4, t.err⟩]) ∨
    (isStageTurn i = true ∧ Guard i s ∧ ∃ b, stepBeat i s t = some b ∧ t.trace = s.trace ++ [b])

/-- Whatever a run left behind, after `CLEAR` the block is in the same state, given the same configuration, interrupt enables,
coefficient selection and environment (10_state.md R63). -/
def Obligations.ClearForgetsTheRun : Prop :=
  ∀ s s' : State, s.impl = s'.impl → configOf s = configOf s' → s.irqEn = s'.irqEn → s.coefSel = s'.coefSel →
    s.trace = s'.trace → s.stap = s'.stap → s.ptap = s'.ptap → s.script = s'.script →
    exec .cmdClear s = exec .cmdClear s'

/-- What holds of the registers and queues holds after every step. -/
def Obligations.StepKeepsTheRegisterInvariant : Prop :=
  ∀ s t : State, ArchInv s → step s = .next t → ArchInv t

/-- Both invariants hold at reset. -/
def Obligations.ResetHasTheInvariants : Prop := ArchInv State.reset ∧ StreamInv State.reset

/-- What the stages have computed is what the batch pipeline computes, after every step (20_memory.md R81, 46_hash_encode.md
R275). -/
def Obligations.StepKeepsTheStreamInvariant : Prop :=
  ∀ s t : State, ArchInv s → StreamInv s → step s = .next t → StreamInv t

/-- In `DONE` the hashes of the run, popped and queued, are the Fingerprint that the source's batch pipeline computes from
the whole input (42_fir_decimate.md R196, 45_peak_detect.md R254, 46_hash_encode.md R270, R275). -/
def Obligations.FinishedRunIsTheBatchFingerprint : Prop :=
  ∀ s : State, ArchInv s → StreamInv s → s.phase = .done →
    produced s = batchFingerprint (numericsOf s.impl.numerics) s s.xin

/-- The determinacy property: two finished runs of one configuration, one numerics configuration and one input agree in
every slot, in the peaks and in the hashes, whatever their schedules and whatever the depths of their FIFOs
(20_memory.md R81). -/
def Obligations.ScheduleDoesNotShowInTheResult : Prop :=
  ∀ s s' : State, ArchInv s → StreamInv s → ArchInv s' → StreamInv s' → s.phase = .done → s'.phase = .done →
    configOf s = configOf s' → s.impl.numerics = s'.impl.numerics → s.xin = s'.xin →
    produced s = produced s' ∧ s.pk = s'.pk ∧ ∀ j, slot? s.spec j = slot? s'.spec j

/-! ### Arithmetic -/

/-- The four operations are exact results rounded once, to nearest, ties to even (00_scope.md R10). The sign of a zero and
what an infinity, a NaN or a zero divisor gives are those of IEEE 754, which R10 adopts. -/
def Obligations.ArithmeticRoundsToNearestEven : Prop :=
  (∀ a b : F64, isFinite a = true → isFinite b = true →
    RoundsTo (toRat a + toRat b) (fadd a b) ∧ RoundsTo (toRat a - toRat b) (fsub a b) ∧
    RoundsTo (toRat a * toRat b) (fmul a b) ∧ (feq0 b = false → RoundsTo (toRat a / toRat b) (fdiv a b)) ∧
    (toRat a + toRat b = 0 → signBit (fadd a b) = (signBit a && signBit b)) ∧
    (toRat a - toRat b = 0 → signBit (fsub a b) = (signBit a && !signBit b)) ∧
    signBit (fmul a b) = (signBit a != signBit b) ∧
    (feq0 b = false → signBit (fdiv a b) = (signBit a != signBit b)) ∧
    (feq0 b = true → if feq0 a = true then isNaN (fdiv a b) = true
      else fdiv a b = withSign (signBit a != signBit b) infBits)) ∧
  (∀ a b : F64, isNaN a = true ∨ isNaN b = true →
    isNaN (fadd a b) = true ∧ isNaN (fsub a b) = true ∧ isNaN (fmul a b) = true ∧ isNaN (fdiv a b) = true) ∧
  (∀ a b : F64, isFinite a = true → isFinite b = false → isNaN b = false →
    fadd a b = b ∧ fadd b a = b ∧ fsub b a = b ∧ fsub a b = b ^^^ 0x8000000000000000#64 ∧
    fdiv a b = withSign (signBit a != signBit b) 0 ∧ fdiv b a = withSign (signBit a != signBit b) infBits ∧
    (feq0 a = false → fmul a b = withSign (signBit a != signBit b) infBits ∧ fmul b a = fmul a b) ∧
    (feq0 a = true → isNaN (fmul a b) = true ∧ isNaN (fmul b a) = true)) ∧
  ∀ a b : F64, isFinite a = false → isNaN a = false → isFinite b = false → isNaN b = false →
    (if signBit a = signBit b then fadd a b = a ∧ isNaN (fsub a b) = true
      else isNaN (fadd a b) = true ∧ fsub a b = a) ∧
    fmul a b = withSign (signBit a != signBit b) infBits ∧ isNaN (fdiv a b) = true

/-- An integer below `2^53` becomes a binary64 exactly; comparison is that of the values, and false when an operand is a NaN
(00_scope.md R10). -/
def Obligations.ConversionAndComparisonAreExact : Prop :=
  (∀ i : Int, i.natAbs < 2 ^ 53 → isFinite (f64OfInt i) = true ∧ toRat (f64OfInt i) = i) ∧
  ∀ a b : F64, (isFinite a = true → isFinite b = true → (fgt a b = true ↔ toRat b < toRat a)) ∧
    ((isNaN a = true ∨ isNaN b = true) → fgt a b = false)

/-- Every numerics configuration is the reference one or has all the named properties (41_kernel_design.md R172,
44_fft_magnitude.md R228). The reference `SIN` and `COS` have TRIG-FINITE and TRIG-ZERO, the reference `SQRT` is the nearest
binary64 to the root, and the reference `DFTMAG` is the sum of R229, bin by bin. That the open configurations are so given,
and that where no binary64 meets DFT-ACC the result is as near as any, is the model's choice (log entry 2). -/
def Obligations.OpenNumericsHaveTheirProperties : Prop :=
  (∀ (tag : Nat) (epsTrig epsDft : ℚ),
    numericsOf (.other tag epsTrig epsDft) = numericsOf .reference ∨
    let N := numericsOf (.other tag epsTrig epsDft)
    0 < epsTrig ∧ 0 < epsDft ∧ TrigFinite N ∧ TrigZero N ∧ TrigAcc N epsTrig ∧ DftLen N ∧ DftNonneg N ∧ DftAcc N epsDft ∧
    ∀ (F : Nat) (xw : List F64) (k : Nat) (u : F64), xw.length = F → (∀ x ∈ xw, isFinite x = true) → k < F / 2 + 1 →
      isFinite u = true → signBit u = false → NearMagnitude epsDft F xw k u →
      NearMagnitude epsDft F xw k ((N.dftMag F xw).getD k fzero)) ∧
  let R := numericsOf .reference
  TrigFinite R ∧ TrigZero R ∧ DftLen R ∧
  (∀ a : F64, isFinite a = true → signBit a = false →
    isFinite (R.sqrt a) = true ∧ signBit (R.sqrt a) = false ∧
    ∀ c : F64, isFinite c = true →
      |(toRat (R.sqrt a) : ℝ) - Real.sqrt (toRat a)| ≤ |(toRat c : ℝ) - Real.sqrt (toRat a)|) ∧
  ∀ (F : Nat) (xw : List F64) (k : Nat), xw.length = F → k < F / 2 + 1 →
    let th := fun n : Nat => fdiv (fmul fTWOPI (f64OfNat ((k * n) % F))) (f64OfNat F)
    let re := ((List.range F).map fun n => fmul (xw.getD n fzero) (R.cos (th n))).foldl fadd fzero
    let im := ((List.range F).map fun n => fmul (xw.getD n fzero) (R.sin (th n))).foldl fadd fzero
    (R.dftMag F xw)[k]? = some (R.sqrt (fadd (fmul re re) (fmul im im)))

/-- Output `i` exists for `n` samples exactly when it is below the decimated length, and its centre is then a sample index
(42_fir_decimate.md R192). Frame `j` exists in `m` samples exactly when it is below the frame count (43_frame_window.md
R211). -/
def Obligations.OutputAndFrameIndices : Prop :=
  (∀ Fs Ft n i : Nat, 1 ≤ Fs → 1 ≤ Ft →
    ((i + 1) * Fs ≤ n * Ft ↔ i < newLength Fs Ft n) ∧ ((i + 1) * Fs ≤ n * Ft → centre Fs Ft i < n)) ∧
  ∀ F H m j : Nat, 1 ≤ H → (j * H + F ≤ m ↔ j < frameCount F H m)

/-- The bands cover every bin exactly once, none is empty, and the last has the remainder (45_peak_detect.md R246, R247). -/
def Obligations.BandsPartitionTheBins : Prop :=
  ∀ B NB : Nat, 1 ≤ NB → NB ≤ B →
    (∀ k, k < B → ∃! b, b < NB ∧ bandLo B NB b ≤ k ∧ k < bandHi B NB b) ∧
    (∀ b, b + 1 < NB → bandHi B NB b - bandLo B NB b = B / NB) ∧
    bandHi B NB (NB - 1) - bandLo B NB (NB - 1) = B / NB + B % NB ∧
    ∀ b, b < NB → bandLo B NB b < bandHi B NB b ∧ bandHi B NB b ≤ B

/-- `best` is the lowest bin among those with the largest magnitude of the band (45_peak_detect.md R249). -/
def Obligations.BestBinIsTheLowestMaximum : Prop :=
  ∀ (v : List F64) (lo hi : Nat), lo < hi → (∀ k, lo ≤ k → k < hi → isNaN (v.getD k fzero) = false) →
    lo ≤ bestBin v lo hi ∧ bestBin v lo hi < hi ∧
    (∀ k, lo ≤ k → k < hi → fgt (v.getD k fzero) (v.getD (bestBin v lo hi) fzero) = false) ∧
    ∀ k, lo ≤ k → k < bestBin v lo hi → fgt (v.getD (bestBin v lo hi) fzero) (v.getD k fzero) = true

/-- The peaks of a frame: at most one for each band, each in its band, with its slot's magnitude and above its band's
threshold, in ascending bin (45_peak_detect.md R254, R255). -/
def Obligations.PeaksOfAFrame : Prop :=
  ∀ (B NB : Nat) (mult : F64) (j : Nat) (v : List F64), 1 ≤ NB → NB ≤ B →
    (framePeaks B NB mult j v).length ≤ NB ∧
    (framePeaks B NB mult j v).Pairwise (fun p q => p.bin < q.bin ∧
      ∀ b, b < NB → ¬ ((bandLo B NB b ≤ p.bin ∧ p.bin < bandHi B NB b) ∧
        (bandLo B NB b ≤ q.bin ∧ q.bin < bandHi B NB b))) ∧
    ∀ p ∈ framePeaks B NB mult j v, p.frame = j ∧ p.mag = v.getD p.bin fzero ∧
      ∃ b, b < NB ∧ bandLo B NB b ≤ p.bin ∧ p.bin < bandHi B NB b ∧
        fgt p.mag (bandThreshold v (bandLo B NB b) (bandHi B NB b) mult) = true

/-- An all-zero band gives no peak, whatever the finite multiplier and whatever the other bands hold; an all-zero vector gives
none in any band (45_peak_detect.md R250 (d), 90_conflicts.md C9). -/
def Obligations.SilenceGivesNoPeak : Prop :=
  (∀ (B NB : Nat) (mult : F64) (j : Nat) (v : List F64) (b : Nat), isFinite mult = true →
    bandLo B NB b < bandHi B NB b →
    (∀ k, bandLo B NB b ≤ k → k < bandHi B NB b → v.getD k fzero = fzero) → bandPeak B NB mult j v b = none) ∧
  ∀ (B NB : Nat) (mult : F64) (j : Nat) (v : List F64), isFinite mult = true →
    (∀ k, v.getD k fzero = fzero) →
    (∀ b, bandPeak B NB mult j v b = none) ∧ framePeaks B NB mult j v = []

/-- On a list in frame order, the scan that skips pairs out of the zone gives the canonical sequence (46_hash_encode.md
R270, R276). -/
def Obligations.SkippingScanGivesTheSameHashes : Prop :=
  ∀ (Z : Nat) (pk : List Peak), pk.Pairwise (fun p q => p.frame ≤ q.frame) → skipScanHashes Z pk = canonicalHashes Z pk

end Statements
end

