-- ==== Sys2Proof/Laws/Decode.lean ====
section
/-! SUPPORT. The fields of the words the encoder writes, and the register at a register's address. -/

namespace Sys2Proof

/-- A field of the part above a 32-bit data word. -/
theorem extract_above_data {n : Nat} (h : BitVec n) (data : Word) (start len : Nat) :
    (h ++ data).extractLsb' (32 + start) len = h.extractLsb' start len := by
  ext i hi
  have h1 : ¬ 32 + start + i < 32 := by omega
  have h2 : 32 + start + i - 32 = start + i := by omega
  simp [BitVec.getElem_extractLsb', BitVec.getLsbD_append, h1, h2]

/-- The 32-bit data word itself. -/
theorem extract_data {n : Nat} (h : BitVec n) (data : Word) : (h ++ data).extractLsb' 0 32 = data := by
  ext i hi
  simp [BitVec.getElem_extractLsb', BitVec.getLsbD_append, hi]

@[simp] theorem busWe_writeWord (r : Reg) (data : Word) : busWe (writeWord r data) = true := by
  rw [busWe, writeWord, extract_above_data _ _ 15 1]
  cases r <;> decide

@[simp] theorem busRsv_writeWord (r : Reg) (data : Word) : busRsv (writeWord r data) = 0#3 := by
  rw [busRsv, writeWord, extract_above_data _ _ 12 3]
  cases r <;> decide

@[simp] theorem busAddr_writeWord (r : Reg) (data : Word) : busAddr (writeWord r data) = regAddr r := by
  rw [busAddr, writeWord, extract_above_data _ _ 0 12]
  cases r <;> decide

@[simp] theorem busData_writeWord (r : Reg) (data : Word) : busData (writeWord r data) = data := extract_data _ _

@[simp] theorem busWe_readWord (r : Reg) : busWe (readWord r) = false := by cases r <;> decide

@[simp] theorem busRsv_readWord (r : Reg) : busRsv (readWord r) = 0#3 := by cases r <;> decide

@[simp] theorem busAddr_readWord (r : Reg) : busAddr (readWord r) = regAddr r := by cases r <;> decide

@[simp] theorem beatOp_beatWord (op : BitVec 4) (idx : Word) : beatOp (beatWord op idx) = op := by
  rw [beatOp, beatWord, extract_above_data _ _ 0 4]
  simp

@[simp] theorem beatIdx_beatWord (op : BitVec 4) (idx : Word) : beatIdx (beatWord op idx) = idx := extract_data _ _

/-- The registers have different addresses, and each is found at its own. -/
@[simp] theorem regAt_regAddr (r : Reg) : regAt (regAddr r) = some r := by cases r <;> decide

/-- Every register's address is a word address. -/
@[simp] theorem regAddr_aligned (r : Reg) : (regAddr r).extractLsb' 0 2 = 0#2 := by cases r <;> decide

end Sys2Proof
end

