-- ==== Sys2Proof/Laws/State.lean ====
section
/-! SUPPORT. What each named update of the state does to each field, and to the quantities read off the fields. Every
lemma holds by definition; later proofs rewrite with them and unfold no record update. -/

namespace Sys2Proof.Machine

@[simp] theorem respond_impl (v : Word) (s : State) : (respond v s).impl = s.impl := rfl
@[simp] theorem respond_phase (v : Word) (s : State) : (respond v s).phase = s.phase := rfl
@[simp] theorem respond_err (v : Word) (s : State) : (respond v s).err = s.err := rfl
@[simp] theorem respond_errInfo (v : Word) (s : State) : (respond v s).errInfo = s.errInfo := rfl
@[simp] theorem respond_irqEn (v : Word) (s : State) : (respond v s).irqEn = s.irqEn := rfl
@[simp] theorem respond_coefSel (v : Word) (s : State) : (respond v s).coefSel = s.coefSel := rfl
@[simp] theorem respond_srcRate (v : Word) (s : State) : (respond v s).srcRate = s.srcRate := rfl
@[simp] theorem respond_targetRate (v : Word) (s : State) : (respond v s).targetRate = s.targetRate := rfl
@[simp] theorem respond_minRate (v : Word) (s : State) : (respond v s).minRate = s.minRate := rfl
@[simp] theorem respond_filterTaps (v : Word) (s : State) : (respond v s).filterTaps = s.filterTaps := rfl
@[simp] theorem respond_frameSize (v : Word) (s : State) : (respond v s).frameSize = s.frameSize := rfl
@[simp] theorem respond_hopSize (v : Word) (s : State) : (respond v s).hopSize = s.hopSize := rfl
@[simp] theorem respond_numBands (v : Word) (s : State) : (respond v s).numBands = s.numBands := rfl
@[simp] theorem respond_targetZone (v : Word) (s : State) : (respond v s).targetZone = s.targetZone := rfl
@[simp] theorem respond_threshLo (v : Word) (s : State) : (respond v s).threshLo = s.threshLo := rfl
@[simp] theorem respond_threshHi (v : Word) (s : State) : (respond v s).threshHi = s.threshHi := rfl
@[simp] theorem respond_slo (v : Word) (s : State) : (respond v s).slo = s.slo := rfl
@[simp] theorem respond_inFifo (v : Word) (s : State) : (respond v s).inFifo = s.inFifo := rfl
@[simp] theorem respond_fin (v : Word) (s : State) : (respond v s).fin = s.fin := rfl
@[simp] theorem respond_xin (v : Word) (s : State) : (respond v s).xin = s.xin := rfl
@[simp] theorem respond_kern (v : Word) (s : State) : (respond v s).kern = s.kern := rfl
@[simp] theorem respond_kvalid (v : Word) (s : State) : (respond v s).kvalid = s.kvalid := rfl
@[simp] theorem respond_ksumZero (v : Word) (s : State) : (respond v s).ksumZero = s.ksumZero := rfl
@[simp] theorem respond_win (v : Word) (s : State) : (respond v s).win = s.win := rfl
@[simp] theorem respond_wvalid (v : Word) (s : State) : (respond v s).wvalid = s.wvalid := rfl
@[simp] theorem respond_ys (v : Word) (s : State) : (respond v s).ys = s.ys := rfl
@[simp] theorem respond_spec (v : Word) (s : State) : (respond v s).spec = s.spec := rfl
@[simp] theorem respond_pk (v : Word) (s : State) : (respond v s).pk = s.pk := rfl
@[simp] theorem respond_npf (v : Word) (s : State) : (respond v s).npf = s.npf := rfl
@[simp] theorem respond_a (v : Word) (s : State) : (respond v s).a = s.a := rfl
@[simp] theorem respond_t (v : Word) (s : State) : (respond v s).t = s.t := rfl
@[simp] theorem respond_hq (v : Word) (s : State) : (respond v s).hq = s.hq := rfl
@[simp] theorem respond_hashCount (v : Word) (s : State) : (respond v s).hashCount = s.hashCount := rfl
@[simp] theorem respond_popped (v : Word) (s : State) : (respond v s).popped = s.popped := rfl
@[simp] theorem respond_resp (v : Word) (s : State) : (respond v s).resp = some ⟨false, v⟩ := rfl
@[simp] theorem respond_trace (v : Word) (s : State) : (respond v s).trace = s.trace := rfl
@[simp] theorem respond_stap (v : Word) (s : State) : (respond v s).stap = s.stap := rfl
@[simp] theorem respond_ptap (v : Word) (s : State) : (respond v s).ptap = s.ptap := rfl
@[simp] theorem respond_script (v : Word) (s : State) : (respond v s).script = s.script := rfl

@[simp] theorem accept_impl (s : State) : (accept s).impl = s.impl := rfl
@[simp] theorem accept_phase (s : State) : (accept s).phase = s.phase := rfl
@[simp] theorem accept_err (s : State) : (accept s).err = s.err := rfl
@[simp] theorem accept_errInfo (s : State) : (accept s).errInfo = s.errInfo := rfl
@[simp] theorem accept_irqEn (s : State) : (accept s).irqEn = s.irqEn := rfl
@[simp] theorem accept_coefSel (s : State) : (accept s).coefSel = s.coefSel := rfl
@[simp] theorem accept_srcRate (s : State) : (accept s).srcRate = s.srcRate := rfl
@[simp] theorem accept_targetRate (s : State) : (accept s).targetRate = s.targetRate := rfl
@[simp] theorem accept_minRate (s : State) : (accept s).minRate = s.minRate := rfl
@[simp] theorem accept_filterTaps (s : State) : (accept s).filterTaps = s.filterTaps := rfl
@[simp] theorem accept_frameSize (s : State) : (accept s).frameSize = s.frameSize := rfl
@[simp] theorem accept_hopSize (s : State) : (accept s).hopSize = s.hopSize := rfl
@[simp] theorem accept_numBands (s : State) : (accept s).numBands = s.numBands := rfl
@[simp] theorem accept_targetZone (s : State) : (accept s).targetZone = s.targetZone := rfl
@[simp] theorem accept_threshLo (s : State) : (accept s).threshLo = s.threshLo := rfl
@[simp] theorem accept_threshHi (s : State) : (accept s).threshHi = s.threshHi := rfl
@[simp] theorem accept_slo (s : State) : (accept s).slo = s.slo := rfl
@[simp] theorem accept_inFifo (s : State) : (accept s).inFifo = s.inFifo := rfl
@[simp] theorem accept_fin (s : State) : (accept s).fin = s.fin := rfl
@[simp] theorem accept_xin (s : State) : (accept s).xin = s.xin := rfl
@[simp] theorem accept_kern (s : State) : (accept s).kern = s.kern := rfl
@[simp] theorem accept_kvalid (s : State) : (accept s).kvalid = s.kvalid := rfl
@[simp] theorem accept_ksumZero (s : State) : (accept s).ksumZero = s.ksumZero := rfl
@[simp] theorem accept_win (s : State) : (accept s).win = s.win := rfl
@[simp] theorem accept_wvalid (s : State) : (accept s).wvalid = s.wvalid := rfl
@[simp] theorem accept_ys (s : State) : (accept s).ys = s.ys := rfl
@[simp] theorem accept_spec (s : State) : (accept s).spec = s.spec := rfl
@[simp] theorem accept_pk (s : State) : (accept s).pk = s.pk := rfl
@[simp] theorem accept_npf (s : State) : (accept s).npf = s.npf := rfl
@[simp] theorem accept_a (s : State) : (accept s).a = s.a := rfl
@[simp] theorem accept_t (s : State) : (accept s).t = s.t := rfl
@[simp] theorem accept_hq (s : State) : (accept s).hq = s.hq := rfl
@[simp] theorem accept_hashCount (s : State) : (accept s).hashCount = s.hashCount := rfl
@[simp] theorem accept_popped (s : State) : (accept s).popped = s.popped := rfl
@[simp] theorem accept_resp (s : State) : (accept s).resp = some ⟨false, 0#32⟩ := rfl
@[simp] theorem accept_trace (s : State) : (accept s).trace = s.trace := rfl
@[simp] theorem accept_stap (s : State) : (accept s).stap = s.stap := rfl
@[simp] theorem accept_ptap (s : State) : (accept s).ptap = s.ptap := rfl
@[simp] theorem accept_script (s : State) : (accept s).script = s.script := rfl

@[simp] theorem refuse_impl (s : State) : (refuse s).impl = s.impl := rfl
@[simp] theorem refuse_phase (s : State) : (refuse s).phase = s.phase := rfl
@[simp] theorem refuse_err (s : State) : (refuse s).err = s.err := rfl
@[simp] theorem refuse_errInfo (s : State) : (refuse s).errInfo = s.errInfo := rfl
@[simp] theorem refuse_irqEn (s : State) : (refuse s).irqEn = s.irqEn := rfl
@[simp] theorem refuse_coefSel (s : State) : (refuse s).coefSel = s.coefSel := rfl
@[simp] theorem refuse_srcRate (s : State) : (refuse s).srcRate = s.srcRate := rfl
@[simp] theorem refuse_targetRate (s : State) : (refuse s).targetRate = s.targetRate := rfl
@[simp] theorem refuse_minRate (s : State) : (refuse s).minRate = s.minRate := rfl
@[simp] theorem refuse_filterTaps (s : State) : (refuse s).filterTaps = s.filterTaps := rfl
@[simp] theorem refuse_frameSize (s : State) : (refuse s).frameSize = s.frameSize := rfl
@[simp] theorem refuse_hopSize (s : State) : (refuse s).hopSize = s.hopSize := rfl
@[simp] theorem refuse_numBands (s : State) : (refuse s).numBands = s.numBands := rfl
@[simp] theorem refuse_targetZone (s : State) : (refuse s).targetZone = s.targetZone := rfl
@[simp] theorem refuse_threshLo (s : State) : (refuse s).threshLo = s.threshLo := rfl
@[simp] theorem refuse_threshHi (s : State) : (refuse s).threshHi = s.threshHi := rfl
@[simp] theorem refuse_slo (s : State) : (refuse s).slo = s.slo := rfl
@[simp] theorem refuse_inFifo (s : State) : (refuse s).inFifo = s.inFifo := rfl
@[simp] theorem refuse_fin (s : State) : (refuse s).fin = s.fin := rfl
@[simp] theorem refuse_xin (s : State) : (refuse s).xin = s.xin := rfl
@[simp] theorem refuse_kern (s : State) : (refuse s).kern = s.kern := rfl
@[simp] theorem refuse_kvalid (s : State) : (refuse s).kvalid = s.kvalid := rfl
@[simp] theorem refuse_ksumZero (s : State) : (refuse s).ksumZero = s.ksumZero := rfl
@[simp] theorem refuse_win (s : State) : (refuse s).win = s.win := rfl
@[simp] theorem refuse_wvalid (s : State) : (refuse s).wvalid = s.wvalid := rfl
@[simp] theorem refuse_ys (s : State) : (refuse s).ys = s.ys := rfl
@[simp] theorem refuse_spec (s : State) : (refuse s).spec = s.spec := rfl
@[simp] theorem refuse_pk (s : State) : (refuse s).pk = s.pk := rfl
@[simp] theorem refuse_npf (s : State) : (refuse s).npf = s.npf := rfl
@[simp] theorem refuse_a (s : State) : (refuse s).a = s.a := rfl
@[simp] theorem refuse_t (s : State) : (refuse s).t = s.t := rfl
@[simp] theorem refuse_hq (s : State) : (refuse s).hq = s.hq := rfl
@[simp] theorem refuse_hashCount (s : State) : (refuse s).hashCount = s.hashCount := rfl
@[simp] theorem refuse_popped (s : State) : (refuse s).popped = s.popped := rfl
@[simp] theorem refuse_resp (s : State) : (refuse s).resp = some ⟨true, 0#32⟩ := rfl
@[simp] theorem refuse_trace (s : State) : (refuse s).trace = s.trace := rfl
@[simp] theorem refuse_stap (s : State) : (refuse s).stap = s.stap := rfl
@[simp] theorem refuse_ptap (s : State) : (refuse s).ptap = s.ptap := rfl
@[simp] theorem refuse_script (s : State) : (refuse s).script = s.script := rfl

@[simp] theorem emit_impl (op : BitVec 4) (idx : Nat) (s : State) : (emit op idx s).impl = s.impl := rfl
@[simp] theorem emit_phase (op : BitVec 4) (idx : Nat) (s : State) : (emit op idx s).phase = s.phase := rfl
@[simp] theorem emit_err (op : BitVec 4) (idx : Nat) (s : State) : (emit op idx s).err = s.err := rfl
@[simp] theorem emit_errInfo (op : BitVec 4) (idx : Nat) (s : State) : (emit op idx s).errInfo = s.errInfo := rfl
@[simp] theorem emit_irqEn (op : BitVec 4) (idx : Nat) (s : State) : (emit op idx s).irqEn = s.irqEn := rfl
@[simp] theorem emit_coefSel (op : BitVec 4) (idx : Nat) (s : State) : (emit op idx s).coefSel = s.coefSel := rfl
@[simp] theorem emit_srcRate (op : BitVec 4) (idx : Nat) (s : State) : (emit op idx s).srcRate = s.srcRate := rfl
@[simp] theorem emit_targetRate (op : BitVec 4) (idx : Nat) (s : State) : (emit op idx s).targetRate = s.targetRate := rfl
@[simp] theorem emit_minRate (op : BitVec 4) (idx : Nat) (s : State) : (emit op idx s).minRate = s.minRate := rfl
@[simp] theorem emit_filterTaps (op : BitVec 4) (idx : Nat) (s : State) : (emit op idx s).filterTaps = s.filterTaps := rfl
@[simp] theorem emit_frameSize (op : BitVec 4) (idx : Nat) (s : State) : (emit op idx s).frameSize = s.frameSize := rfl
@[simp] theorem emit_hopSize (op : BitVec 4) (idx : Nat) (s : State) : (emit op idx s).hopSize = s.hopSize := rfl
@[simp] theorem emit_numBands (op : BitVec 4) (idx : Nat) (s : State) : (emit op idx s).numBands = s.numBands := rfl
@[simp] theorem emit_targetZone (op : BitVec 4) (idx : Nat) (s : State) : (emit op idx s).targetZone = s.targetZone := rfl
@[simp] theorem emit_threshLo (op : BitVec 4) (idx : Nat) (s : State) : (emit op idx s).threshLo = s.threshLo := rfl
@[simp] theorem emit_threshHi (op : BitVec 4) (idx : Nat) (s : State) : (emit op idx s).threshHi = s.threshHi := rfl
@[simp] theorem emit_slo (op : BitVec 4) (idx : Nat) (s : State) : (emit op idx s).slo = s.slo := rfl
@[simp] theorem emit_inFifo (op : BitVec 4) (idx : Nat) (s : State) : (emit op idx s).inFifo = s.inFifo := rfl
@[simp] theorem emit_fin (op : BitVec 4) (idx : Nat) (s : State) : (emit op idx s).fin = s.fin := rfl
@[simp] theorem emit_xin (op : BitVec 4) (idx : Nat) (s : State) : (emit op idx s).xin = s.xin := rfl
@[simp] theorem emit_kern (op : BitVec 4) (idx : Nat) (s : State) : (emit op idx s).kern = s.kern := rfl
@[simp] theorem emit_kvalid (op : BitVec 4) (idx : Nat) (s : State) : (emit op idx s).kvalid = s.kvalid := rfl
@[simp] theorem emit_ksumZero (op : BitVec 4) (idx : Nat) (s : State) : (emit op idx s).ksumZero = s.ksumZero := rfl
@[simp] theorem emit_win (op : BitVec 4) (idx : Nat) (s : State) : (emit op idx s).win = s.win := rfl
@[simp] theorem emit_wvalid (op : BitVec 4) (idx : Nat) (s : State) : (emit op idx s).wvalid = s.wvalid := rfl
@[simp] theorem emit_ys (op : BitVec 4) (idx : Nat) (s : State) : (emit op idx s).ys = s.ys := rfl
@[simp] theorem emit_spec (op : BitVec 4) (idx : Nat) (s : State) : (emit op idx s).spec = s.spec := rfl
@[simp] theorem emit_pk (op : BitVec 4) (idx : Nat) (s : State) : (emit op idx s).pk = s.pk := rfl
@[simp] theorem emit_npf (op : BitVec 4) (idx : Nat) (s : State) : (emit op idx s).npf = s.npf := rfl
@[simp] theorem emit_a (op : BitVec 4) (idx : Nat) (s : State) : (emit op idx s).a = s.a := rfl
@[simp] theorem emit_t (op : BitVec 4) (idx : Nat) (s : State) : (emit op idx s).t = s.t := rfl
@[simp] theorem emit_hq (op : BitVec 4) (idx : Nat) (s : State) : (emit op idx s).hq = s.hq := rfl
@[simp] theorem emit_hashCount (op : BitVec 4) (idx : Nat) (s : State) : (emit op idx s).hashCount = s.hashCount := rfl
@[simp] theorem emit_popped (op : BitVec 4) (idx : Nat) (s : State) : (emit op idx s).popped = s.popped := rfl
@[simp] theorem emit_resp (op : BitVec 4) (idx : Nat) (s : State) : (emit op idx s).resp = s.resp := rfl
@[simp] theorem emit_trace (op : BitVec 4) (idx : Nat) (s : State) : (emit op idx s).trace = s.trace ++ [⟨op, low32 idx⟩] := rfl
@[simp] theorem emit_stap (op : BitVec 4) (idx : Nat) (s : State) : (emit op idx s).stap = s.stap := rfl
@[simp] theorem emit_ptap (op : BitVec 4) (idx : Nat) (s : State) : (emit op idx s).ptap = s.ptap := rfl
@[simp] theorem emit_script (op : BitVec 4) (idx : Nat) (s : State) : (emit op idx s).script = s.script := rfl

@[simp] theorem noStep_impl (s : State) : (noStep s).impl = s.impl := rfl
@[simp] theorem noStep_phase (s : State) : (noStep s).phase = s.phase := rfl
@[simp] theorem noStep_err (s : State) : (noStep s).err = s.err := rfl
@[simp] theorem noStep_errInfo (s : State) : (noStep s).errInfo = s.errInfo := rfl
@[simp] theorem noStep_irqEn (s : State) : (noStep s).irqEn = s.irqEn := rfl
@[simp] theorem noStep_coefSel (s : State) : (noStep s).coefSel = s.coefSel := rfl
@[simp] theorem noStep_srcRate (s : State) : (noStep s).srcRate = s.srcRate := rfl
@[simp] theorem noStep_targetRate (s : State) : (noStep s).targetRate = s.targetRate := rfl
@[simp] theorem noStep_minRate (s : State) : (noStep s).minRate = s.minRate := rfl
@[simp] theorem noStep_filterTaps (s : State) : (noStep s).filterTaps = s.filterTaps := rfl
@[simp] theorem noStep_frameSize (s : State) : (noStep s).frameSize = s.frameSize := rfl
@[simp] theorem noStep_hopSize (s : State) : (noStep s).hopSize = s.hopSize := rfl
@[simp] theorem noStep_numBands (s : State) : (noStep s).numBands = s.numBands := rfl
@[simp] theorem noStep_targetZone (s : State) : (noStep s).targetZone = s.targetZone := rfl
@[simp] theorem noStep_threshLo (s : State) : (noStep s).threshLo = s.threshLo := rfl
@[simp] theorem noStep_threshHi (s : State) : (noStep s).threshHi = s.threshHi := rfl
@[simp] theorem noStep_slo (s : State) : (noStep s).slo = s.slo := rfl
@[simp] theorem noStep_inFifo (s : State) : (noStep s).inFifo = s.inFifo := rfl
@[simp] theorem noStep_fin (s : State) : (noStep s).fin = s.fin := rfl
@[simp] theorem noStep_xin (s : State) : (noStep s).xin = s.xin := rfl
@[simp] theorem noStep_kern (s : State) : (noStep s).kern = s.kern := rfl
@[simp] theorem noStep_kvalid (s : State) : (noStep s).kvalid = s.kvalid := rfl
@[simp] theorem noStep_ksumZero (s : State) : (noStep s).ksumZero = s.ksumZero := rfl
@[simp] theorem noStep_win (s : State) : (noStep s).win = s.win := rfl
@[simp] theorem noStep_wvalid (s : State) : (noStep s).wvalid = s.wvalid := rfl
@[simp] theorem noStep_ys (s : State) : (noStep s).ys = s.ys := rfl
@[simp] theorem noStep_spec (s : State) : (noStep s).spec = s.spec := rfl
@[simp] theorem noStep_pk (s : State) : (noStep s).pk = s.pk := rfl
@[simp] theorem noStep_npf (s : State) : (noStep s).npf = s.npf := rfl
@[simp] theorem noStep_a (s : State) : (noStep s).a = s.a := rfl
@[simp] theorem noStep_t (s : State) : (noStep s).t = s.t := rfl
@[simp] theorem noStep_hq (s : State) : (noStep s).hq = s.hq := rfl
@[simp] theorem noStep_hashCount (s : State) : (noStep s).hashCount = s.hashCount := rfl
@[simp] theorem noStep_popped (s : State) : (noStep s).popped = s.popped := rfl
@[simp] theorem noStep_resp (s : State) : (noStep s).resp = s.resp := rfl
@[simp] theorem noStep_trace (s : State) : (noStep s).trace = s.trace := rfl
@[simp] theorem noStep_stap (s : State) : (noStep s).stap = s.stap := rfl
@[simp] theorem noStep_ptap (s : State) : (noStep s).ptap = s.ptap := rfl
@[simp] theorem noStep_script (s : State) : (noStep s).script = s.script := rfl

@[simp] theorem schedule_impl (e : Event) (s : State) : (schedule e s).impl = s.impl := rfl
@[simp] theorem schedule_phase (e : Event) (s : State) : (schedule e s).phase = s.phase := rfl
@[simp] theorem schedule_err (e : Event) (s : State) : (schedule e s).err = s.err := rfl
@[simp] theorem schedule_errInfo (e : Event) (s : State) : (schedule e s).errInfo = s.errInfo := rfl
@[simp] theorem schedule_irqEn (e : Event) (s : State) : (schedule e s).irqEn = s.irqEn := rfl
@[simp] theorem schedule_coefSel (e : Event) (s : State) : (schedule e s).coefSel = s.coefSel := rfl
@[simp] theorem schedule_srcRate (e : Event) (s : State) : (schedule e s).srcRate = s.srcRate := rfl
@[simp] theorem schedule_targetRate (e : Event) (s : State) : (schedule e s).targetRate = s.targetRate := rfl
@[simp] theorem schedule_minRate (e : Event) (s : State) : (schedule e s).minRate = s.minRate := rfl
@[simp] theorem schedule_filterTaps (e : Event) (s : State) : (schedule e s).filterTaps = s.filterTaps := rfl
@[simp] theorem schedule_frameSize (e : Event) (s : State) : (schedule e s).frameSize = s.frameSize := rfl
@[simp] theorem schedule_hopSize (e : Event) (s : State) : (schedule e s).hopSize = s.hopSize := rfl
@[simp] theorem schedule_numBands (e : Event) (s : State) : (schedule e s).numBands = s.numBands := rfl
@[simp] theorem schedule_targetZone (e : Event) (s : State) : (schedule e s).targetZone = s.targetZone := rfl
@[simp] theorem schedule_threshLo (e : Event) (s : State) : (schedule e s).threshLo = s.threshLo := rfl
@[simp] theorem schedule_threshHi (e : Event) (s : State) : (schedule e s).threshHi = s.threshHi := rfl
@[simp] theorem schedule_slo (e : Event) (s : State) : (schedule e s).slo = s.slo := rfl
@[simp] theorem schedule_inFifo (e : Event) (s : State) : (schedule e s).inFifo = s.inFifo := rfl
@[simp] theorem schedule_fin (e : Event) (s : State) : (schedule e s).fin = s.fin := rfl
@[simp] theorem schedule_xin (e : Event) (s : State) : (schedule e s).xin = s.xin := rfl
@[simp] theorem schedule_kern (e : Event) (s : State) : (schedule e s).kern = s.kern := rfl
@[simp] theorem schedule_kvalid (e : Event) (s : State) : (schedule e s).kvalid = s.kvalid := rfl
@[simp] theorem schedule_ksumZero (e : Event) (s : State) : (schedule e s).ksumZero = s.ksumZero := rfl
@[simp] theorem schedule_win (e : Event) (s : State) : (schedule e s).win = s.win := rfl
@[simp] theorem schedule_wvalid (e : Event) (s : State) : (schedule e s).wvalid = s.wvalid := rfl
@[simp] theorem schedule_ys (e : Event) (s : State) : (schedule e s).ys = s.ys := rfl
@[simp] theorem schedule_spec (e : Event) (s : State) : (schedule e s).spec = s.spec := rfl
@[simp] theorem schedule_pk (e : Event) (s : State) : (schedule e s).pk = s.pk := rfl
@[simp] theorem schedule_npf (e : Event) (s : State) : (schedule e s).npf = s.npf := rfl
@[simp] theorem schedule_a (e : Event) (s : State) : (schedule e s).a = s.a := rfl
@[simp] theorem schedule_t (e : Event) (s : State) : (schedule e s).t = s.t := rfl
@[simp] theorem schedule_hq (e : Event) (s : State) : (schedule e s).hq = s.hq := rfl
@[simp] theorem schedule_hashCount (e : Event) (s : State) : (schedule e s).hashCount = s.hashCount := rfl
@[simp] theorem schedule_popped (e : Event) (s : State) : (schedule e s).popped = s.popped := rfl
@[simp] theorem schedule_resp (e : Event) (s : State) : (schedule e s).resp = s.resp := rfl
@[simp] theorem schedule_trace (e : Event) (s : State) : (schedule e s).trace = s.trace := rfl
@[simp] theorem schedule_stap (e : Event) (s : State) : (schedule e s).stap = s.stap := rfl
@[simp] theorem schedule_ptap (e : Event) (s : State) : (schedule e s).ptap = s.ptap := rfl
@[simp] theorem schedule_script (e : Event) (s : State) : (schedule e s).script = e :: s.script := rfl

@[simp] theorem clearRun_impl (s : State) : (clearRun s).impl = s.impl := rfl
@[simp] theorem clearRun_phase (s : State) : (clearRun s).phase = s.phase := rfl
@[simp] theorem clearRun_err (s : State) : (clearRun s).err = s.err := rfl
@[simp] theorem clearRun_errInfo (s : State) : (clearRun s).errInfo = s.errInfo := rfl
@[simp] theorem clearRun_irqEn (s : State) : (clearRun s).irqEn = s.irqEn := rfl
@[simp] theorem clearRun_coefSel (s : State) : (clearRun s).coefSel = s.coefSel := rfl
@[simp] theorem clearRun_srcRate (s : State) : (clearRun s).srcRate = s.srcRate := rfl
@[simp] theorem clearRun_targetRate (s : State) : (clearRun s).targetRate = s.targetRate := rfl
@[simp] theorem clearRun_minRate (s : State) : (clearRun s).minRate = s.minRate := rfl
@[simp] theorem clearRun_filterTaps (s : State) : (clearRun s).filterTaps = s.filterTaps := rfl
@[simp] theorem clearRun_frameSize (s : State) : (clearRun s).frameSize = s.frameSize := rfl
@[simp] theorem clearRun_hopSize (s : State) : (clearRun s).hopSize = s.hopSize := rfl
@[simp] theorem clearRun_numBands (s : State) : (clearRun s).numBands = s.numBands := rfl
@[simp] theorem clearRun_targetZone (s : State) : (clearRun s).targetZone = s.targetZone := rfl
@[simp] theorem clearRun_threshLo (s : State) : (clearRun s).threshLo = s.threshLo := rfl
@[simp] theorem clearRun_threshHi (s : State) : (clearRun s).threshHi = s.threshHi := rfl
@[simp] theorem clearRun_slo (s : State) : (clearRun s).slo = 0#32 := rfl
@[simp] theorem clearRun_inFifo (s : State) : (clearRun s).inFifo = [] := rfl
@[simp] theorem clearRun_fin (s : State) : (clearRun s).fin = false := rfl
@[simp] theorem clearRun_xin (s : State) : (clearRun s).xin = [] := rfl
@[simp] theorem clearRun_kern (s : State) : (clearRun s).kern = [] := rfl
@[simp] theorem clearRun_kvalid (s : State) : (clearRun s).kvalid = false := rfl
@[simp] theorem clearRun_ksumZero (s : State) : (clearRun s).ksumZero = false := rfl
@[simp] theorem clearRun_win (s : State) : (clearRun s).win = [] := rfl
@[simp] theorem clearRun_wvalid (s : State) : (clearRun s).wvalid = false := rfl
@[simp] theorem clearRun_ys (s : State) : (clearRun s).ys = [] := rfl
@[simp] theorem clearRun_spec (s : State) : (clearRun s).spec = [] := rfl
@[simp] theorem clearRun_pk (s : State) : (clearRun s).pk = [] := rfl
@[simp] theorem clearRun_npf (s : State) : (clearRun s).npf = 0 := rfl
@[simp] theorem clearRun_a (s : State) : (clearRun s).a = 0 := rfl
@[simp] theorem clearRun_t (s : State) : (clearRun s).t = 1 := rfl
@[simp] theorem clearRun_hq (s : State) : (clearRun s).hq = [] := rfl
@[simp] theorem clearRun_hashCount (s : State) : (clearRun s).hashCount = 0 := rfl
@[simp] theorem clearRun_popped (s : State) : (clearRun s).popped = [] := rfl
@[simp] theorem clearRun_resp (s : State) : (clearRun s).resp = s.resp := rfl
@[simp] theorem clearRun_trace (s : State) : (clearRun s).trace = s.trace := rfl
@[simp] theorem clearRun_stap (s : State) : (clearRun s).stap = s.stap := rfl
@[simp] theorem clearRun_ptap (s : State) : (clearRun s).ptap = s.ptap := rfl
@[simp] theorem clearRun_script (s : State) : (clearRun s).script = s.script := rfl

@[simp] theorem leaveRun_impl (s : State) : (leaveRun s).impl = s.impl := rfl
@[simp] theorem leaveRun_phase (s : State) : (leaveRun s).phase = .idle := rfl
@[simp] theorem leaveRun_err (s : State) : (leaveRun s).err = 0#32 := rfl
@[simp] theorem leaveRun_errInfo (s : State) : (leaveRun s).errInfo = 0#32 := rfl
@[simp] theorem leaveRun_irqEn (s : State) : (leaveRun s).irqEn = s.irqEn := rfl
@[simp] theorem leaveRun_coefSel (s : State) : (leaveRun s).coefSel = s.coefSel := rfl
@[simp] theorem leaveRun_srcRate (s : State) : (leaveRun s).srcRate = s.srcRate := rfl
@[simp] theorem leaveRun_targetRate (s : State) : (leaveRun s).targetRate = s.targetRate := rfl
@[simp] theorem leaveRun_minRate (s : State) : (leaveRun s).minRate = s.minRate := rfl
@[simp] theorem leaveRun_filterTaps (s : State) : (leaveRun s).filterTaps = s.filterTaps := rfl
@[simp] theorem leaveRun_frameSize (s : State) : (leaveRun s).frameSize = s.frameSize := rfl
@[simp] theorem leaveRun_hopSize (s : State) : (leaveRun s).hopSize = s.hopSize := rfl
@[simp] theorem leaveRun_numBands (s : State) : (leaveRun s).numBands = s.numBands := rfl
@[simp] theorem leaveRun_targetZone (s : State) : (leaveRun s).targetZone = s.targetZone := rfl
@[simp] theorem leaveRun_threshLo (s : State) : (leaveRun s).threshLo = s.threshLo := rfl
@[simp] theorem leaveRun_threshHi (s : State) : (leaveRun s).threshHi = s.threshHi := rfl
@[simp] theorem leaveRun_slo (s : State) : (leaveRun s).slo = 0#32 := rfl
@[simp] theorem leaveRun_inFifo (s : State) : (leaveRun s).inFifo = [] := rfl
@[simp] theorem leaveRun_fin (s : State) : (leaveRun s).fin = false := rfl
@[simp] theorem leaveRun_xin (s : State) : (leaveRun s).xin = [] := rfl
@[simp] theorem leaveRun_kern (s : State) : (leaveRun s).kern = [] := rfl
@[simp] theorem leaveRun_kvalid (s : State) : (leaveRun s).kvalid = false := rfl
@[simp] theorem leaveRun_ksumZero (s : State) : (leaveRun s).ksumZero = false := rfl
@[simp] theorem leaveRun_win (s : State) : (leaveRun s).win = [] := rfl
@[simp] theorem leaveRun_wvalid (s : State) : (leaveRun s).wvalid = false := rfl
@[simp] theorem leaveRun_ys (s : State) : (leaveRun s).ys = [] := rfl
@[simp] theorem leaveRun_spec (s : State) : (leaveRun s).spec = [] := rfl
@[simp] theorem leaveRun_pk (s : State) : (leaveRun s).pk = [] := rfl
@[simp] theorem leaveRun_npf (s : State) : (leaveRun s).npf = 0 := rfl
@[simp] theorem leaveRun_a (s : State) : (leaveRun s).a = 0 := rfl
@[simp] theorem leaveRun_t (s : State) : (leaveRun s).t = 1 := rfl
@[simp] theorem leaveRun_hq (s : State) : (leaveRun s).hq = [] := rfl
@[simp] theorem leaveRun_hashCount (s : State) : (leaveRun s).hashCount = 0 := rfl
@[simp] theorem leaveRun_popped (s : State) : (leaveRun s).popped = [] := rfl
@[simp] theorem leaveRun_resp (s : State) : (leaveRun s).resp = s.resp := rfl
@[simp] theorem leaveRun_trace (s : State) : (leaveRun s).trace = s.trace := rfl
@[simp] theorem leaveRun_stap (s : State) : (leaveRun s).stap = s.stap := rfl
@[simp] theorem leaveRun_ptap (s : State) : (leaveRun s).ptap = s.ptap := rfl
@[simp] theorem leaveRun_script (s : State) : (leaveRun s).script = s.script := rfl

@[simp] theorem resetBlock_impl (s : State) : (resetBlock s).impl = s.impl := rfl
@[simp] theorem resetBlock_phase (s : State) : (resetBlock s).phase = State.reset.phase := rfl
@[simp] theorem resetBlock_err (s : State) : (resetBlock s).err = State.reset.err := rfl
@[simp] theorem resetBlock_errInfo (s : State) : (resetBlock s).errInfo = State.reset.errInfo := rfl
@[simp] theorem resetBlock_irqEn (s : State) : (resetBlock s).irqEn = State.reset.irqEn := rfl
@[simp] theorem resetBlock_coefSel (s : State) : (resetBlock s).coefSel = State.reset.coefSel := rfl
@[simp] theorem resetBlock_srcRate (s : State) : (resetBlock s).srcRate = State.reset.srcRate := rfl
@[simp] theorem resetBlock_targetRate (s : State) : (resetBlock s).targetRate = State.reset.targetRate := rfl
@[simp] theorem resetBlock_minRate (s : State) : (resetBlock s).minRate = State.reset.minRate := rfl
@[simp] theorem resetBlock_filterTaps (s : State) : (resetBlock s).filterTaps = State.reset.filterTaps := rfl
@[simp] theorem resetBlock_frameSize (s : State) : (resetBlock s).frameSize = State.reset.frameSize := rfl
@[simp] theorem resetBlock_hopSize (s : State) : (resetBlock s).hopSize = State.reset.hopSize := rfl
@[simp] theorem resetBlock_numBands (s : State) : (resetBlock s).numBands = State.reset.numBands := rfl
@[simp] theorem resetBlock_targetZone (s : State) : (resetBlock s).targetZone = State.reset.targetZone := rfl
@[simp] theorem resetBlock_threshLo (s : State) : (resetBlock s).threshLo = State.reset.threshLo := rfl
@[simp] theorem resetBlock_threshHi (s : State) : (resetBlock s).threshHi = State.reset.threshHi := rfl
@[simp] theorem resetBlock_slo (s : State) : (resetBlock s).slo = State.reset.slo := rfl
@[simp] theorem resetBlock_inFifo (s : State) : (resetBlock s).inFifo = State.reset.inFifo := rfl
@[simp] theorem resetBlock_fin (s : State) : (resetBlock s).fin = State.reset.fin := rfl
@[simp] theorem resetBlock_xin (s : State) : (resetBlock s).xin = State.reset.xin := rfl
@[simp] theorem resetBlock_kern (s : State) : (resetBlock s).kern = State.reset.kern := rfl
@[simp] theorem resetBlock_kvalid (s : State) : (resetBlock s).kvalid = State.reset.kvalid := rfl
@[simp] theorem resetBlock_ksumZero (s : State) : (resetBlock s).ksumZero = State.reset.ksumZero := rfl
@[simp] theorem resetBlock_win (s : State) : (resetBlock s).win = State.reset.win := rfl
@[simp] theorem resetBlock_wvalid (s : State) : (resetBlock s).wvalid = State.reset.wvalid := rfl
@[simp] theorem resetBlock_ys (s : State) : (resetBlock s).ys = State.reset.ys := rfl
@[simp] theorem resetBlock_spec (s : State) : (resetBlock s).spec = State.reset.spec := rfl
@[simp] theorem resetBlock_pk (s : State) : (resetBlock s).pk = State.reset.pk := rfl
@[simp] theorem resetBlock_npf (s : State) : (resetBlock s).npf = State.reset.npf := rfl
@[simp] theorem resetBlock_a (s : State) : (resetBlock s).a = State.reset.a := rfl
@[simp] theorem resetBlock_t (s : State) : (resetBlock s).t = State.reset.t := rfl
@[simp] theorem resetBlock_hq (s : State) : (resetBlock s).hq = State.reset.hq := rfl
@[simp] theorem resetBlock_hashCount (s : State) : (resetBlock s).hashCount = State.reset.hashCount := rfl
@[simp] theorem resetBlock_popped (s : State) : (resetBlock s).popped = State.reset.popped := rfl
@[simp] theorem resetBlock_resp (s : State) : (resetBlock s).resp = State.reset.resp := rfl
@[simp] theorem resetBlock_trace (s : State) : (resetBlock s).trace = s.trace := rfl
@[simp] theorem resetBlock_stap (s : State) : (resetBlock s).stap = s.stap := rfl
@[simp] theorem resetBlock_ptap (s : State) : (resetBlock s).ptap = s.ptap := rfl
@[simp] theorem resetBlock_script (s : State) : (resetBlock s).script = s.script := rfl

@[simp] theorem enterFault_impl (sub : FaultSub) (info : Word) (s : State) : (enterFault sub info s).impl = s.impl := rfl
@[simp] theorem enterFault_phase (sub : FaultSub) (info : Word) (s : State) : (enterFault sub info s).phase = .fault := rfl
@[simp] theorem enterFault_err (sub : FaultSub) (info : Word) (s : State) : (enterFault sub info s).err = errWordOf sub := rfl
@[simp] theorem enterFault_errInfo (sub : FaultSub) (info : Word) (s : State) : (enterFault sub info s).errInfo = info := rfl
@[simp] theorem enterFault_irqEn (sub : FaultSub) (info : Word) (s : State) : (enterFault sub info s).irqEn = s.irqEn := rfl
@[simp] theorem enterFault_coefSel (sub : FaultSub) (info : Word) (s : State) : (enterFault sub info s).coefSel = s.coefSel := rfl
@[simp] theorem enterFault_srcRate (sub : FaultSub) (info : Word) (s : State) : (enterFault sub info s).srcRate = s.srcRate := rfl
@[simp] theorem enterFault_targetRate (sub : FaultSub) (info : Word) (s : State) : (enterFault sub info s).targetRate = s.targetRate := rfl
@[simp] theorem enterFault_minRate (sub : FaultSub) (info : Word) (s : State) : (enterFault sub info s).minRate = s.minRate := rfl
@[simp] theorem enterFault_filterTaps (sub : FaultSub) (info : Word) (s : State) : (enterFault sub info s).filterTaps = s.filterTaps := rfl
@[simp] theorem enterFault_frameSize (sub : FaultSub) (info : Word) (s : State) : (enterFault sub info s).frameSize = s.frameSize := rfl
@[simp] theorem enterFault_hopSize (sub : FaultSub) (info : Word) (s : State) : (enterFault sub info s).hopSize = s.hopSize := rfl
@[simp] theorem enterFault_numBands (sub : FaultSub) (info : Word) (s : State) : (enterFault sub info s).numBands = s.numBands := rfl
@[simp] theorem enterFault_targetZone (sub : FaultSub) (info : Word) (s : State) : (enterFault sub info s).targetZone = s.targetZone := rfl
@[simp] theorem enterFault_threshLo (sub : FaultSub) (info : Word) (s : State) : (enterFault sub info s).threshLo = s.threshLo := rfl
@[simp] theorem enterFault_threshHi (sub : FaultSub) (info : Word) (s : State) : (enterFault sub info s).threshHi = s.threshHi := rfl
@[simp] theorem enterFault_slo (sub : FaultSub) (info : Word) (s : State) : (enterFault sub info s).slo = s.slo := rfl
@[simp] theorem enterFault_inFifo (sub : FaultSub) (info : Word) (s : State) : (enterFault sub info s).inFifo = s.inFifo := rfl
@[simp] theorem enterFault_fin (sub : FaultSub) (info : Word) (s : State) : (enterFault sub info s).fin = s.fin := rfl
@[simp] theorem enterFault_xin (sub : FaultSub) (info : Word) (s : State) : (enterFault sub info s).xin = s.xin := rfl
@[simp] theorem enterFault_kern (sub : FaultSub) (info : Word) (s : State) : (enterFault sub info s).kern = s.kern := rfl
@[simp] theorem enterFault_kvalid (sub : FaultSub) (info : Word) (s : State) : (enterFault sub info s).kvalid = s.kvalid := rfl
@[simp] theorem enterFault_ksumZero (sub : FaultSub) (info : Word) (s : State) : (enterFault sub info s).ksumZero = s.ksumZero := rfl
@[simp] theorem enterFault_win (sub : FaultSub) (info : Word) (s : State) : (enterFault sub info s).win = s.win := rfl
@[simp] theorem enterFault_wvalid (sub : FaultSub) (info : Word) (s : State) : (enterFault sub info s).wvalid = s.wvalid := rfl
@[simp] theorem enterFault_ys (sub : FaultSub) (info : Word) (s : State) : (enterFault sub info s).ys = s.ys := rfl
@[simp] theorem enterFault_spec (sub : FaultSub) (info : Word) (s : State) : (enterFault sub info s).spec = s.spec := rfl
@[simp] theorem enterFault_pk (sub : FaultSub) (info : Word) (s : State) : (enterFault sub info s).pk = s.pk := rfl
@[simp] theorem enterFault_npf (sub : FaultSub) (info : Word) (s : State) : (enterFault sub info s).npf = s.npf := rfl
@[simp] theorem enterFault_a (sub : FaultSub) (info : Word) (s : State) : (enterFault sub info s).a = s.a := rfl
@[simp] theorem enterFault_t (sub : FaultSub) (info : Word) (s : State) : (enterFault sub info s).t = s.t := rfl
@[simp] theorem enterFault_hq (sub : FaultSub) (info : Word) (s : State) : (enterFault sub info s).hq = [] := rfl
@[simp] theorem enterFault_hashCount (sub : FaultSub) (info : Word) (s : State) : (enterFault sub info s).hashCount = s.hashCount := rfl
@[simp] theorem enterFault_popped (sub : FaultSub) (info : Word) (s : State) : (enterFault sub info s).popped = s.popped := rfl
@[simp] theorem enterFault_resp (sub : FaultSub) (info : Word) (s : State) : (enterFault sub info s).resp = some ⟨false, 0#32⟩ := rfl
@[simp] theorem enterFault_trace (sub : FaultSub) (info : Word) (s : State) : (enterFault sub info s).trace = s.trace ++ [⟨10#4, low32 (errWordOf sub).toNat⟩] := rfl
@[simp] theorem enterFault_stap (sub : FaultSub) (info : Word) (s : State) : (enterFault sub info s).stap = s.stap := rfl
@[simp] theorem enterFault_ptap (sub : FaultSub) (info : Word) (s : State) : (enterFault sub info s).ptap = s.ptap := rfl
@[simp] theorem enterFault_script (sub : FaultSub) (info : Word) (s : State) : (enterFault sub info s).script = s.script := rfl

@[simp] theorem respond_Fs (v : Word) (s : State) : (respond v s).Fs = s.Fs := rfl
@[simp] theorem respond_Ft (v : Word) (s : State) : (respond v s).Ft = s.Ft := rfl
@[simp] theorem respond_NT (v : Word) (s : State) : (respond v s).NT = s.NT := rfl
@[simp] theorem respond_M (v : Word) (s : State) : (respond v s).M = s.M := rfl
@[simp] theorem respond_F (v : Word) (s : State) : (respond v s).F = s.F := rfl
@[simp] theorem respond_H (v : Word) (s : State) : (respond v s).H = s.H := rfl
@[simp] theorem respond_NB (v : Word) (s : State) : (respond v s).NB = s.NB := rfl
@[simp] theorem respond_Z (v : Word) (s : State) : (respond v s).Z = s.Z := rfl
@[simp] theorem respond_MULT (v : Word) (s : State) : (respond v s).MULT = s.MULT := rfl
@[simp] theorem respond_B (v : Word) (s : State) : (respond v s).B = s.B := rfl
@[simp] theorem respond_n (v : Word) (s : State) : (respond v s).n = s.n := rfl
@[simp] theorem respond_m (v : Word) (s : State) : (respond v s).m = s.m := rfl
@[simp] theorem respond_P (v : Word) (s : State) : (respond v s).P = s.P := rfl
@[simp] theorem respond_accepted (v : Word) (s : State) : (respond v s).accepted = s.accepted := rfl
@[simp] theorem respond_frames (v : Word) (s : State) : (respond v s).frames = s.frames := rfl
@[simp] theorem respond_xdone (v : Word) (s : State) : xdone (respond v s) = xdone s := rfl
@[simp] theorem respond_ydone (v : Word) (s : State) : ydone (respond v s) = ydone s := rfl
@[simp] theorem respond_sdone (v : Word) (s : State) : sdone (respond v s) = sdone s := rfl
@[simp] theorem respond_pdone (v : Word) (s : State) : pdone (respond v s) = pdone s := rfl
@[simp] theorem respond_hdone (v : Word) (s : State) : hdone (respond v s) = hdone s := rfl
@[simp] theorem respond_roomForSample (v : Word) (s : State) : roomForSample (respond v s) = roomForSample s := rfl
@[simp] theorem respond_inReady (v : Word) (s : State) : inReady (respond v s) = inReady s := rfl
@[simp] theorem respond_stageOk (v : Word) (s : State) : stageOk (respond v s) = stageOk s := rfl
@[simp] theorem respond_hashAvail (v : Word) (s : State) : hashAvail (respond v s) = hashAvail s := rfl
@[simp] theorem respond_statusWord (v : Word) (s : State) : statusWord (respond v s) = statusWord s := rfl
@[simp] theorem respond_irqPendWord (v : Word) (s : State) : irqPendWord (respond v s) = irqPendWord s := rfl
@[simp] theorem respond_irqLine (v : Word) (s : State) : irqLine (respond v s) = irqLine s := rfl

@[simp] theorem accept_Fs (s : State) : (accept s).Fs = s.Fs := rfl
@[simp] theorem accept_Ft (s : State) : (accept s).Ft = s.Ft := rfl
@[simp] theorem accept_NT (s : State) : (accept s).NT = s.NT := rfl
@[simp] theorem accept_M (s : State) : (accept s).M = s.M := rfl
@[simp] theorem accept_F (s : State) : (accept s).F = s.F := rfl
@[simp] theorem accept_H (s : State) : (accept s).H = s.H := rfl
@[simp] theorem accept_NB (s : State) : (accept s).NB = s.NB := rfl
@[simp] theorem accept_Z (s : State) : (accept s).Z = s.Z := rfl
@[simp] theorem accept_MULT (s : State) : (accept s).MULT = s.MULT := rfl
@[simp] theorem accept_B (s : State) : (accept s).B = s.B := rfl
@[simp] theorem accept_n (s : State) : (accept s).n = s.n := rfl
@[simp] theorem accept_m (s : State) : (accept s).m = s.m := rfl
@[simp] theorem accept_P (s : State) : (accept s).P = s.P := rfl
@[simp] theorem accept_accepted (s : State) : (accept s).accepted = s.accepted := rfl
@[simp] theorem accept_frames (s : State) : (accept s).frames = s.frames := rfl
@[simp] theorem accept_xdone (s : State) : xdone (accept s) = xdone s := rfl
@[simp] theorem accept_ydone (s : State) : ydone (accept s) = ydone s := rfl
@[simp] theorem accept_sdone (s : State) : sdone (accept s) = sdone s := rfl
@[simp] theorem accept_pdone (s : State) : pdone (accept s) = pdone s := rfl
@[simp] theorem accept_hdone (s : State) : hdone (accept s) = hdone s := rfl
@[simp] theorem accept_roomForSample (s : State) : roomForSample (accept s) = roomForSample s := rfl
@[simp] theorem accept_inReady (s : State) : inReady (accept s) = inReady s := rfl
@[simp] theorem accept_stageOk (s : State) : stageOk (accept s) = stageOk s := rfl
@[simp] theorem accept_hashAvail (s : State) : hashAvail (accept s) = hashAvail s := rfl
@[simp] theorem accept_statusWord (s : State) : statusWord (accept s) = statusWord s := rfl
@[simp] theorem accept_irqPendWord (s : State) : irqPendWord (accept s) = irqPendWord s := rfl
@[simp] theorem accept_irqLine (s : State) : irqLine (accept s) = irqLine s := rfl

@[simp] theorem refuse_Fs (s : State) : (refuse s).Fs = s.Fs := rfl
@[simp] theorem refuse_Ft (s : State) : (refuse s).Ft = s.Ft := rfl
@[simp] theorem refuse_NT (s : State) : (refuse s).NT = s.NT := rfl
@[simp] theorem refuse_M (s : State) : (refuse s).M = s.M := rfl
@[simp] theorem refuse_F (s : State) : (refuse s).F = s.F := rfl
@[simp] theorem refuse_H (s : State) : (refuse s).H = s.H := rfl
@[simp] theorem refuse_NB (s : State) : (refuse s).NB = s.NB := rfl
@[simp] theorem refuse_Z (s : State) : (refuse s).Z = s.Z := rfl
@[simp] theorem refuse_MULT (s : State) : (refuse s).MULT = s.MULT := rfl
@[simp] theorem refuse_B (s : State) : (refuse s).B = s.B := rfl
@[simp] theorem refuse_n (s : State) : (refuse s).n = s.n := rfl
@[simp] theorem refuse_m (s : State) : (refuse s).m = s.m := rfl
@[simp] theorem refuse_P (s : State) : (refuse s).P = s.P := rfl
@[simp] theorem refuse_accepted (s : State) : (refuse s).accepted = s.accepted := rfl
@[simp] theorem refuse_frames (s : State) : (refuse s).frames = s.frames := rfl
@[simp] theorem refuse_xdone (s : State) : xdone (refuse s) = xdone s := rfl
@[simp] theorem refuse_ydone (s : State) : ydone (refuse s) = ydone s := rfl
@[simp] theorem refuse_sdone (s : State) : sdone (refuse s) = sdone s := rfl
@[simp] theorem refuse_pdone (s : State) : pdone (refuse s) = pdone s := rfl
@[simp] theorem refuse_hdone (s : State) : hdone (refuse s) = hdone s := rfl
@[simp] theorem refuse_roomForSample (s : State) : roomForSample (refuse s) = roomForSample s := rfl
@[simp] theorem refuse_inReady (s : State) : inReady (refuse s) = inReady s := rfl
@[simp] theorem refuse_stageOk (s : State) : stageOk (refuse s) = stageOk s := rfl
@[simp] theorem refuse_hashAvail (s : State) : hashAvail (refuse s) = hashAvail s := rfl
@[simp] theorem refuse_statusWord (s : State) : statusWord (refuse s) = statusWord s := rfl
@[simp] theorem refuse_irqPendWord (s : State) : irqPendWord (refuse s) = irqPendWord s := rfl
@[simp] theorem refuse_irqLine (s : State) : irqLine (refuse s) = irqLine s := rfl

@[simp] theorem emit_Fs (op : BitVec 4) (idx : Nat) (s : State) : (emit op idx s).Fs = s.Fs := rfl
@[simp] theorem emit_Ft (op : BitVec 4) (idx : Nat) (s : State) : (emit op idx s).Ft = s.Ft := rfl
@[simp] theorem emit_NT (op : BitVec 4) (idx : Nat) (s : State) : (emit op idx s).NT = s.NT := rfl
@[simp] theorem emit_M (op : BitVec 4) (idx : Nat) (s : State) : (emit op idx s).M = s.M := rfl
@[simp] theorem emit_F (op : BitVec 4) (idx : Nat) (s : State) : (emit op idx s).F = s.F := rfl
@[simp] theorem emit_H (op : BitVec 4) (idx : Nat) (s : State) : (emit op idx s).H = s.H := rfl
@[simp] theorem emit_NB (op : BitVec 4) (idx : Nat) (s : State) : (emit op idx s).NB = s.NB := rfl
@[simp] theorem emit_Z (op : BitVec 4) (idx : Nat) (s : State) : (emit op idx s).Z = s.Z := rfl
@[simp] theorem emit_MULT (op : BitVec 4) (idx : Nat) (s : State) : (emit op idx s).MULT = s.MULT := rfl
@[simp] theorem emit_B (op : BitVec 4) (idx : Nat) (s : State) : (emit op idx s).B = s.B := rfl
@[simp] theorem emit_n (op : BitVec 4) (idx : Nat) (s : State) : (emit op idx s).n = s.n := rfl
@[simp] theorem emit_m (op : BitVec 4) (idx : Nat) (s : State) : (emit op idx s).m = s.m := rfl
@[simp] theorem emit_P (op : BitVec 4) (idx : Nat) (s : State) : (emit op idx s).P = s.P := rfl
@[simp] theorem emit_accepted (op : BitVec 4) (idx : Nat) (s : State) : (emit op idx s).accepted = s.accepted := rfl
@[simp] theorem emit_frames (op : BitVec 4) (idx : Nat) (s : State) : (emit op idx s).frames = s.frames := rfl
@[simp] theorem emit_xdone (op : BitVec 4) (idx : Nat) (s : State) : xdone (emit op idx s) = xdone s := rfl
@[simp] theorem emit_ydone (op : BitVec 4) (idx : Nat) (s : State) : ydone (emit op idx s) = ydone s := rfl
@[simp] theorem emit_sdone (op : BitVec 4) (idx : Nat) (s : State) : sdone (emit op idx s) = sdone s := rfl
@[simp] theorem emit_pdone (op : BitVec 4) (idx : Nat) (s : State) : pdone (emit op idx s) = pdone s := rfl
@[simp] theorem emit_hdone (op : BitVec 4) (idx : Nat) (s : State) : hdone (emit op idx s) = hdone s := rfl
@[simp] theorem emit_roomForSample (op : BitVec 4) (idx : Nat) (s : State) : roomForSample (emit op idx s) = roomForSample s := rfl
@[simp] theorem emit_inReady (op : BitVec 4) (idx : Nat) (s : State) : inReady (emit op idx s) = inReady s := rfl
@[simp] theorem emit_stageOk (op : BitVec 4) (idx : Nat) (s : State) : stageOk (emit op idx s) = stageOk s := rfl
@[simp] theorem emit_hashAvail (op : BitVec 4) (idx : Nat) (s : State) : hashAvail (emit op idx s) = hashAvail s := rfl
@[simp] theorem emit_statusWord (op : BitVec 4) (idx : Nat) (s : State) : statusWord (emit op idx s) = statusWord s := rfl
@[simp] theorem emit_irqPendWord (op : BitVec 4) (idx : Nat) (s : State) : irqPendWord (emit op idx s) = irqPendWord s := rfl
@[simp] theorem emit_irqLine (op : BitVec 4) (idx : Nat) (s : State) : irqLine (emit op idx s) = irqLine s := rfl

@[simp] theorem noStep_Fs (s : State) : (noStep s).Fs = s.Fs := rfl
@[simp] theorem noStep_Ft (s : State) : (noStep s).Ft = s.Ft := rfl
@[simp] theorem noStep_NT (s : State) : (noStep s).NT = s.NT := rfl
@[simp] theorem noStep_M (s : State) : (noStep s).M = s.M := rfl
@[simp] theorem noStep_F (s : State) : (noStep s).F = s.F := rfl
@[simp] theorem noStep_H (s : State) : (noStep s).H = s.H := rfl
@[simp] theorem noStep_NB (s : State) : (noStep s).NB = s.NB := rfl
@[simp] theorem noStep_Z (s : State) : (noStep s).Z = s.Z := rfl
@[simp] theorem noStep_MULT (s : State) : (noStep s).MULT = s.MULT := rfl
@[simp] theorem noStep_B (s : State) : (noStep s).B = s.B := rfl
@[simp] theorem noStep_n (s : State) : (noStep s).n = s.n := rfl
@[simp] theorem noStep_m (s : State) : (noStep s).m = s.m := rfl
@[simp] theorem noStep_P (s : State) : (noStep s).P = s.P := rfl
@[simp] theorem noStep_accepted (s : State) : (noStep s).accepted = s.accepted := rfl
@[simp] theorem noStep_frames (s : State) : (noStep s).frames = s.frames := rfl
@[simp] theorem noStep_xdone (s : State) : xdone (noStep s) = xdone s := rfl
@[simp] theorem noStep_ydone (s : State) : ydone (noStep s) = ydone s := rfl
@[simp] theorem noStep_sdone (s : State) : sdone (noStep s) = sdone s := rfl
@[simp] theorem noStep_pdone (s : State) : pdone (noStep s) = pdone s := rfl
@[simp] theorem noStep_hdone (s : State) : hdone (noStep s) = hdone s := rfl
@[simp] theorem noStep_roomForSample (s : State) : roomForSample (noStep s) = roomForSample s := rfl
@[simp] theorem noStep_inReady (s : State) : inReady (noStep s) = inReady s := rfl
@[simp] theorem noStep_stageOk (s : State) : stageOk (noStep s) = stageOk s := rfl
@[simp] theorem noStep_hashAvail (s : State) : hashAvail (noStep s) = hashAvail s := rfl
@[simp] theorem noStep_statusWord (s : State) : statusWord (noStep s) = statusWord s := rfl
@[simp] theorem noStep_irqPendWord (s : State) : irqPendWord (noStep s) = irqPendWord s := rfl
@[simp] theorem noStep_irqLine (s : State) : irqLine (noStep s) = irqLine s := rfl

@[simp] theorem schedule_Fs (e : Event) (s : State) : (schedule e s).Fs = s.Fs := rfl
@[simp] theorem schedule_Ft (e : Event) (s : State) : (schedule e s).Ft = s.Ft := rfl
@[simp] theorem schedule_NT (e : Event) (s : State) : (schedule e s).NT = s.NT := rfl
@[simp] theorem schedule_M (e : Event) (s : State) : (schedule e s).M = s.M := rfl
@[simp] theorem schedule_F (e : Event) (s : State) : (schedule e s).F = s.F := rfl
@[simp] theorem schedule_H (e : Event) (s : State) : (schedule e s).H = s.H := rfl
@[simp] theorem schedule_NB (e : Event) (s : State) : (schedule e s).NB = s.NB := rfl
@[simp] theorem schedule_Z (e : Event) (s : State) : (schedule e s).Z = s.Z := rfl
@[simp] theorem schedule_MULT (e : Event) (s : State) : (schedule e s).MULT = s.MULT := rfl
@[simp] theorem schedule_B (e : Event) (s : State) : (schedule e s).B = s.B := rfl
@[simp] theorem schedule_n (e : Event) (s : State) : (schedule e s).n = s.n := rfl
@[simp] theorem schedule_m (e : Event) (s : State) : (schedule e s).m = s.m := rfl
@[simp] theorem schedule_P (e : Event) (s : State) : (schedule e s).P = s.P := rfl
@[simp] theorem schedule_accepted (e : Event) (s : State) : (schedule e s).accepted = s.accepted := rfl
@[simp] theorem schedule_frames (e : Event) (s : State) : (schedule e s).frames = s.frames := rfl
@[simp] theorem schedule_xdone (e : Event) (s : State) : xdone (schedule e s) = xdone s := rfl
@[simp] theorem schedule_ydone (e : Event) (s : State) : ydone (schedule e s) = ydone s := rfl
@[simp] theorem schedule_sdone (e : Event) (s : State) : sdone (schedule e s) = sdone s := rfl
@[simp] theorem schedule_pdone (e : Event) (s : State) : pdone (schedule e s) = pdone s := rfl
@[simp] theorem schedule_hdone (e : Event) (s : State) : hdone (schedule e s) = hdone s := rfl
@[simp] theorem schedule_roomForSample (e : Event) (s : State) : roomForSample (schedule e s) = roomForSample s := rfl
@[simp] theorem schedule_inReady (e : Event) (s : State) : inReady (schedule e s) = inReady s := rfl
@[simp] theorem schedule_stageOk (e : Event) (s : State) : stageOk (schedule e s) = stageOk s := rfl
@[simp] theorem schedule_hashAvail (e : Event) (s : State) : hashAvail (schedule e s) = hashAvail s := rfl
@[simp] theorem schedule_statusWord (e : Event) (s : State) : statusWord (schedule e s) = statusWord s := rfl
@[simp] theorem schedule_irqPendWord (e : Event) (s : State) : irqPendWord (schedule e s) = irqPendWord s := rfl
@[simp] theorem schedule_irqLine (e : Event) (s : State) : irqLine (schedule e s) = irqLine s := rfl

@[simp] theorem clearRun_Fs (s : State) : (clearRun s).Fs = s.Fs := rfl
@[simp] theorem clearRun_Ft (s : State) : (clearRun s).Ft = s.Ft := rfl
@[simp] theorem clearRun_NT (s : State) : (clearRun s).NT = s.NT := rfl
@[simp] theorem clearRun_M (s : State) : (clearRun s).M = s.M := rfl
@[simp] theorem clearRun_F (s : State) : (clearRun s).F = s.F := rfl
@[simp] theorem clearRun_H (s : State) : (clearRun s).H = s.H := rfl
@[simp] theorem clearRun_NB (s : State) : (clearRun s).NB = s.NB := rfl
@[simp] theorem clearRun_Z (s : State) : (clearRun s).Z = s.Z := rfl
@[simp] theorem clearRun_MULT (s : State) : (clearRun s).MULT = s.MULT := rfl
@[simp] theorem clearRun_B (s : State) : (clearRun s).B = s.B := rfl
@[simp] theorem clearRun_n (s : State) : (clearRun s).n = 0 := rfl
@[simp] theorem clearRun_m (s : State) : (clearRun s).m = 0 := rfl
@[simp] theorem clearRun_P (s : State) : (clearRun s).P = 0 := rfl
@[simp] theorem clearRun_accepted (s : State) : (clearRun s).accepted = 0 := rfl

@[simp] theorem leaveRun_Fs (s : State) : (leaveRun s).Fs = s.Fs := rfl
@[simp] theorem leaveRun_Ft (s : State) : (leaveRun s).Ft = s.Ft := rfl
@[simp] theorem leaveRun_NT (s : State) : (leaveRun s).NT = s.NT := rfl
@[simp] theorem leaveRun_M (s : State) : (leaveRun s).M = s.M := rfl
@[simp] theorem leaveRun_F (s : State) : (leaveRun s).F = s.F := rfl
@[simp] theorem leaveRun_H (s : State) : (leaveRun s).H = s.H := rfl
@[simp] theorem leaveRun_NB (s : State) : (leaveRun s).NB = s.NB := rfl
@[simp] theorem leaveRun_Z (s : State) : (leaveRun s).Z = s.Z := rfl
@[simp] theorem leaveRun_MULT (s : State) : (leaveRun s).MULT = s.MULT := rfl
@[simp] theorem leaveRun_B (s : State) : (leaveRun s).B = s.B := rfl
@[simp] theorem leaveRun_n (s : State) : (leaveRun s).n = 0 := rfl
@[simp] theorem leaveRun_m (s : State) : (leaveRun s).m = 0 := rfl
@[simp] theorem leaveRun_P (s : State) : (leaveRun s).P = 0 := rfl
@[simp] theorem leaveRun_accepted (s : State) : (leaveRun s).accepted = 0 := rfl

@[simp] theorem enterFault_Fs (sub : FaultSub) (info : Word) (s : State) : (enterFault sub info s).Fs = s.Fs := rfl
@[simp] theorem enterFault_Ft (sub : FaultSub) (info : Word) (s : State) : (enterFault sub info s).Ft = s.Ft := rfl
@[simp] theorem enterFault_NT (sub : FaultSub) (info : Word) (s : State) : (enterFault sub info s).NT = s.NT := rfl
@[simp] theorem enterFault_M (sub : FaultSub) (info : Word) (s : State) : (enterFault sub info s).M = s.M := rfl
@[simp] theorem enterFault_F (sub : FaultSub) (info : Word) (s : State) : (enterFault sub info s).F = s.F := rfl
@[simp] theorem enterFault_H (sub : FaultSub) (info : Word) (s : State) : (enterFault sub info s).H = s.H := rfl
@[simp] theorem enterFault_NB (sub : FaultSub) (info : Word) (s : State) : (enterFault sub info s).NB = s.NB := rfl
@[simp] theorem enterFault_Z (sub : FaultSub) (info : Word) (s : State) : (enterFault sub info s).Z = s.Z := rfl
@[simp] theorem enterFault_MULT (sub : FaultSub) (info : Word) (s : State) : (enterFault sub info s).MULT = s.MULT := rfl
@[simp] theorem enterFault_B (sub : FaultSub) (info : Word) (s : State) : (enterFault sub info s).B = s.B := rfl
@[simp] theorem enterFault_n (sub : FaultSub) (info : Word) (s : State) : (enterFault sub info s).n = s.n := rfl
@[simp] theorem enterFault_m (sub : FaultSub) (info : Word) (s : State) : (enterFault sub info s).m = s.m := rfl
@[simp] theorem enterFault_P (sub : FaultSub) (info : Word) (s : State) : (enterFault sub info s).P = s.P := rfl
@[simp] theorem enterFault_accepted (sub : FaultSub) (info : Word) (s : State) : (enterFault sub info s).accepted = s.accepted := rfl
@[simp] theorem enterFault_frames (sub : FaultSub) (info : Word) (s : State) : (enterFault sub info s).frames = s.frames := rfl
@[simp] theorem enterFault_xdone (sub : FaultSub) (info : Word) (s : State) : xdone (enterFault sub info s) = xdone s := rfl
@[simp] theorem enterFault_ydone (sub : FaultSub) (info : Word) (s : State) : ydone (enterFault sub info s) = ydone s := rfl
@[simp] theorem enterFault_sdone (sub : FaultSub) (info : Word) (s : State) : sdone (enterFault sub info s) = sdone s := rfl
@[simp] theorem enterFault_pdone (sub : FaultSub) (info : Word) (s : State) : pdone (enterFault sub info s) = pdone s := rfl
@[simp] theorem enterFault_hdone (sub : FaultSub) (info : Word) (s : State) : hdone (enterFault sub info s) = hdone s := rfl
@[simp] theorem enterFault_roomForSample (sub : FaultSub) (info : Word) (s : State) : roomForSample (enterFault sub info s) = roomForSample s := rfl

@[simp] theorem transform_impl (N : Numerics) (j : Nat) (s : State) : (transform N j s).impl = s.impl := rfl
@[simp] theorem transform_phase (N : Numerics) (j : Nat) (s : State) : (transform N j s).phase = s.phase := rfl
@[simp] theorem transform_err (N : Numerics) (j : Nat) (s : State) : (transform N j s).err = s.err := rfl
@[simp] theorem transform_errInfo (N : Numerics) (j : Nat) (s : State) : (transform N j s).errInfo = s.errInfo := rfl
@[simp] theorem transform_irqEn (N : Numerics) (j : Nat) (s : State) : (transform N j s).irqEn = s.irqEn := rfl
@[simp] theorem transform_coefSel (N : Numerics) (j : Nat) (s : State) : (transform N j s).coefSel = s.coefSel := rfl
@[simp] theorem transform_srcRate (N : Numerics) (j : Nat) (s : State) : (transform N j s).srcRate = s.srcRate := rfl
@[simp] theorem transform_targetRate (N : Numerics) (j : Nat) (s : State) : (transform N j s).targetRate = s.targetRate := rfl
@[simp] theorem transform_minRate (N : Numerics) (j : Nat) (s : State) : (transform N j s).minRate = s.minRate := rfl
@[simp] theorem transform_filterTaps (N : Numerics) (j : Nat) (s : State) : (transform N j s).filterTaps = s.filterTaps := rfl
@[simp] theorem transform_frameSize (N : Numerics) (j : Nat) (s : State) : (transform N j s).frameSize = s.frameSize := rfl
@[simp] theorem transform_hopSize (N : Numerics) (j : Nat) (s : State) : (transform N j s).hopSize = s.hopSize := rfl
@[simp] theorem transform_numBands (N : Numerics) (j : Nat) (s : State) : (transform N j s).numBands = s.numBands := rfl
@[simp] theorem transform_targetZone (N : Numerics) (j : Nat) (s : State) : (transform N j s).targetZone = s.targetZone := rfl
@[simp] theorem transform_threshLo (N : Numerics) (j : Nat) (s : State) : (transform N j s).threshLo = s.threshLo := rfl
@[simp] theorem transform_threshHi (N : Numerics) (j : Nat) (s : State) : (transform N j s).threshHi = s.threshHi := rfl
@[simp] theorem transform_slo (N : Numerics) (j : Nat) (s : State) : (transform N j s).slo = s.slo := rfl
@[simp] theorem transform_inFifo (N : Numerics) (j : Nat) (s : State) : (transform N j s).inFifo = s.inFifo := rfl
@[simp] theorem transform_fin (N : Numerics) (j : Nat) (s : State) : (transform N j s).fin = s.fin := rfl
@[simp] theorem transform_xin (N : Numerics) (j : Nat) (s : State) : (transform N j s).xin = s.xin := rfl
@[simp] theorem transform_kern (N : Numerics) (j : Nat) (s : State) : (transform N j s).kern = s.kern := rfl
@[simp] theorem transform_kvalid (N : Numerics) (j : Nat) (s : State) : (transform N j s).kvalid = s.kvalid := rfl
@[simp] theorem transform_ksumZero (N : Numerics) (j : Nat) (s : State) : (transform N j s).ksumZero = s.ksumZero := rfl
@[simp] theorem transform_win (N : Numerics) (j : Nat) (s : State) : (transform N j s).win = s.win := rfl
@[simp] theorem transform_wvalid (N : Numerics) (j : Nat) (s : State) : (transform N j s).wvalid = s.wvalid := rfl
@[simp] theorem transform_ys (N : Numerics) (j : Nat) (s : State) : (transform N j s).ys = s.ys := rfl
@[simp] theorem transform_pk (N : Numerics) (j : Nat) (s : State) : (transform N j s).pk = s.pk := rfl
@[simp] theorem transform_npf (N : Numerics) (j : Nat) (s : State) : (transform N j s).npf = s.npf := rfl
@[simp] theorem transform_a (N : Numerics) (j : Nat) (s : State) : (transform N j s).a = s.a := rfl
@[simp] theorem transform_t (N : Numerics) (j : Nat) (s : State) : (transform N j s).t = s.t := rfl
@[simp] theorem transform_hq (N : Numerics) (j : Nat) (s : State) : (transform N j s).hq = s.hq := rfl
@[simp] theorem transform_hashCount (N : Numerics) (j : Nat) (s : State) : (transform N j s).hashCount = s.hashCount := rfl
@[simp] theorem transform_popped (N : Numerics) (j : Nat) (s : State) : (transform N j s).popped = s.popped := rfl
@[simp] theorem transform_resp (N : Numerics) (j : Nat) (s : State) : (transform N j s).resp = s.resp := rfl
@[simp] theorem transform_ptap (N : Numerics) (j : Nat) (s : State) : (transform N j s).ptap = s.ptap := rfl
@[simp] theorem transform_script (N : Numerics) (j : Nat) (s : State) : (transform N j s).script = s.script := rfl
@[simp] theorem transform_Fs (N : Numerics) (j : Nat) (s : State) : (transform N j s).Fs = s.Fs := rfl
@[simp] theorem transform_Ft (N : Numerics) (j : Nat) (s : State) : (transform N j s).Ft = s.Ft := rfl
@[simp] theorem transform_NT (N : Numerics) (j : Nat) (s : State) : (transform N j s).NT = s.NT := rfl
@[simp] theorem transform_M (N : Numerics) (j : Nat) (s : State) : (transform N j s).M = s.M := rfl
@[simp] theorem transform_F (N : Numerics) (j : Nat) (s : State) : (transform N j s).F = s.F := rfl
@[simp] theorem transform_H (N : Numerics) (j : Nat) (s : State) : (transform N j s).H = s.H := rfl
@[simp] theorem transform_NB (N : Numerics) (j : Nat) (s : State) : (transform N j s).NB = s.NB := rfl
@[simp] theorem transform_Z (N : Numerics) (j : Nat) (s : State) : (transform N j s).Z = s.Z := rfl
@[simp] theorem transform_MULT (N : Numerics) (j : Nat) (s : State) : (transform N j s).MULT = s.MULT := rfl
@[simp] theorem transform_B (N : Numerics) (j : Nat) (s : State) : (transform N j s).B = s.B := rfl
@[simp] theorem transform_n (N : Numerics) (j : Nat) (s : State) : (transform N j s).n = s.n := rfl
@[simp] theorem transform_m (N : Numerics) (j : Nat) (s : State) : (transform N j s).m = s.m := rfl
@[simp] theorem transform_P (N : Numerics) (j : Nat) (s : State) : (transform N j s).P = s.P := rfl
@[simp] theorem transform_accepted (N : Numerics) (j : Nat) (s : State) : (transform N j s).accepted = s.accepted := rfl
@[simp] theorem transform_frames (N : Numerics) (j : Nat) (s : State) : (transform N j s).frames = s.frames := rfl
@[simp] theorem transform_spec (N : Numerics) (j : Nat) (s : State) :
    (transform N j s).spec = fillSlot s.spec j (frameMagnitudes N s j) := rfl
@[simp] theorem transform_stap (N : Numerics) (j : Nat) (s : State) :
    (transform N j s).stap = s.stap ++ spectrumBeats j (frameMagnitudes N s j) := rfl
@[simp] theorem transform_trace (N : Numerics) (j : Nat) (s : State) :
    (transform N j s).trace = s.trace ++ [⟨5#4, low32 j⟩] := rfl
@[simp] theorem transform_xdone (N : Numerics) (j : Nat) (s : State) : xdone (transform N j s) = xdone s := rfl
@[simp] theorem transform_ydone (N : Numerics) (j : Nat) (s : State) : ydone (transform N j s) = ydone s := rfl
@[simp] theorem transform_roomForSample (N : Numerics) (j : Nat) (s : State) : roomForSample (transform N j s) = roomForSample s := rfl
@[simp] theorem transform_inReady (N : Numerics) (j : Nat) (s : State) : inReady (transform N j s) = inReady s := rfl
@[simp] theorem transform_stageOk (N : Numerics) (j : Nat) (s : State) : stageOk (transform N j s) = stageOk s := rfl
@[simp] theorem transform_hashAvail (N : Numerics) (j : Nat) (s : State) : hashAvail (transform N j s) = hashAvail s := rfl

end Sys2Proof.Machine
end

