-- ==== Sys2Proof/Laws/Moves.lean ====
section
/-! SUPPORT. Everything a step can do, said once: `exec` always answers a next state, and that state is one of the moves
listed here. Invariants and whole-machine rules follow by cases on the move. -/

namespace Sys2Proof.Machine

/-- `t` is `s` with new values in the configuration registers (R137). -/
def SameButConfig (s t : State) : Prop :=
  ∃ sr tr mr ft fs hs nb tz tl th, t =
    { s with
      srcRate := sr, targetRate := tr, minRate := mr, filterTaps := ft, frameSize := fs, hopSize := hs, numBands := nb,
      targetZone := tz, threshLo := tl, threshHi := th }

/-- The changes one operation can make, each under the condition it needs. -/
inductive Move (s : State) : State → Prop
  | stay : Move s s
  | answer (r : Resp) : Move s { s with resp := some r }
  | setIrqEn (data : Word) : Move s (accept { s with irqEn := irqEnOf data })
  | setCoefSel (data : Word) : Move s (accept { s with coefSel := coefSelOf data })
  | setConfig (t : State) (hp : s.phase = .idle) (ht : SameButConfig s t) : Move s (accept t)
  | start (hp : s.phase = .idle) (hc : startCheck s = none) : Move s (accept { clearRun s with phase := .run })
  | startFault (sub : FaultSub) (info : Word) (hp : s.phase = .idle) (hc : startCheck s = some (sub, info)) :
      Move s (enterFault sub info (clearRun s))
  | emptyFault (hp : s.phase = .run) (ha : s.accepted = 0) : Move s (enterFault .emptyInput 0#32 s)
  | rangeFault (hp : s.phase = .run) (hr : roomForSample s = true) :
      Move s (enterFault .sampleRange (low32 s.accepted) s)
  | finish (hp : s.phase = .run) (ha : s.accepted ≠ 0) : Move s (accept { s with fin := true, phase := .flush })
  | clear : Move s (accept (leaveRun s))
  | reset : Move s (accept (resetBlock s))
  | latch (data : Word) (hp : s.phase = .run) : Move s (accept { s with slo := data })
  | push (v : F64) (hp : s.phase = .run) (hr : roomForSample s = true) (hv : outOfRange v = false) :
      Move s (accept { s with inFifo := s.inFifo ++ [v] })
  | pop (h : Word) (rest : List Word) (hp : popPhase s.phase = true) (hq : s.hq = h :: rest) :
      Move s (respond h { s with hq := rest, popped := s.popped ++ [h] })
  | ingest (v : F64) (rest : List F64) (hs : stageOk s = true) (hf : s.inFifo = v :: rest) :
      Move s (emit 1#4 s.n { s with inFifo := rest, xin := s.xin ++ [v] })
  | kdes (hs : stageOk s = true) (hk : s.kvalid = false) :
      Move s (emit 2#4 s.NT
        { s with
          kern := (designKernel (numericsOf s.impl.numerics) s.Fs s.Ft s.NT).1
          ksumZero := (designKernel (numericsOf s.impl.numerics) s.Fs s.Ft s.NT).2
          kvalid := true })
  | wgen (hs : stageOk s = true) (hw : s.wvalid = false) :
      Move s (emit 3#4 s.F { s with win := makeWindow (numericsOf s.impl.numerics) s.F, wvalid := true })
  | fird (hr : firdReady s = true) :
      Move s (emit 4#4 s.m { s with ys := s.ys ++ [conv s.kern s.xin s.NT (centre s.Fs s.Ft s.m)] })
  | wfft (j : Nat) (hs : stageOk s = true) (hw : s.wvalid = true) (hj : j * s.H + s.F ≤ s.m)
      (he : slot? s.spec j = none) : Move s (transform (numericsOf s.impl.numerics) j s)
  | peak (v : List F64) (hs : stageOk s = true) (hv : slot? s.spec s.npf = some v) :
      Move s (emit 6#4 s.npf
        { s with
          pk := s.pk ++ framePeaks s.B s.NB s.MULT s.npf v
          ptap := s.ptap ++ peakBeats (framePeaks s.B s.NB s.MULT s.npf v)
          npf := s.npf + 1 })
  | hemit (p q : Peak) (hs : stageOk s = true) (hp : s.pk[s.a]? = some p) (hq : s.pk[s.t]? = some q)
      (hz : frameDelta p q ≤ s.Z) :
      Move s (emit 7#4 s.hashCount
        { s with
          hq := s.hq ++ [pack p.bin q.bin (frameDelta p q)], hashCount := s.hashCount + 1, t := s.t + 1 })
  | hadv (hs : stageOk s = true) (hd : anchorDone s = true) :
      Move s (emit 8#4 (s.a + 1) { s with a := s.a + 1, t := s.a + 2 })
  | retire (hp : s.phase = .flush) (hd : hdone s = true) (hs : stageOk s = true) :
      Move s (emit 9#4 s.hashCount { s with phase := .done })

theorem configWrite_move {s t : State} (ht : SameButConfig s t) : Move s (configWrite s t) := by
  unfold configWrite
  split
  · exact .setConfig t ‹_› ht
  · exact .answer _

theorem execCmdStart_move (s : State) : ∃ t, execCmdStart s = .next t ∧ Move s t := by
  unfold execCmdStart
  split
  · split
    · exact ⟨_, rfl, .startFault _ _ ‹_› ‹_›⟩
    · exact ⟨_, rfl, .start ‹_› ‹_›⟩
  · exact ⟨_, rfl, .answer _⟩

theorem execCmdFinish_move (s : State) : ∃ t, execCmdFinish s = .next t ∧ Move s t := by
  unfold execCmdFinish
  split
  · split
    · exact ⟨_, rfl, .emptyFault ‹_› ‹_›⟩
    · exact ⟨_, rfl, .finish ‹_› ‹_›⟩
  · exact ⟨_, rfl, .answer _⟩

theorem faultNamed_move {e : Word} {s t : State} (h : faultNamed e s = some t) : Move s t := by
  unfold faultNamed at h
  split at h
  · rename_i hp
    split at h
    · rename_i hc
      cases h
      exact .emptyFault hp hc.2
    · split at h
      · rename_i hc
        cases h
        exact .rangeFault hp hc.2
      · cases h
  · split at h
    · rename_i hi
      split at h
      · rename_i sub info hc
        split at h
        · cases h
          exact .startFault sub info hi hc
        · cases h
      · cases h
    · cases h

theorem execFault_move (e : Word) (s : State) : ∃ t, execFault e s = .next t ∧ Move s t := by
  refine ⟨_, rfl, ?_⟩
  cases h : faultNamed e s with
  | none => exact .stay
  | some t => exact faultNamed_move h

theorem execWrSampleLo_move (data : Word) (s : State) : ∃ t, execWrSampleLo data s = .next t ∧ Move s t := by
  unfold execWrSampleLo
  split
  · exact ⟨_, rfl, .latch data ‹_›⟩
  · exact ⟨_, rfl, .answer _⟩

theorem execWrSampleHi_move (data : Word) (s : State) : ∃ t, execWrSampleHi data s = .next t ∧ Move s t := by
  unfold execWrSampleHi
  split
  · rename_i hc
    split
    · exact ⟨_, rfl, .rangeFault hc.1 hc.2⟩
    · exact ⟨_, rfl, .push _ hc.1 hc.2 (Bool.eq_false_iff.mpr ‹_›)⟩
  · exact ⟨_, rfl, .answer _⟩

theorem execRdHashData_move (s : State) : ∃ t, execRdHashData s = .next t ∧ Move s t := by
  unfold execRdHashData
  split
  · split
    · exact ⟨_, rfl, .answer _⟩
    · exact ⟨_, rfl, .pop _ _ ‹_› ‹_›⟩
  · exact ⟨_, rfl, .answer _⟩

theorem readCoef_move (half : F64 → Word) (s : State) : Move s (readCoef half s) := by
  unfold readCoef
  split
  · exact .answer _
  · split <;> exact .answer _

theorem execIngest_move (s : State) : ∃ t, execIngest s = .next t ∧ Move s t := by
  unfold execIngest
  split
  · split
    · exact ⟨_, rfl, .stay⟩
    · exact ⟨_, rfl, .ingest _ _ ‹_› ‹_›⟩
  · exact ⟨_, rfl, .stay⟩

theorem kdesStep_move (s : State) : Move s (kdesStep (numericsOf s.impl.numerics) s) := by
  unfold kdesStep
  split
  · rename_i hc
    rw [Bool.and_eq_true, Bool.not_eq_true'] at hc
    exact .kdes hc.1 hc.2
  · exact .stay

theorem wgenStep_move (s : State) : Move s (wgenStep (numericsOf s.impl.numerics) s) := by
  unfold wgenStep
  split
  · rename_i hc
    rw [Bool.and_eq_true, Bool.not_eq_true'] at hc
    exact .wgen hc.1 hc.2
  · exact .stay

theorem execFird_move (s : State) : ∃ t, execFird s = .next t ∧ Move s t := by
  unfold execFird
  split
  · exact ⟨_, rfl, .fird ‹_›⟩
  · exact ⟨_, rfl, .stay⟩

/-- The frame a turn of WFFT chooses exists, its slot is empty, and its index has the low 32 bits asked for. -/
theorem chosenFrame_spec {s : State} {idx : Word} {j : Nat} (h : chosenFrame s idx = some j) :
    j < s.frames ∧ j * s.H + s.F ≤ s.m ∧ slot? s.spec j = none ∧ low32 j = idx := by
  unfold chosenFrame at h
  have hm := List.mem_of_find?_eq_some h
  have hp := List.find?_some h
  simp only [frameReady, Bool.and_eq_true, decide_eq_true_eq, Option.isNone_iff_eq_none, beq_iff_eq] at hp
  exact ⟨List.mem_range.mp hm, hp.1.1, hp.1.2, hp.2⟩

theorem wfftStep_move (idx : Word) (s : State) : Move s (wfftStep (numericsOf s.impl.numerics) idx s) := by
  unfold wfftStep
  split
  · rename_i hc
    rw [Bool.and_eq_true] at hc
    split
    · exact .stay
    · rename_i j hj
      obtain ⟨_, h2, h3, _⟩ := chosenFrame_spec hj
      exact .wfft j hc.1 hc.2 h2 h3
  · exact .stay

/-- The turn of WFFT on a frame transforms it when the guard holds of it. -/
theorem frameTurn_move (j : Nat) (s : State) : Move s (frameTurn j s) := by
  unfold frameTurn
  split
  · rename_i hc
    simp only [frameReady, Bool.and_eq_true, decide_eq_true_eq, Option.isNone_iff_eq_none] at hc
    exact .wfft j hc.1.1 hc.1.2 hc.2.1 hc.2.2
  · exact .stay

/-- A frame that fits in `m` samples is below the frame count. -/
theorem lt_frameCount {F H m j : Nat} (hH : 1 ≤ H) (h : j * H + F ≤ m) : j < frameCount F H m := by
  unfold frameCount
  rw [if_pos (by omega)]
  exact Nat.lt_succ_of_le ((Nat.le_div_iff_mul_le hH).mpr (by omega))

theorem execPeak_move (s : State) : ∃ t, execPeak s = .next t ∧ Move s t := by
  unfold execPeak
  split
  · split
    · exact ⟨_, rfl, .stay⟩
    · exact ⟨_, rfl, .peak _ ‹_› ‹_›⟩
  · exact ⟨_, rfl, .stay⟩

/-- The pair HEMIT takes is the anchor and the next candidate, within the zone. -/
theorem pairInZone_spec {s : State} {p q : Peak} (h : pairInZone s = some (p, q)) :
    s.pk[s.a]? = some p ∧ s.pk[s.t]? = some q ∧ frameDelta p q ≤ s.Z := by
  unfold pairInZone at h
  split at h
  · rename_i p' q' hp hq
    split at h
    · cases h
      exact ⟨hp, hq, ‹_›⟩
    · cases h
  · cases h

theorem execHemit_move (s : State) : ∃ t, execHemit s = .next t ∧ Move s t := by
  unfold execHemit
  split
  · split
    · exact ⟨_, rfl, .stay⟩
    · rename_i p q hpq
      obtain ⟨hp, hq, hz⟩ := pairInZone_spec hpq
      exact ⟨_, rfl, .hemit p q ‹_› hp hq hz⟩
  · exact ⟨_, rfl, .stay⟩

theorem execHadv_move (s : State) : ∃ t, execHadv s = .next t ∧ Move s t := by
  unfold execHadv
  split
  · rename_i hc
    rw [Bool.and_eq_true] at hc
    exact ⟨_, rfl, .hadv hc.1 hc.2⟩
  · exact ⟨_, rfl, .stay⟩

theorem execRetire_move (s : State) : ∃ t, execRetire s = .next t ∧ Move s t := by
  unfold execRetire
  split
  · rename_i hc
    exact ⟨_, rfl, .retire hc.1 hc.2.1 hc.2.2⟩
  · exact ⟨_, rfl, .stay⟩

/-- A configuration write sets one register. -/
theorem execConfig_move {s t : State} (ht : SameButConfig s t) : ∃ u, (.next (configWrite s t) : Out) = .next u ∧ Move s u :=
  ⟨_, rfl, configWrite_move ht⟩

/-- Every operation answers a next state, and that state is one of the moves. -/
theorem exec_move (i : Instr) (s : State) : ∃ t, exec i s = .next t ∧ Move s t := by
  cases i with
  | wrIrqEn data => exact ⟨_, rfl, .setIrqEn data⟩
  | wrCoefSel data => exact ⟨_, rfl, .setCoefSel data⟩
  | wrSrcRate d => exact execConfig_move ⟨d, _, _, _, _, _, _, _, _, _, rfl⟩
  | wrTargetRate d => exact execConfig_move ⟨_, d, _, _, _, _, _, _, _, _, rfl⟩
  | wrMinRate d => exact execConfig_move ⟨_, _, d, _, _, _, _, _, _, _, rfl⟩
  | wrFilterTaps d => exact execConfig_move ⟨_, _, _, d, _, _, _, _, _, _, rfl⟩
  | wrFrameSize d => exact execConfig_move ⟨_, _, _, _, d, _, _, _, _, _, rfl⟩
  | wrHopSize d => exact execConfig_move ⟨_, _, _, _, _, d, _, _, _, _, rfl⟩
  | wrNumBands d => exact execConfig_move ⟨_, _, _, _, _, _, d, _, _, _, rfl⟩
  | wrTargetZone d => exact execConfig_move ⟨_, _, _, _, _, _, _, d, _, _, rfl⟩
  | wrThreshLo d => exact execConfig_move ⟨_, _, _, _, _, _, _, _, d, _, rfl⟩
  | wrThreshHi d => exact execConfig_move ⟨_, _, _, _, _, _, _, _, _, d, rfl⟩
  | cmdStart => exact execCmdStart_move s
  | cmdFinish => exact execCmdFinish_move s
  | cmdClear => exact ⟨_, rfl, .clear⟩
  | cmdReset => exact ⟨_, rfl, .reset⟩
  | fault e => exact execFault_move e s
  | wrSampleLo d => exact execWrSampleLo_move d s
  | wrSampleHi d => exact execWrSampleHi_move d s
  | rdHashData => exact execRdHashData_move s
  | rdCoefLo => exact ⟨_, rfl, readCoef_move lo32 s⟩
  | rdCoefHi => exact ⟨_, rfl, readCoef_move hi32 s⟩
  | ingest => exact execIngest_move s
  | kdes => exact ⟨_, rfl, kdesStep_move s⟩
  | wgen => exact ⟨_, rfl, wgenStep_move s⟩
  | fird => exact execFird_move s
  | wfft idx => exact ⟨_, rfl, wfftStep_move idx s⟩
  | peak => exact execPeak_move s
  | hemit => exact execHemit_move s
  | hadv => exact execHadv_move s
  | retire => exact execRetire_move s
  | _ => exact ⟨_, rfl, .answer _⟩

/-- What a step can do: wait, reset, or make one move after taking the event off the schedule. -/
theorem step_cases {s t : State} (h : step s = .next t) :
    (s.script = [] ∧ t = s) ∨
    ∃ e rest, s.script = e :: rest ∧
      (t = hardReset { s with script := rest } ∨ Move { s with script := rest } t) := by
  unfold step nextEvent at h
  cases hs : s.script with
  | nil =>
    simp only [hs] at h
    cases h
    exact .inl ⟨rfl, rfl⟩
  | cons e rest =>
    refine .inr ⟨e, rest, rfl, ?_⟩
    simp only [hs] at h
    cases e with
    | hardReset =>
      cases h
      exact .inl rfl
    | frame j =>
      cases h
      exact .inr (frameTurn_move j _)
    | word p =>
      simp only [runWord] at h
      cases hd : decodeWord p with
      | ok i =>
        obtain ⟨u, hu, hm⟩ := exec_move i { s with script := rest }
        simp only [hd, hu] at h
        cases h
        exact .inr hm
      | error err =>
        simp only [hd] at h
        cases err with
        | reservedBits | reservedStageOp => cases h
        | misaligned | reservedAddress | writeToReadOnly | readOfWriteOnly | reservedCommand =>
          cases h
          exact .inr (.answer _)

end Sys2Proof.Machine
end

