-- ==== Sys2Proof/Laws/Numerics.lean ====
section
/-! SUPPORT. What DFT-ACC of the model (log entry 2) has of the rule: the rule implies it, it implies the rule wherever some
binary64 meets the bound, a smaller bound asks more, and every frame and bin has a value that meets it. -/

namespace Sys2Proof.Machine

/-- DFT-ACC as the rule writes it gives DFT-ACC of the model. -/
theorem dftAcc_of_forall_near {N : Numerics} {eps : ℚ}
    (h : ∀ F xw, xw.length = F → (∀ x ∈ xw, isFinite x = true) → ∀ k, k < F / 2 + 1 →
      NearMagnitude eps F xw k ((N.dftMag F xw).getD k fzero)) : DftAcc N eps :=
  fun F xw hl hx k hk => .inl (h F xw hl hx k hk)

/-- The nearest value meets every bound that some admitted value meets. -/
theorem NearestMagnitude.near {eps : ℚ} {F k : Nat} {xw : List F64} {u v : F64} (h : NearestMagnitude F xw k v)
    (hf : isFinite u = true) (hs : signBit u = false) (hu : NearMagnitude eps F xw k u) : NearMagnitude eps F xw k v :=
  fun mag hm => (h mag hm u hf hs).trans (hu mag hm)

/-- Where some admitted value is within the bound, DFT-ACC of the model is that of the rule. -/
theorem DftAcc.near {N : Numerics} {eps : ℚ} (h : DftAcc N eps) {F k : Nat} {xw : List F64} {u : F64}
    (hl : xw.length = F) (hx : ∀ x ∈ xw, isFinite x = true) (hk : k < F / 2 + 1) (hf : isFinite u = true)
    (hs : signBit u = false) (hu : NearMagnitude eps F xw k u) :
    NearMagnitude eps F xw k ((N.dftMag F xw).getD k fzero) :=
  (h F xw hl hx k hk).elim id fun hn => hn.near hf hs hu

/-- A smaller `EPS_DFT` asks more. -/
theorem DftAcc.mono {N : Numerics} {eps eps' : ℚ} (h : DftAcc N eps) (he : eps ≤ eps') : DftAcc N eps' :=
  fun F xw hl hx k hk => (h F xw hl hx k hk).imp_left fun hn mag hm =>
    (hn mag hm).trans (mul_le_mul_of_nonneg_right (Rat.cast_le.mpr he) (Finset.sum_nonneg fun _ _ => abs_nonneg _))

/-- Every frame and bin has a nearest admitted value, so DFT-ACC excludes no frame, whatever the bound. -/
theorem exists_nearestMagnitude (F : Nat) (xw : List F64) (k : Nat) :
    ∃ v, isFinite v = true ∧ signBit v = false ∧ NearestMagnitude F xw k v := by
  by_cases hm : ∃ mag, IsMagnitude F xw k mag
  · obtain ⟨mag, hmag⟩ := hm
    have hfin : {u : F64 | isFinite u = true ∧ signBit u = false}.Finite :=
      Set.Finite.of_injOn (Set.mapsTo_univ BitVec.toFin _) (fun a _ b _ h => BitVec.eq_of_toFin_eq h) Set.finite_univ
    obtain ⟨v, ⟨hf, hs⟩, hv⟩ := Set.exists_min_image _ (fun u : F64 => |(toRat u : ℝ) - mag|) hfin
      ⟨fzero, by decide, by decide⟩
    refine ⟨v, hf, hs, fun mag' hmag' u hu1 hu2 => ?_⟩
    have : mag' = mag := by
      have h2 : mag' ^ 2 = mag ^ 2 := hmag'.2.trans hmag.2.symm
      exact (pow_left_inj₀ hmag'.1 hmag.1 two_ne_zero).mp h2
    subst this
    exact hv u ⟨hu1, hu2⟩
  · exact ⟨fzero, by decide, by decide, fun mag h => absurd ⟨mag, h⟩ hm⟩

end Sys2Proof.Machine
end

