-- ==== Sys2Proof/Laws/Ops.lean ====
section
/-! SUPPORT. What the shared checks and operations say, once each: the guards as propositions, the checks of `START` as the
legality of the configuration, the run-state clear, and the words a fault records. -/

namespace Sys2Proof.Machine

/-- `stage_ok` as a proposition. -/
theorem stageOk_iff {s : State} :
    stageOk s = true ↔ (s.phase = .run ∨ s.phase = .flush) ∧ s.hq.length < s.impl.outDepth := by
  simp [stageOk]

/-- Room for a sample: a place in the FIFO and a run below its limit. -/
theorem roomForSample_iff {s : State} :
    roomForSample s = true ↔ s.inFifo.length < s.impl.inDepth ∧ s.accepted < maxSamples := by
  simp [roomForSample]

/-- The phases in which a pop is allowed. -/
theorem popPhase_iff {p : Phase} : popPhase p = true ↔ p = .run ∨ p = .flush ∨ p = .done := by
  cases p <;> simp [popPhase]

/-- The guard of FIRD. -/
theorem firdReady_iff {s : State} :
    firdReady s = true ↔ stageOk s = true ∧ s.kvalid = true ∧ lenOk s.Fs s.Ft s.n s.m = true ∧
      (centre s.Fs s.Ft s.m + s.M + 1 ≤ s.n ∨ xdone s = true) := by
  simp [firdReady, and_assoc]

/-- `xdone` as a proposition. -/
theorem xdone_iff {s : State} : xdone s = true ↔ s.fin = true ∧ s.inFifo = [] := by
  simp [xdone]

/-- The checks of `START` all pass exactly when the configuration is legal. -/
theorem startCheck_eq_none_iff {s : State} : startCheck s = none ↔ cfgOk s := by
  constructor
  · intro h
    unfold startCheck at h
    repeat' (split at h <;> first | cases h | skip)
    refine ⟨by bv_omega, by omega, by omega, by omega, by omega, by omega, by omega, by omega, by omega, by omega,
      by omega, ?_⟩
    rename_i hm
    simpa using hm
  · rintro ⟨h1, h2, h3, h4, h5, h6, h7, h8, h9, h10, h11, h12⟩
    unfold startCheck
    rw [if_neg (by bv_omega), if_neg (by omega), if_neg (by omega), if_neg (by omega), if_neg (by omega),
      if_neg (by omega), if_neg (by omega), if_neg (by omega), if_neg (by simp [h12])]

/-- The run state is clear exactly when every piece of it has its clear value. -/
theorem clearRun_eq_iff {s : State} :
    clearRun s = s ↔
      s.slo = 0#32 ∧ s.inFifo = [] ∧ s.fin = false ∧ s.xin = [] ∧ s.kern = [] ∧ s.kvalid = false ∧ s.ksumZero = false ∧
      s.win = [] ∧ s.wvalid = false ∧ s.ys = [] ∧ s.spec = [] ∧ s.pk = [] ∧ s.npf = 0 ∧ s.a = 0 ∧ s.t = 1 ∧ s.hq = [] ∧
      s.hashCount = 0 ∧ s.popped = [] := by
  constructor
  · intro h
    rw [← h]
    simp
  · rintro ⟨h1, h2, h3, h4, h5, h6, h7, h8, h9, h10, h11, h12, h13, h14, h15, h16, h17, h18⟩
    cases s
    simp_all [clearRun]

/-- A fault never records the value that says none. -/
theorem errWordOf_ne_zero (sub : FaultSub) : errWordOf sub ≠ 0#32 := by
  cases sub <;> decide

/-- A fault records one of the five values of `ERR`. -/
theorem errWordOf_mem (sub : FaultSub) : errWordOf sub ∈ faultWords := by
  cases sub <;> decide

/-- The kernel has as many taps as the configuration says. -/
theorem length_designKernel (N : Numerics) (Fs Ft NT : Nat) : (designKernel N Fs Ft NT).1.length = NT := by
  unfold designKernel normaliseKernel rawKernel
  split <;> simp

/-- The window has the frame length. -/
theorem length_makeWindow (N : Numerics) (F : Nat) : (makeWindow N F).length = F := by
  simp [makeWindow]

end Sys2Proof.Machine
end

