-- ==== Sys2Proof/Laws/PerInstr.lean ====
section
/-! SUPPORT. The family EncodeMatchesRow: the encoder's word of an instruction matches the row of spec/opcode_table.json
that its constructor stands for. The rows are transcribed from the table, not computed by the encoder. -/

namespace Sys2Proof.Laws.EncodeMatchesRow

/-- The row of a constructor: its match word and its mask. -/
def tableRow : Instr → PortWord × PortWord
  | .rdId => (.bus 0x000000000000#48, .bus 0xFFFF00000000#48)
  | .rdVersion => (.bus 0x000400000000#48, .bus 0xFFFF00000000#48)
  | .cmdNop => (.bus 0x800800000000#48, .bus 0xFFFFFFFFFFFF#48)
  | .cmdStart => (.bus 0x800800000001#48, .bus 0xFFFFFFFFFFFF#48)
  | .cmdFinish => (.bus 0x800800000002#48, .bus 0xFFFFFFFFFFFF#48)
  | .cmdClear => (.bus 0x800800000003#48, .bus 0xFFFFFFFFFFFF#48)
  | .cmdReset => (.bus 0x800800000004#48, .bus 0xFFFFFFFFFFFF#48)
  | .rdStatus => (.bus 0x000C00000000#48, .bus 0xFFFF00000000#48)
  | .rdErr => (.bus 0x001000000000#48, .bus 0xFFFF00000000#48)
  | .rdErrInfo => (.bus 0x001400000000#48, .bus 0xFFFF00000000#48)
  | .rdIrqEn => (.bus 0x001800000000#48, .bus 0xFFFF00000000#48)
  | .wrIrqEn _ => (.bus 0x801800000000#48, .bus 0xFFFF00000000#48)
  | .rdIrqPend => (.bus 0x001C00000000#48, .bus 0xFFFF00000000#48)
  | .rdCap0 => (.bus 0x002000000000#48, .bus 0xFFFF00000000#48)
  | .rdCap1 => (.bus 0x002400000000#48, .bus 0xFFFF00000000#48)
  | .rdCap2 => (.bus 0x002800000000#48, .bus 0xFFFF00000000#48)
  | .rdSrcRate => (.bus 0x004000000000#48, .bus 0xFFFF00000000#48)
  | .wrSrcRate _ => (.bus 0x804000000000#48, .bus 0xFFFF00000000#48)
  | .rdTargetRate => (.bus 0x004400000000#48, .bus 0xFFFF00000000#48)
  | .wrTargetRate _ => (.bus 0x804400000000#48, .bus 0xFFFF00000000#48)
  | .rdMinRate => (.bus 0x004800000000#48, .bus 0xFFFF00000000#48)
  | .wrMinRate _ => (.bus 0x804800000000#48, .bus 0xFFFF00000000#48)
  | .rdFilterTaps => (.bus 0x004C00000000#48, .bus 0xFFFF00000000#48)
  | .wrFilterTaps _ => (.bus 0x804C00000000#48, .bus 0xFFFF00000000#48)
  | .rdFrameSize => (.bus 0x005000000000#48, .bus 0xFFFF00000000#48)
  | .wrFrameSize _ => (.bus 0x805000000000#48, .bus 0xFFFF00000000#48)
  | .rdHopSize => (.bus 0x005400000000#48, .bus 0xFFFF00000000#48)
  | .wrHopSize _ => (.bus 0x805400000000#48, .bus 0xFFFF00000000#48)
  | .rdNumBands => (.bus 0x005800000000#48, .bus 0xFFFF00000000#48)
  | .wrNumBands _ => (.bus 0x805800000000#48, .bus 0xFFFF00000000#48)
  | .rdTargetZone => (.bus 0x005C00000000#48, .bus 0xFFFF00000000#48)
  | .wrTargetZone _ => (.bus 0x805C00000000#48, .bus 0xFFFF00000000#48)
  | .rdThreshLo => (.bus 0x006000000000#48, .bus 0xFFFF00000000#48)
  | .wrThreshLo _ => (.bus 0x806000000000#48, .bus 0xFFFF00000000#48)
  | .rdThreshHi => (.bus 0x006400000000#48, .bus 0xFFFF00000000#48)
  | .wrThreshHi _ => (.bus 0x806400000000#48, .bus 0xFFFF00000000#48)
  | .rdInCount => (.bus 0x008000000000#48, .bus 0xFFFF00000000#48)
  | .rdDsCount => (.bus 0x008400000000#48, .bus 0xFFFF00000000#48)
  | .rdFrameCount => (.bus 0x008800000000#48, .bus 0xFFFF00000000#48)
  | .rdPeakFrames => (.bus 0x008C00000000#48, .bus 0xFFFF00000000#48)
  | .rdPeakCount => (.bus 0x009000000000#48, .bus 0xFFFF00000000#48)
  | .rdHashCount => (.bus 0x009400000000#48, .bus 0xFFFF00000000#48)
  | .rdInLevel => (.bus 0x009800000000#48, .bus 0xFFFF00000000#48)
  | .rdHashLevel => (.bus 0x009C00000000#48, .bus 0xFFFF00000000#48)
  | .wrSampleLo _ => (.bus 0x80C000000000#48, .bus 0xFFFF00000000#48)
  | .wrSampleHi _ => (.bus 0x80C400000000#48, .bus 0xFFFF00000000#48)
  | .rdHashData => (.bus 0x00C800000000#48, .bus 0xFFFF00000000#48)
  | .rdCoefSel => (.bus 0x00E000000000#48, .bus 0xFFFF00000000#48)
  | .wrCoefSel _ => (.bus 0x80E000000000#48, .bus 0xFFFF00000000#48)
  | .rdCoefLo => (.bus 0x00E400000000#48, .bus 0xFFFF00000000#48)
  | .rdCoefHi => (.bus 0x00E800000000#48, .bus 0xFFFF00000000#48)
  | .ingest => (.beat 0x100000000#36, .beat 0xF00000000#36)
  | .kdes => (.beat 0x200000000#36, .beat 0xF00000000#36)
  | .wgen => (.beat 0x300000000#36, .beat 0xF00000000#36)
  | .fird => (.beat 0x400000000#36, .beat 0xF00000000#36)
  | .wfft _ => (.beat 0x500000000#36, .beat 0xF00000000#36)
  | .peak => (.beat 0x600000000#36, .beat 0xF00000000#36)
  | .hemit => (.beat 0x700000000#36, .beat 0xF00000000#36)
  | .hadv => (.beat 0x800000000#36, .beat 0xF00000000#36)
  | .retire => (.beat 0x900000000#36, .beat 0xF00000000#36)
  | .fault _ => (.beat 0xA00000000#36, .beat 0xF00000000#36)

/-- A word under a mask of its own port; a mask of the other port masks nothing. -/
def masked : PortWord → PortWord → PortWord
  | .bus w, .bus m => .bus (w &&& m)
  | .beat w, .beat m => .beat (w &&& m)
  | w, _ => w

/-- The encoded word, under the mask of its row, is the match word of its row. -/
def Statement (i : Instr) : Prop := masked (encode i) (tableRow i).2 = (tableRow i).1

/-- The high 16 bits of a transaction, its data masked off. -/
theorem mask_append (h : BitVec 16) (data : Word) : (h ++ data : BitVec 48) &&& 0xFFFF00000000#48 = h ++ 0#32 := by
  have hm : (0xFFFF00000000#48 : BitVec 48) = (BitVec.allOnes 16 ++ 0#32 : BitVec 48) := by decide
  rw [hm, BitVec.and_append, BitVec.and_allOnes, BitVec.and_zero]

/-- The operation id of a beat, its index masked off. -/
theorem mask_beat (op : BitVec 4) (idx : Word) : beatWord op idx &&& 0xF00000000#36 = op ++ 0#32 := by
  have hm : (0xF00000000#36 : BitVec 36) = (BitVec.allOnes 4 ++ 0#32 : BitVec 36) := by decide
  unfold beatWord
  rw [hm, BitVec.and_append, BitVec.and_allOnes, BitVec.and_zero]

/-- A write under the mask of its row. -/
theorem masked_write (r : Reg) (data : Word) (m : BusWord) (h : (1#1 ++ 0#3 ++ regAddr r ++ 0#32 : BitVec 48) = m) :
    masked (.bus (writeWord r data)) (.bus 0xFFFF00000000#48) = .bus m :=
  congrArg PortWord.bus ((mask_append _ data).trans h)

/-- A beat under the mask of its row. -/
theorem masked_beat (op : BitVec 4) (idx : Word) (m : BeatWord) (h : (op ++ 0#32 : BitVec 36) = m) :
    masked (.beat (beatWord op idx)) (.beat 0xF00000000#36) = .beat m :=
  congrArg PortWord.beat ((mask_beat op idx).trans h)

theorem rdId : Statement .rdId := by unfold Statement; decide
theorem rdVersion : Statement .rdVersion := by unfold Statement; decide
theorem cmdNop : Statement .cmdNop := by unfold Statement; decide
theorem cmdStart : Statement .cmdStart := by unfold Statement; decide
theorem cmdFinish : Statement .cmdFinish := by unfold Statement; decide
theorem cmdClear : Statement .cmdClear := by unfold Statement; decide
theorem cmdReset : Statement .cmdReset := by unfold Statement; decide
theorem rdStatus : Statement .rdStatus := by unfold Statement; decide
theorem rdErr : Statement .rdErr := by unfold Statement; decide
theorem rdErrInfo : Statement .rdErrInfo := by unfold Statement; decide
theorem rdIrqEn : Statement .rdIrqEn := by unfold Statement; decide
theorem wrIrqEn (data : Word) : Statement (.wrIrqEn data) := masked_write _ data _ (by decide)
theorem rdIrqPend : Statement .rdIrqPend := by unfold Statement; decide
theorem rdCap0 : Statement .rdCap0 := by unfold Statement; decide
theorem rdCap1 : Statement .rdCap1 := by unfold Statement; decide
theorem rdCap2 : Statement .rdCap2 := by unfold Statement; decide
theorem rdSrcRate : Statement .rdSrcRate := by unfold Statement; decide
theorem wrSrcRate (data : Word) : Statement (.wrSrcRate data) := masked_write _ data _ (by decide)
theorem rdTargetRate : Statement .rdTargetRate := by unfold Statement; decide
theorem wrTargetRate (data : Word) : Statement (.wrTargetRate data) := masked_write _ data _ (by decide)
theorem rdMinRate : Statement .rdMinRate := by unfold Statement; decide
theorem wrMinRate (data : Word) : Statement (.wrMinRate data) := masked_write _ data _ (by decide)
theorem rdFilterTaps : Statement .rdFilterTaps := by unfold Statement; decide
theorem wrFilterTaps (data : Word) : Statement (.wrFilterTaps data) := masked_write _ data _ (by decide)
theorem rdFrameSize : Statement .rdFrameSize := by unfold Statement; decide
theorem wrFrameSize (data : Word) : Statement (.wrFrameSize data) := masked_write _ data _ (by decide)
theorem rdHopSize : Statement .rdHopSize := by unfold Statement; decide
theorem wrHopSize (data : Word) : Statement (.wrHopSize data) := masked_write _ data _ (by decide)
theorem rdNumBands : Statement .rdNumBands := by unfold Statement; decide
theorem wrNumBands (data : Word) : Statement (.wrNumBands data) := masked_write _ data _ (by decide)
theorem rdTargetZone : Statement .rdTargetZone := by unfold Statement; decide
theorem wrTargetZone (data : Word) : Statement (.wrTargetZone data) := masked_write _ data _ (by decide)
theorem rdThreshLo : Statement .rdThreshLo := by unfold Statement; decide
theorem wrThreshLo (data : Word) : Statement (.wrThreshLo data) := masked_write _ data _ (by decide)
theorem rdThreshHi : Statement .rdThreshHi := by unfold Statement; decide
theorem wrThreshHi (data : Word) : Statement (.wrThreshHi data) := masked_write _ data _ (by decide)
theorem rdInCount : Statement .rdInCount := by unfold Statement; decide
theorem rdDsCount : Statement .rdDsCount := by unfold Statement; decide
theorem rdFrameCount : Statement .rdFrameCount := by unfold Statement; decide
theorem rdPeakFrames : Statement .rdPeakFrames := by unfold Statement; decide
theorem rdPeakCount : Statement .rdPeakCount := by unfold Statement; decide
theorem rdHashCount : Statement .rdHashCount := by unfold Statement; decide
theorem rdInLevel : Statement .rdInLevel := by unfold Statement; decide
theorem rdHashLevel : Statement .rdHashLevel := by unfold Statement; decide
theorem wrSampleLo (data : Word) : Statement (.wrSampleLo data) := masked_write _ data _ (by decide)
theorem wrSampleHi (data : Word) : Statement (.wrSampleHi data) := masked_write _ data _ (by decide)
theorem rdHashData : Statement .rdHashData := by unfold Statement; decide
theorem rdCoefSel : Statement .rdCoefSel := by unfold Statement; decide
theorem wrCoefSel (data : Word) : Statement (.wrCoefSel data) := masked_write _ data _ (by decide)
theorem rdCoefLo : Statement .rdCoefLo := by unfold Statement; decide
theorem rdCoefHi : Statement .rdCoefHi := by unfold Statement; decide
theorem ingest : Statement .ingest := by unfold Statement; decide
theorem kdes : Statement .kdes := by unfold Statement; decide
theorem wgen : Statement .wgen := by unfold Statement; decide
theorem fird : Statement .fird := by unfold Statement; decide
theorem wfft (v : Word) : Statement (.wfft v) := masked_beat _ v _ (by decide)
theorem peak : Statement .peak := by unfold Statement; decide
theorem hemit : Statement .hemit := by unfold Statement; decide
theorem hadv : Statement .hadv := by unfold Statement; decide
theorem retire : Statement .retire := by unfold Statement; decide
theorem fault (v : Word) : Statement (.fault v) := masked_beat _ v _ (by decide)

end Sys2Proof.Laws.EncodeMatchesRow
end

