-- ==== Sys2Proof/Laws/Retire.lean ====
section
/-! SUPPORT. Why RETIRE does not require `stage_ok` (40_host_ops.md R160) though its guard includes it (00_scope.md R13): when
no anchor is left the output FIFO has room (log entry 17). -/

namespace Sys2Proof.Machine

/-- Every move keeps room in the output FIFO while no anchor is left: a hash is pushed for an anchor that is left, and every
other stage step had room. -/
theorem Move.room {s t : State} (h : Move s t)
    (hs : s.a = s.P → s.hq = [] ∨ s.hq.length < s.impl.outDepth) :
    t.a = t.P → t.hq = [] ∨ t.hq.length < t.impl.outDepth := by
  have hok : stageOk s = true → s.hq.length < s.impl.outDepth := fun h => (stageOk_iff.mp h).2
  cases h with
  | hemit p q h1 h2 h3 h4 =>
    intro ha
    exact absurd (show s.a = s.pk.length from ha) (by have := (List.getElem?_eq_some_iff.mp h2).1; omega)
  | pop w rest h1 h2 =>
    intro ha
    refine (hs ha).imp (fun h => ?_) (fun h => ?_)
    · rw [h2] at h; cases h
    · rw [h2] at h
      exact Nat.lt_of_succ_lt h
  | setConfig u hp hu =>
    obtain ⟨_, _, _, _, _, _, _, _, _, _, rfl⟩ := hu
    exact hs
  | fird h1 => exact fun _ => .inr (hok (firdReady_iff.mp h1).1)
  | ingest _ _ h1 => exact fun _ => .inr (hok h1)
  | kdes h1 => exact fun _ => .inr (hok h1)
  | wgen h1 => exact fun _ => .inr (hok h1)
  | wfft _ h1 => exact fun _ => .inr (hok h1)
  | peak _ h1 => exact fun _ => .inr (hok h1)
  | hadv h1 => exact fun _ => .inr (hok h1)
  | start => exact fun _ => .inl rfl
  | startFault => exact fun _ => .inl rfl
  | emptyFault => exact fun _ => .inl rfl
  | rangeFault => exact fun _ => .inl rfl
  | clear => exact fun _ => .inl rfl
  | reset => exact fun _ => .inl rfl
  | _ => exact hs
/-- A released anchor list leaves room in the output FIFO: `hdone` gives RETIRE the `stage_ok` of its guard. -/
theorem stageOk_of_hdone {s : State} (h : Safety.ArchInv s) (hd : 1 ≤ s.impl.outDepth) (hp : s.phase = .flush)
    (hh : hdone s = true) : stageOk s = true := by
  have ha : s.a = s.P := by simpa [hdone] using (Bool.and_eq_true_iff.mp hh).2
  refine stageOk_iff.mpr ⟨.inr hp, ?_⟩
  rcases h.roomWhenReleased ha with he | hl
  · rw [he]; exact hd
  · exact hl

end Sys2Proof.Machine
end

