-- ==== Sys2Proof/Laws/Slots.lean ====
section
/-! SUPPORT. The spectrogram slots: reading a slot after filling one, and the canonical form (frame indices rising), which
every operation on the slots keeps. -/

namespace Sys2Proof.Machine

open Sys2Proof.Safety

/-- The slot just filled reads what was put there. -/
@[simp] theorem slot?_fillSlot_self (m : List (Nat × List F64)) (j : Nat) (v : List F64) :
    slot? (fillSlot m j v) j = some v := by
  induction m with
  | nil => simp [fillSlot, slot?]
  | cons x rest ih =>
    obtain ⟨k, u⟩ := x
    unfold fillSlot
    split
    · simp [slot?]
    · split
      · simp [slot?]
      · rename_i h1 h2
        have hk : k ≠ j := fun h => h2 h.symm
        simp [slot?, hk, ih]

/-- Every other slot reads as before. -/
theorem slot?_fillSlot_of_ne {j k : Nat} (h : k ≠ j) (m : List (Nat × List F64)) (v : List F64) :
    slot? (fillSlot m j v) k = slot? m k := by
  have hjk : j ≠ k := Ne.symm h
  induction m with
  | nil => simp [fillSlot, slot?, hjk]
  | cons x rest ih =>
    obtain ⟨i, u⟩ := x
    unfold fillSlot
    split
    · simp [slot?, hjk]
    · split
      · rename_i hi
        subst hi
        simp [slot?, hjk]
      · by_cases hik : i = k
        · simp [slot?, hik]
        · simp [slot?, hik, ih]

/-- The indices of the slots after a fill: the new one and those there were. -/
theorem mem_fillSlot {m : List (Nat × List F64)} {j : Nat} {v : List F64} {x : Nat × List F64}
    (h : x ∈ fillSlot m j v) : x.1 = j ∨ ∃ y ∈ m, y.1 = x.1 := by
  induction m with
  | nil =>
    rw [fillSlot, List.mem_singleton] at h
    exact .inl (h ▸ rfl)
  | cons y rest ih =>
    obtain ⟨k, u⟩ := y
    unfold fillSlot at h
    split at h
    · rcases List.mem_cons.mp h with rfl | h
      · exact .inl rfl
      · exact .inr ⟨x, h, rfl⟩
    · split at h
      · rcases List.mem_cons.mp h with rfl | h
        · exact .inl rfl
        · exact .inr ⟨x, List.mem_cons_of_mem _ h, rfl⟩
      · rcases List.mem_cons.mp h with rfl | h
        · exact .inr ⟨_, List.mem_cons_self, rfl⟩
        · rcases ih h with h | ⟨y, hy, he⟩
          · exact .inl h
          · exact .inr ⟨y, List.mem_cons_of_mem _ hy, he⟩

/-- Filling a slot keeps the frame indices rising. -/
theorem fillSlot_rising {m : List (Nat × List F64)} (j : Nat) (v : List F64) (h : SlotsRising m) :
    SlotsRising (fillSlot m j v) := by
  induction m with
  | nil => simp [fillSlot, SlotsRising]
  | cons x rest ih =>
    obtain ⟨k, u⟩ := x
    obtain ⟨h1, h2⟩ := List.pairwise_cons.mp h
    unfold fillSlot
    split
    · rename_i hjk
      refine List.pairwise_cons.mpr ⟨fun y hy => ?_, h⟩
      rcases List.mem_cons.mp hy with rfl | hy
      · exact hjk
      · exact lt_trans hjk (h1 y hy)
    · split
      · rename_i hjk
        exact List.pairwise_cons.mpr ⟨fun y hy => hjk ▸ h1 y hy, h2⟩
      · rename_i h3 h4
        refine List.pairwise_cons.mpr ⟨fun y hy => ?_, ih h2⟩
        rcases mem_fillSlot hy with he | ⟨z, hz, he⟩
        · show k < y.1
          omega
        · exact he ▸ h1 z hz

/-- Filling an empty slot adds one entry. -/
theorem length_fillSlot {m : List (Nat × List F64)} {j : Nat} (v : List F64) (h : slot? m j = none) :
    (fillSlot m j v).length = m.length + 1 := by
  induction m with
  | nil => rfl
  | cons x rest ih =>
    obtain ⟨k, u⟩ := x
    unfold slot? at h
    split at h
    · cases h
    · rename_i hk
      unfold fillSlot
      split
      · rfl
      · split
        · rename_i hj
          exact absurd hj.symm hk
        · simp [ih h]

/-- The empty spectrogram of the reset state and of the run-state clear has the form. -/
theorem slotsRising_nil : SlotsRising [] := List.Pairwise.nil

end Sys2Proof.Machine
end

