-- ==== Sys2Proof/Tests/Slice0.lean ====
section
/-! SUPPORT. Our own checks: the smoke test of well-formedness, a written-out word for every row of the operation maps,
one-step tests on the vectors of 95_test_vectors.md, and a witness for every statement that has hypotheses. -/

namespace Sys2Proof.Tests

open Sys2Proof.Machine Sys2Proof.Safety

/-! ### Well-formedness -/

/-- A FAULT beat with a value that `ERR` never has (60_exceptions.md R312) is refused. -/
theorem test_wellFormed_refuses_other_err_values :
    (Instr.fault 0x000#32).wellFormed = false ∧ (Instr.fault 0x601#32).wellFormed = false ∧
    (Instr.fault 0x102#32).wellFormed = false ∧ (Instr.fault 0x501#32).wellFormed = true := by decide

/-! ### Decoding: words written out from 30_encoding.md R101, R104, R108, R110 -/

/-- Does a word decode to an instruction? -/
def decodesTo (p : PortWord) (i : Instr) : Bool :=
  match decodeWord p with
  | .ok j => j == i
  | .error _ => false

/-- Does a word decode to an error? -/
def rejectedAs (p : PortWord) (e : DecodeError) : Bool :=
  match decodeWord p with
  | .ok _ => false
  | .error f => f == e

/-- Reads of 0x000 to 0x028. -/
theorem test_decode_identity_and_status :
    ([(.bus 0x000000000000#48, .rdId),
      (.bus 0x000400000000#48, .rdVersion),
      (.bus 0x000C00000000#48, .rdStatus),
      (.bus 0x001000000000#48, .rdErr),
      (.bus 0x001400000000#48, .rdErrInfo),
      (.bus 0x001800000000#48, .rdIrqEn),
      (.bus 0x001C00000000#48, .rdIrqPend),
      (.bus 0x002000000000#48, .rdCap0),
      (.bus 0x002400000000#48, .rdCap1),
      (.bus 0x002800000000#48, .rdCap2)] : List (PortWord × Instr)).all (fun p => decodesTo p.1 p.2) = true := by
  decide

/-- Reads of 0x040 to 0x064. -/
theorem test_decode_config_reads :
    ([(.bus 0x004000000000#48, .rdSrcRate),
      (.bus 0x004400000000#48, .rdTargetRate),
      (.bus 0x004800000000#48, .rdMinRate),
      (.bus 0x004C00000000#48, .rdFilterTaps),
      (.bus 0x005000000000#48, .rdFrameSize),
      (.bus 0x005400000000#48, .rdHopSize),
      (.bus 0x005800000000#48, .rdNumBands),
      (.bus 0x005C00000000#48, .rdTargetZone),
      (.bus 0x006000000000#48, .rdThreshLo),
      (.bus 0x006400000000#48, .rdThreshHi)] : List (PortWord × Instr)).all (fun p => decodesTo p.1 p.2) = true := by
  decide

/-- Reads of 0x080 to 0x0E8; the data of a read is not looked at. -/
theorem test_decode_counter_and_port_reads :
    ([(.bus 0x008000000000#48, .rdInCount),
      (.bus 0x008400000000#48, .rdDsCount),
      (.bus 0x008800000000#48, .rdFrameCount),
      (.bus 0x008C00000000#48, .rdPeakFrames),
      (.bus 0x009000000000#48, .rdPeakCount),
      (.bus 0x009400000000#48, .rdHashCount),
      (.bus 0x009800000000#48, .rdInLevel),
      (.bus 0x009C00000000#48, .rdHashLevel),
      (.bus 0x00C800000000#48, .rdHashData),
      (.bus 0x00E000000000#48, .rdCoefSel),
      (.bus 0x00E400000000#48, .rdCoefLo),
      (.bus 0x00E8DEADBEEF#48, .rdCoefHi)] : List (PortWord × Instr)).all (fun p => decodesTo p.1 p.2) = true := by
  decide

/-- The command words of R103. -/
theorem test_decode_commands :
    ([(.bus 0x800800000000#48, .cmdNop),
      (.bus 0x800800000001#48, .cmdStart),
      (.bus 0x800800000002#48, .cmdFinish),
      (.bus 0x800800000003#48, .cmdClear),
      (.bus 0x800800000004#48, .cmdReset)] : List (PortWord × Instr)).all (fun p => decodesTo p.1 p.2) = true := by
  decide

/-- Writes of every writable register. -/
theorem test_decode_writes :
    ([(.bus 0x8018FFFFFFFF#48, .wrIrqEn 0xFFFFFFFF#32),
      (.bus 0x80400000AC44#48, .wrSrcRate 0x0000AC44#32),
      (.bus 0x804400000004#48, .wrTargetRate 0x00000004#32),
      (.bus 0x804800000001#48, .wrMinRate 0x00000001#32),
      (.bus 0x804C00000003#48, .wrFilterTaps 0x00000003#32),
      (.bus 0x805000000008#48, .wrFrameSize 0x00000008#32),
      (.bus 0x805400000004#48, .wrHopSize 0x00000004#32),
      (.bus 0x805800000002#48, .wrNumBands 0x00000002#32),
      (.bus 0x805C00000001#48, .wrTargetZone 0x00000001#32),
      (.bus 0x80609999999A#48, .wrThreshLo 0x9999999A#32),
      (.bus 0x80643FB99999#48, .wrThreshHi 0x3FB99999#32),
      (.bus 0x80C000000001#48, .wrSampleLo 0x00000001#32),
      (.bus 0x80C43FE00000#48, .wrSampleHi 0x3FE00000#32),
      (.bus 0x80E080000003#48, .wrCoefSel 0x80000003#32)] : List (PortWord × Instr)).all (fun p => decodesTo p.1 p.2) = true := by
  decide

/-- The beats of R110; `idx` is an operand of WFFT and FAULT only. -/
theorem test_decode_beats :
    ([(.beat 0x10000002F#36, .ingest),
      (.beat 0x200000003#36, .kdes),
      (.beat 0x300000008#36, .wgen),
      (.beat 0x400000017#36, .fird),
      (.beat 0x5FFFFFFFE#36, .wfft 0xFFFFFFFE#32),
      (.beat 0x600000004#36, .peak),
      (.beat 0x700000000#36, .hemit),
      (.beat 0x800000001#36, .hadv),
      (.beat 0x900000015#36, .retire),
      (.beat 0xA00000501#36, .fault 0x501#32)] : List (PortWord × Instr)).all (fun p => decodesTo p.1 p.2) = true := by
  decide

/-- The refusals of vector H2, and the words that encode nothing. -/
theorem test_decode_rejects :
    ([(.bus 0x900800000001#48, .reservedBits), (.bus 0x000D00000000#48, .misaligned),
      (.bus 0x804200000001#48, .misaligned), (.bus 0x002C00000000#48, .reservedAddress),
      (.bus 0x806800000005#48, .reservedAddress), (.bus 0x0FFC00000000#48, .reservedAddress),
      (.bus 0x800000000001#48, .writeToReadOnly), (.bus 0x80C800000000#48, .writeToReadOnly),
      (.bus 0x000800000000#48, .readOfWriteOnly), (.bus 0x00C400000000#48, .readOfWriteOnly),
      (.bus 0x800800000005#48, .reservedCommand), (.bus 0x800800000101#48, .reservedCommand),
      (.beat 0x000000000#36, .reservedStageOp), (.beat 0xB00000000#36, .reservedStageOp)] :
      List (PortWord × DecodeError)).all (fun p => rejectedAs p.1 p.2) = true := by
  decide

/-- The table's numbering: five bytes for a beat, six for a transaction. -/
theorem test_decodeTableWord :
    decodeTableWord 48 0x80400000AC44 = some (.wrSrcRate 44100#32) ∧
    decodeTableWord 40 0xA00000301 = some (.fault 0x301#32) ∧ decodeTableWord 40 0xB00000000 = none := by decide

/-! ### States -/

/-- The configuration of program P1 with frames of four samples, in `IDLE`. -/
def idle : State :=
  { State.reset with
    srcRate := 8#32, targetRate := 4#32, minRate := 1#32, filterTaps := 3#32, frameSize := 4#32, hopSize := 2#32
    numBands := 2#32, targetZone := 1#32 }

/-- The same configuration right after `START`. -/
def run : State := { idle with phase := .run }

/-- The state after an operation. -/
def after (i : Instr) (s : State) : State :=
  match exec i s with
  | .next t => t
  | .fault _ => s
  | .refused _ => s

/-- The response of an operation. -/
def answer (i : Instr) (s : State) : Option Resp := (after i s).resp

/-- An accepted answer. -/
def okay (v : Word) : Option Resp := some ⟨false, v⟩

/-- A refusal. -/
def refusal : Option Resp := some ⟨true, 0#32⟩

/-! ### One step each: vectors of 95_test_vectors.md -/

/-- H1: every readable register right after reset. -/
theorem test_reads_after_reset :
    ([(.rdId, 0x4E414650#32), (.rdVersion, 0x00010000#32), (.rdStatus, 0#32), (.rdErr, 0#32), (.rdErrInfo, 0#32),
      (.rdIrqEn, 0#32), (.rdIrqPend, 0#32), (.rdCap0, 0x100003FF#32), (.rdCap1, 0x00000140#32),
      (.rdCap2, 0x00400010#32), (.rdSrcRate, 0#32), (.rdTargetRate, 0x2B11#32), (.rdMinRate, 0x2B11#32),
      (.rdFilterTaps, 0x65#32), (.rdFrameSize, 0x400#32), (.rdHopSize, 0x200#32), (.rdNumBands, 6#32),
      (.rdTargetZone, 0x14#32), (.rdThreshLo, 0x9999999A#32), (.rdThreshHi, 0x3FB99999#32), (.rdInCount, 0#32),
      (.rdDsCount, 0#32), (.rdFrameCount, 0#32), (.rdPeakFrames, 0#32), (.rdPeakCount, 0#32), (.rdHashCount, 0#32),
      (.rdInLevel, 0#32), (.rdHashLevel, 0#32), (.rdCoefSel, 0#32)] : List (Instr × Word)).all
      (fun p => answer p.1 State.reset == okay p.2) = true := by decide

/-- H2: the phase refusals in `IDLE`. -/
theorem test_refusals_in_idle :
    ([.rdHashData, .rdCoefLo, .rdCoefHi, .cmdFinish, .wrSampleLo 0#32, .wrSampleHi 0#32] : List Instr).all
      (fun i => after i State.reset == { State.reset with resp := refusal }) = true := by decide

/-- H3: the refusals by phase. -/
theorem test_refusals_by_phase :
    ([(.run, .wrSrcRate 1#32), (.run, .cmdStart), (.flush, .cmdFinish), (.flush, .wrSampleHi 0#32), (.done, .cmdStart),
      (.done, .cmdFinish), (.done, .wrFilterTaps 101#32), (.fault, .cmdStart), (.fault, .wrSampleHi 0#32),
      (.fault, .rdHashData)] : List (Phase × Instr)).all
      (fun p => answer p.2 { idle with phase := p.1 } == refusal) = true := by decide

/-- H4: masks and stored values. -/
theorem test_writes_store :
    (after (.wrIrqEn 0xFFFFFFFF#32) idle).irqEn = 0xF#32 ∧
    (after (.wrCoefSel 0xFFFFFFFF#32) idle).coefSel = 0x8000FFFF#32 ∧
    (after (.wrSrcRate 44100#32) idle).srcRate = 44100#32 ∧ (after (.wrTargetRate 5#32) idle).targetRate = 5#32 ∧
    (after (.wrMinRate 5#32) idle).minRate = 5#32 ∧ (after (.wrFilterTaps 100#32) idle).filterTaps = 100#32 ∧
    (after (.wrFrameSize 5#32) idle).frameSize = 5#32 ∧ (after (.wrHopSize 5#32) idle).hopSize = 5#32 ∧
    (after (.wrNumBands 5#32) idle).numBands = 5#32 ∧ (after (.wrTargetZone 5#32) idle).targetZone = 5#32 ∧
    (after (.wrThreshLo 5#32) idle).threshLo = 5#32 ∧ (after (.wrThreshHi 5#32) idle).threshHi = 5#32 := by decide

/-- H6: `START`, then `STATUS`; KDES and WGEN set bits 6 and 7. -/
theorem test_status_words :
    (after .cmdStart idle).phase = .run ∧ answer .rdStatus run = okay 0x11#32 ∧
    answer .rdStatus { run with kvalid := true } = okay 0x51#32 ∧
    answer .rdStatus { run with kvalid := true, wvalid := true } = okay 0xD1#32 := by decide

/-- D7: the end state of a short run. -/
theorem test_status_when_done :
    answer .rdStatus { idle with phase := .done, fin := true, kvalid := true, wvalid := true, xin := [fONE] } =
      okay 0x7EC3#32 := by decide

/-- F1 to F8: configuration changes against the reset state with `SRC_RATE = 44100`, and the error record. -/
def rated : State := { State.reset with srcRate := 44100#32 }

/-- The faulting configurations of F1 to F7l with the values they record. -/
def faultVectors : List (State × Word × Word) :=
  [(State.reset, 0x201#32, 0#32), ({ rated with srcRate := 8000#32 }, 0x201#32, 0x1F40#32),
   ({ rated with filterTaps := 100#32 }, 0x301#32, 0x64#32),
   ({ rated with srcRate := 8000#32, filterTaps := 100#32 }, 0x201#32, 0x1F40#32),
   ({ rated with filterTaps := 0#32 }, 0x301#32, 0#32),
   ({ rated with filterTaps := 100#32, targetRate := 0#32 }, 0x301#32, 0x64#32),
   ({ rated with targetRate := 0#32 }, 0x401#32, 0x44#32),
   ({ rated with srcRate := 0#32, minRate := 0#32 }, 0x401#32, 0x40#32),
   ({ rated with filterTaps := 1#32 }, 0x401#32, 0x4C#32), ({ rated with filterTaps := 1025#32 }, 0x401#32, 0x4C#32),
   ({ rated with frameSize := 1#32 }, 0x401#32, 0x50#32), ({ rated with frameSize := 4097#32 }, 0x401#32, 0x50#32),
   ({ rated with hopSize := 0#32 }, 0x401#32, 0x54#32), ({ rated with numBands := 0#32 }, 0x401#32, 0x58#32),
   ({ rated with numBands := 65#32 }, 0x401#32, 0x58#32),
   ({ rated with frameSize := 8#32, numBands := 6#32 }, 0x401#32, 0x58#32),
   ({ rated with threshHi := 0x7FF00000#32 }, 0x401#32, 0x60#32),
   ({ rated with threshHi := 0x7FF80000#32 }, 0x401#32, 0x60#32)]

/-- F1 to F7l: `START` records the cause and completes, and the FAULT turn does the same. -/
theorem test_start_faults :
    faultVectors.all (fun p =>
      (after .cmdStart p.1).err == p.2.1 && (after .cmdStart p.1).errInfo == p.2.2 &&
      (after .cmdStart p.1).phase == .fault && (after .cmdStart p.1).trace == [⟨10#4, p.2.1⟩] &&
      answer .cmdStart p.1 == okay 0#32 && after (.fault p.2.1) p.1 == after .cmdStart p.1) = true := by
  decide +kernel

/-- The legal neighbours of F1 to F7l. -/
theorem test_start_runs :
    ([{ rated with frameSize := 8#32, numBands := 5#32 }, { rated with filterTaps := 3#32 },
      { rated with filterTaps := 1023#32 }, { rated with frameSize := 2#32, numBands := 2#32 },
      { rated with hopSize := 4096#32 }, { rated with targetZone := 0#32 }, { rated with threshHi := 0xBFB99999#32 },
      { rated with srcRate := 11025#32 }, { rated with srcRate := 4#32, targetRate := 8#32, minRate := 0#32 }] :
      List State).all (fun s => (after .cmdStart s).phase == .run) = true := by decide +kernel

/-- F8, and `FINISH` with one sample queued. -/
theorem test_finish :
    (after .cmdFinish run).err = 0x101#32 ∧ (after .cmdFinish run).phase = .fault ∧
    (after .cmdFinish { run with inFifo := [fONE] }).phase = .flush ∧
    (after .cmdFinish { run with inFifo := [fONE] }).fin = true := by decide

/-- H5: `CLEAR` against `RESET`, in `FAULT`. -/
theorem test_clear_and_reset :
    (after .cmdClear { rated with phase := .fault, err := 0x301#32, errInfo := 100#32, filterTaps := 100#32 }).err =
      0#32 ∧
    (after .cmdClear { rated with phase := .fault, filterTaps := 100#32 }).filterTaps = 100#32 ∧
    (after .cmdReset { rated with filterTaps := 100#32, irqEn := 0xF#32 }).filterTaps = 101#32 ∧
    (after .cmdReset { rated with irqEn := 0xF#32 }).irqEn = 0#32 ∧ after .cmdNop run = { run with resp := okay 0#32 } :=
  by decide

/-- F10: the samples accepted and refused as the first push of a run. -/
theorem test_push_range :
    ([(0xBFF00000#32, 0#32), (0x3FF00000#32, 0#32), (0x80000000#32, 0#32), (0#32, 1#32)] : List (Word × Word)).all
      (fun p => (after (.wrSampleHi p.1) { run with slo := p.2 }).inFifo == [p.1 ++ p.2]) = true ∧
    ([(0x3FF00000#32, 1#32), (0xBFF00000#32, 1#32), (0x40000000#32, 0#32), (0x7FF00000#32, 0#32),
      (0xFFF00000#32, 0#32), (0x7FF80000#32, 0#32), (0x7FF00000#32, 1#32), (0xBFF00020#32, 0x00400080#32)] :
      List (Word × Word)).all
      (fun p => (after (.wrSampleHi p.1) { run with slo := p.2 }).err == 0x501#32 &&
        (after (.wrSampleHi p.1) { run with slo := p.2 }).inFifo == []) = true := by decide +kernel

/-- F9, F11: the index of the offending sample; a full FIFO refuses before the range is looked at. -/
theorem test_push_order :
    (after (.wrSampleHi 0x3FF00000#32) { run with slo := 1#32, xin := List.replicate 17 fONE }).errInfo = 0x11#32 ∧
    answer (.wrSampleHi 0x7FF00000#32) { run with inFifo := List.replicate 16 fONE } = refusal ∧
    (after (.wrSampleLo 7#32) run).slo = 7#32 := by decide +kernel

/-- Q2: two pops and a refused third. -/
theorem test_pop :
    answer .rdHashData { run with hq := [0x0080C000#32, 0x00804001#32] } = okay 0x0080C000#32 ∧
    (after .rdHashData { run with hq := [0x0080C000#32, 0x00804001#32] }).hq = [0x00804001#32] ∧
    answer .rdHashData run = refusal := by decide

/-- I1: the interrupt levels in six states. -/
theorem test_irq_levels :
    answer .rdIrqPend run = okay 0x8#32 ∧ answer .rdIrqPend { run with hq := [0#32] } = okay 0xC#32 ∧
    answer .rdIrqPend { run with phase := .flush, hq := [0#32] } = okay 0x4#32 ∧
    answer .rdIrqPend { run with phase := .done, hq := [0#32] } = okay 0x5#32 ∧
    answer .rdIrqPend { run with phase := .fault } = okay 0x2#32 ∧
    irqLine { run with irqEn := 1#32 } = false ∧ irqLine { run with irqEn := 0xF#32 } = true := by decide

/-- K2: the kernel of `Fs = 8`, `Ft = 4`, `NT = 3`, and its halves read back. -/
theorem test_kernel_K2 :
    (after .kdes run).kern = [0x3FA7AA5821BD27C9#64, 0x3FED0AB4FBC85B08#64, 0x3FA7AA5821BD27C9#64] ∧
    (after .kdes run).ksumZero = false := by decide +kernel

/-- R148 on the kernel of K2, and on an index out of range. -/
theorem test_coefficient_reads :
    answer .rdCoefLo { run with kvalid := true, kern := [0#64, 0x3FED0AB4FBC85B08#64, 0#64], coefSel := 1#32 } =
      okay 0xFBC85B08#32 ∧
    answer .rdCoefHi { run with kvalid := true, kern := [0#64, 0x3FED0AB4FBC85B08#64, 0#64], coefSel := 1#32 } =
      okay 0x3FED0AB4#32 ∧
    answer .rdCoefHi { run with kvalid := true, coefSel := 3#32 } = refusal := by decide

/-- W1: the window of `F = 4`, which is not symmetric. -/
theorem test_window_W1 :
    (after .wgen run).win = [0x3FB47AE147AE147C#64, 0x3FE8A3D70A3D70A3#64, 0x3FE8A3D70A3D70A6#64, 0x3FB47AE147AE147C#64] :=
  by decide +kernel

/-- D2: outputs 0 and 3 over the kernel of K2, and the beat of INGEST. -/
def d2 : State :=
  { run with
    kvalid := true, kern := [0x3FA7AA5821BD27C9#64, 0x3FED0AB4FBC85B08#64, 0x3FA7AA5821BD27C9#64]
    xin := [fONE, 0#64, 0#64, 0#64, 0#64, 0x3FE0000000000000#64, 0xBFF0000000000000#64, 0x3FD0000000000000#64] }

theorem test_fird_D2 :
    (after .fird d2).ys = [0x3FED0AB4FBC85B08#64] ∧
    (after .fird { d2 with ys := [0#64, 0#64, 0#64] }).ys[3]? = some 0xBFEBEEB8DA337D2B#64 ∧
    (after .fird { d2 with ys := [0#64, 0#64, 0#64, 0#64] }).ys.length = 4 := by decide +kernel

/-- R191: the example of INGEST. -/
theorem test_ingest :
    (after .ingest { run with inFifo := [0x3FE0000000000000#64] }).xin = [0x3FE0000000000000#64] ∧
    (after .ingest { run with inFifo := [0x3FE0000000000000#64] }).trace = [⟨1#4, 0#32⟩] := by decide

/-- T4: the transform of `[0, 0.25, 0.5, 0.75]`, here under a window of ones; the tap shows the bins upward. -/
def t4 : State :=
  { run with
    wvalid := true, win := [fONE, fONE, fONE, fONE]
    ys := [0#64, 0x3FD0000000000000#64, 0x3FE0000000000000#64, 0x3FE8000000000000#64] }

theorem test_wfft_T4 :
    (after (.wfft 0#32) t4).spec = [(0, [0x3FF8000000000000#64, 0x3FE6A09E667F3BCD#64, 0x3FE0000000000000#64])] ∧
    (after (.wfft 1#32) t4).spec = [] := by decide +kernel

/-- PK2 and PK6a: ties and an all-zero band under a negative multiplier. -/
theorem test_peak_PK2_PK6a :
    (after .peak { run with
      frameSize := 8#32, spec := [(0, [0x3FF0000000000000#64, 0x4008000000000000#64, 0x4008000000000000#64,
        0x4000000000000000#64, 0x3FE0000000000000#64])] }).pk =
      [⟨0, 1, 0x4008000000000000#64⟩, ⟨0, 2, 0x4008000000000000#64⟩] ∧
    (after .peak { run with
      frameSize := 6#32, threshHi := 0xBFB99999#32, spec := [(0, [0#64, 0#64, 0#64, fONE])] }).pk = [⟨0, 3, fONE⟩] := by
  decide +kernel

/-- HP: the hash words that tell saturation from a mask, and one plain word. -/
theorem test_pack_HP :
    pack 84 93 20 = 0x2A174014#32 ∧ pack 512 0 0 = 0xFF800000#32 ∧ pack 600 700 0 = 0xFFFFC000#32 ∧
    pack 5 7 16384 = 0x0281FFFF#32 ∧ pack 256 1 2 = 0x80004002#32 := by decide

/-- HE1: the first pair, and the release of anchor 0 after its two targets. -/
def he1 : State :=
  { run with phase := .flush, fin := true, xin := [fONE], pk := [⟨0, 1, fONE⟩, ⟨0, 3, fONE⟩, ⟨1, 2, fONE⟩] }

theorem test_hash_HE1 :
    (after .hemit he1).hq = [0x0080C000#32] ∧ (after .hemit { he1 with t := 3 }).hq = [] ∧
    (after .hadv { he1 with t := 3 }).a = 1 ∧ (after .hadv { he1 with t := 3 }).t = 2 := by decide

/-- HS: form 2 of HADV waits for frame 1, form 1 does not. -/
theorem test_hadv_HS :
    (after .hadv { run with pk := [⟨0, 5, fONE⟩], npf := 1 }).a = 0 ∧
    (after .hadv { run with pk := [⟨0, 5, fONE⟩], npf := 2 }).a = 1 ∧
    (after .hadv { run with pk := [⟨0, 5, fONE⟩, ⟨2, 7, fONE⟩], npf := 3 }).a = 1 := by decide

/-- R160: RETIRE after the last step of a run of one sample; not before it. -/
theorem test_retire :
    (after .retire { run with phase := .flush, fin := true, xin := [fONE] }).phase = .done ∧
    (after .retire { run with phase := .flush, fin := true, inFifo := [fONE] }).phase = .flush := by decide

/-- R13, R84: no stage step with a full output FIFO, in no state. -/
theorem test_retire_full :
    let s : State := { run with phase := .flush, fin := true, xin := [fONE], hq := List.replicate 64 0#32 }
    after .retire s = s := by decide

/-- The FAULT turn outside its causes changes nothing; in `RUN` it takes the cause that stands. -/
theorem test_fault_turn :
    after (.fault 0x101#32) { run with xin := [fONE] } = { run with xin := [fONE] } ∧
    (after (.fault 0x501#32) { run with xin := [fONE] }).errInfo = 1#32 := by decide

/-- `withFetchWord` makes a word the next event. -/
theorem test_withFetchWord :
    (match step (State.reset.withFetchWord 48 0x80400000AC44) with
      | .next t => t.srcRate == 44100#32
      | _ => false) = true := by decide

/-- S1 and S2: the Normalizer at the boundary (47_host_boundary.md R292). -/
theorem test_normalise :
    normalise [16384, -32768, 0] = [0x3FE0000000000000#64, 0xBFF0000000000000#64, 0#64] ∧
    normalise [32767, -16384] = [0x3FF0000000000000#64, 0xBFE0002000400080#64] := by decide +kernel

/-- R114: `RDCOEF` and `SETMULT` are these transactions. -/
theorem test_pseudo_operations :
    rdCoefOps false 50 = [.wrCoefSel 50#32, .rdCoefLo, .rdCoefHi] ∧
    rdCoefOps true 3 = [.wrCoefSel 0x80000003#32, .rdCoefLo, .rdCoefHi] ∧
    setMultOps 0x3FB999999999999A#64 = [.wrThreshLo 0x9999999A#32, .wrThreshHi 0x3FB99999#32] := by decide

/-! ### Witnesses: for every statement with hypotheses, values that meet them together -/

/-- A run with one sample queued. -/
def queued : State := { run with inFifo := [fONE] }

/-- The end of input signalled, one sample still queued. -/
def flushing : State := { idle with phase := .flush, fin := true, inFifo := [fONE] }

/-- A finished run of one sample, too short for an output. -/
def finished : State := { idle with phase := .done, fin := true, xin := [fONE] }

/-- The event of a transaction. -/
def bus (w : BusWord) : Event := .word (.bus w)

/-- The event of a beat. -/
def beat (w : BeatWord) : Event := .word (.beat w)

theorem cfgOk_idle : cfgOk idle := by decide +kernel

theorem archInv_idle : ArchInv idle where
  slotsRising := by decide
  irqEnReserved := by decide
  coefSelReserved := by decide
  errPhase := by decide
  errValue := by decide
  errInfoPhase := fun _ => by decide
  inFifoBound := by decide
  hqBound := by decide
  acceptedBound := by decide +kernel
  samplesInRange := fun v h => by cases h
  idleClear := fun _ => by decide
  finPhase := by decide
  inputSeen := fun h => by cases h
  configLegal := fun h => by rcases h with h | h | h <;> cases h
  ksumFlag := fun h => by cases h
  kernLength := fun h => by cases h
  winLength := fun h => by cases h
  faultFlushed := fun _ => rfl
  hashesCounted := fun _ => rfl
  doneComplete := fun h => by cases h
  roomWhenReleased := fun _ => .inl rfl

theorem one_in_range : ∀ v ∈ [fONE], outOfRange v = false := by
  intro v h
  rw [List.mem_singleton.mp h]
  decide

theorem archInv_queued : ArchInv queued where
  slotsRising := by decide
  irqEnReserved := by decide
  coefSelReserved := by decide
  errPhase := by decide
  errValue := by decide
  errInfoPhase := fun _ => by decide
  inFifoBound := by decide
  hqBound := by decide
  acceptedBound := by decide +kernel
  samplesInRange := one_in_range
  idleClear := fun h => by cases h
  finPhase := by decide
  inputSeen := fun h => by cases h
  configLegal := fun _ => cfgOk_idle
  ksumFlag := fun h => by cases h
  kernLength := fun h => by cases h
  winLength := fun h => by cases h
  faultFlushed := fun _ => rfl
  hashesCounted := fun _ => rfl
  doneComplete := fun h => by cases h
  roomWhenReleased := fun _ => .inl rfl

theorem archInv_flushing : ArchInv flushing where
  slotsRising := by decide
  irqEnReserved := by decide
  coefSelReserved := by decide
  errPhase := by decide
  errValue := by decide
  errInfoPhase := fun _ => by decide
  inFifoBound := by decide
  hqBound := by decide
  acceptedBound := by decide +kernel
  samplesInRange := one_in_range
  idleClear := fun h => by cases h
  finPhase := by decide
  inputSeen := fun _ => by decide
  configLegal := fun _ => cfgOk_idle
  ksumFlag := fun h => by cases h
  kernLength := fun h => by cases h
  winLength := fun h => by cases h
  faultFlushed := fun _ => rfl
  hashesCounted := fun _ => rfl
  doneComplete := fun h => by cases h
  roomWhenReleased := fun _ => .inl rfl

theorem archInv_run : ArchInv run where
  slotsRising := by decide
  irqEnReserved := by decide
  coefSelReserved := by decide
  errPhase := by decide
  errValue := by decide
  errInfoPhase := fun _ => by decide
  inFifoBound := by decide
  hqBound := by decide
  acceptedBound := by decide +kernel
  samplesInRange := fun v h => by cases h
  idleClear := fun h => by cases h
  finPhase := by decide
  inputSeen := fun h => by cases h
  configLegal := fun _ => cfgOk_idle
  ksumFlag := fun h => by cases h
  kernLength := fun h => by cases h
  winLength := fun h => by cases h
  faultFlushed := fun _ => rfl
  hashesCounted := fun _ => rfl
  doneComplete := fun h => by cases h
  roomWhenReleased := fun _ => .inl rfl

theorem archInv_finished : ArchInv finished where
  slotsRising := by decide
  irqEnReserved := by decide
  coefSelReserved := by decide
  errPhase := by decide
  errValue := by decide
  errInfoPhase := fun _ => by decide
  inFifoBound := by decide
  hqBound := by decide
  acceptedBound := by decide +kernel
  samplesInRange := one_in_range
  idleClear := fun h => by cases h
  finPhase := by decide
  inputSeen := fun _ => by decide
  configLegal := fun _ => cfgOk_idle
  ksumFlag := fun h => by cases h
  kernLength := fun h => by cases h
  winLength := fun h => by cases h
  faultFlushed := fun _ => rfl
  hashesCounted := fun _ => rfl
  doneComplete := fun _ => by decide
  roomWhenReleased := fun _ => .inl rfl

/-- Before the first output, slot and peak the stream invariant says nothing but where the cursors stand. -/
theorem streamInv_empty {s : State} (hk : s.kvalid = false) (hw : s.wvalid = false) (hy : s.ys = []) (hs : s.spec = [])
    (hp : s.pk = []) (hn : s.npf = 0) (ha : s.a = 0) (ht : s.t = 1) (hq : s.hq = []) (ho : s.popped = []) :
    StreamInv s where
  kernel := fun h => by rw [hk] at h; cases h
  window := fun h => by rw [hw] at h; cases h
  outputs := fun i h => by simp [State.m, hy] at h
  slots := fun j v h => by rw [hs] at h; cases h
  peaks := by simp [hp, hn]
  searched := fun j h => by omega
  anchorBound := by omega
  targetBound := fun h => by simp [State.P, hp] at h
  targetFresh := fun _ => by omega
  taken := fun p q k h => by simp [hp] at h
  released := fun i p h => by omega
  hashes := fun _ => by simp [produced, hq, ho, hashesBelow, hp, ha]

theorem streamInv_queued : StreamInv queued := streamInv_empty rfl rfl rfl rfl rfl rfl rfl rfl rfl rfl
theorem streamInv_flushing : StreamInv flushing := streamInv_empty rfl rfl rfl rfl rfl rfl rfl rfl rfl rfl
theorem streamInv_finished : StreamInv finished := streamInv_empty rfl rfl rfl rfl rfl rfl rfl rfl rfl rfl

theorem toFix_one : toFix fONE = 2 ^ 1074 := by decide +kernel
theorem toFix_above : toFix 0x3FF0000000000001#64 = 2 ^ 1074 + 2 ^ 1022 := by decide +kernel
theorem toFix_minus : toFix 0xBFF0000000000000#64 = -2 ^ 1074 := by decide +kernel
theorem toRat_one : toRat fONE = 1 := by
  unfold toRat
  rw [toFix_one]
  push_cast
  exact div_self (by positivity)
theorem toRat_minus_one : |toRat 0xBFF0000000000000#64| ≤ 1 := by
  unfold toRat
  rw [toFix_minus]
  push_cast
  rw [neg_div, abs_neg, div_self (by positivity), abs_one]
theorem toRat_above_one : (1 : ℚ) < |toRat 0x3FF0000000000001#64| := by
  unfold toRat
  rw [toFix_above]
  push_cast
  rw [add_div, div_self (by positivity)]
  have : (0 : ℚ) < 2 ^ 1022 / 2 ^ 1074 := by positivity
  rw [abs_of_pos (by linarith)]
  linarith

/-- A write, a read with data, and a beat of each clause, at the ends of its ids. -/
theorem witness_DecodedWordsReencode :
    decodeWord (.bus 0x80400000AC44#48) = .ok (.wrSrcRate 44100#32) ∧
    decodeWord (.bus 0x00E8DEADBEEF#48) = .ok .rdCoefHi ∧ decodeWord (.beat 0x5FFFFFFFF#36) = .ok (.wfft 0xFFFFFFFF#32) ∧
    decodeWord (.beat 0xA00000501#36) = .ok (.fault 0x501#32) ∧ decodeWord (.beat 0x1FFFFFFFF#36) = .ok .ingest ∧
    decodeWord (.beat 0x900000001#36) = .ok .retire := ⟨rfl, rfl, rfl, rfl, rfl, rfl⟩

theorem witness_StepRunsTheDecodedInstruction :
    ({ run with script := [beat 0x100000000#36] } : State).script = .word (.beat 0x100000000#36) :: [] ∧
    decodeWord (.beat 0x100000000#36) = .ok .ingest := ⟨rfl, rfl⟩

theorem witness_StepsThatRunNoInstruction :
    run.script = [] ∧ ({ run with script := [.hardReset] } : State).script = .hardReset :: [] ∧
    (({ run with script := [bus 0x900800000001#48] } : State).script = .word (.bus 0x900800000001#48) :: [] ∧
      (0x900800000001#48).extractLsb' 44 3 ≠ 0#3) ∧
    (({ run with script := [beat 0xB00000000#36] } : State).script = .word (.beat 0xB00000000#36) :: [] ∧
      11 ≤ ((0xB00000000#36).extractLsb' 32 4).toNat) ∧ ((0x0FFFFFFFF#36).extractLsb' 32 4).toNat = 0 := by
  refine ⟨rfl, rfl, ⟨rfl, by decide⟩, ⟨rfl, by decide⟩, by decide⟩

theorem witness_IllegalTransactionsAreRefused :
    ([0x000D00000000#48, 0x002C00000000#48, 0x803C00000000#48, 0x0FFC00000000#48, 0x80E800000000#48, 0x00C400000000#48,
      0x800800000005#48, 0x8008FFFFFFFF#48] : List BusWord).all (fun w => w.extractLsb' 44 3 == 0#3) = true ∧
    ((0x000D00000000#48).extractLsb' 32 12).toNat % 4 ≠ 0 ∧
    (reservedAddress 0x02C ∧ reservedAddress 0x03C ∧ reservedAddress 0x068 ∧ reservedAddress 0x07C ∧
      reservedAddress 0x0A0 ∧ reservedAddress 0x0BC ∧ reservedAddress 0x0CC ∧ reservedAddress 0x0DC ∧
      reservedAddress 0x0EC ∧ reservedAddress 0xFFC) ∧
    ((0x80E800000000#48).getLsbD 47 = true ∧ ((0x80E800000000#48).extractLsb' 32 12).toNat ∈ readOnlyAddresses) ∧
    ((0x00C400000000#48).getLsbD 47 = false ∧ ((0x00C400000000#48).extractLsb' 32 12).toNat ∈ writeOnlyAddresses) ∧
    ((0x800800000005#48).getLsbD 47 = true ∧ (0x800800000005#48).extractLsb' 32 12 = 0x008#12 ∧
      5 ≤ ((0x800800000005#48).extractLsb' 0 32).toNat) := by
  refine ⟨by decide, by decide, ?_, by decide, by decide, by decide⟩
  unfold reservedAddress
  omega

theorem witness_PushPairQueuesTheSample :
    let s : State := { run with script := scriptOf (pushOps fONE), inFifo := List.replicate 15 fONE }
    s.script = scriptOf (pushOps fONE) ++ [] ∧ s.phase = .run ∧ s.inFifo.length < s.impl.inDepth ∧
    s.xin.length + s.inFifo.length < 2 ^ 32 - 1 ∧ isFinite fONE = true ∧ |toRat fONE| ≤ 1 := by
  refine ⟨by simp, rfl, by decide, by decide, by decide, by rw [toRat_one]; norm_num⟩

theorem witness_ConstantRegisterReads : Config.legal State.reset.impl := by decide

theorem witness_IdleReadsZero :
    ArchInv idle ∧ idle.phase = .idle ∧ Instr.rdStatus ∈ [Instr.rdStatus, .rdHashLevel] := ⟨archInv_idle, rfl, by decide⟩

theorem witness_ConfigurationWrites :
    idle.phase = .idle ∧ run.phase ≠ .idle ∧ Instr.wrSrcRate 1#32 ∈ [Instr.wrSrcRate 1#32] := by decide

theorem witness_StartOnALegalConfiguration :
    idle.phase = .idle ∧ idle.minRate.toNat ≤ idle.srcRate.toNat ∧ idle.filterTaps.toNat % 2 = 1 ∧
    1 ≤ idle.targetRate.toNat ∧ 1 ≤ idle.srcRate.toNat ∧ 3 ≤ idle.filterTaps.toNat ∧
    idle.filterTaps.toNat ≤ idle.impl.maxTaps ∧ 2 ≤ idle.frameSize.toNat ∧
    idle.frameSize.toNat ≤ idle.impl.maxFrame ∧ 1 ≤ idle.hopSize.toNat ∧ 1 ≤ idle.numBands.toNat ∧
    idle.numBands.toNat ≤ min idle.impl.maxBands (idle.frameSize.toNat / 2 + 1) ∧
    isFinite (idle.threshHi ++ idle.threshLo) = true ∧ run.phase ≠ .idle := by decide

/-- Each of the nine checks of `START` is the first to fail in one of the vectors F1 to F7l; none fails in `idle`. -/
theorem witness_StartReportsTheFirstFailingCheck :
    faultVectors.all (fun p => p.1.phase == .idle &&
      (startChecks p.1).find? (fun c => c.1) == some (true, p.2.1, p.2.2)) = true ∧
    idle.phase = .idle ∧ (startChecks idle).find? (fun c => c.1) = none := by decide +kernel

theorem witness_FinishEndsTheInput :
    (queued.phase = .run ∧ 0 < queued.xin.length + queued.inFifo.length) ∧
    (run.phase = .run ∧ run.xin.length + run.inFifo.length = 0) ∧ idle.phase ≠ .run := by decide

theorem witness_NopAndClearCommands : ArchInv idle ∧ idle.phase = .idle := ⟨archInv_idle, rfl⟩

theorem witness_ResetGivesTheResetState :
    ({ run with script := [.hardReset, .hardReset] } : State).script = .hardReset :: [.hardReset] := rfl

theorem witness_SampleLowLatches : run.phase = .run ∧ idle.phase ≠ .run := by decide

/-- There is a signal of every length. -/
theorem exists_long_signal (n : Nat) : ∃ x : List F64, x.length = n := ⟨List.replicate n fONE, List.length_replicate⟩

/-- Each clause at its boundary: 1.0 and -1.0 with one place left; the next value above 1.0, and an infinity; a wrong phase,
and a full FIFO. (The run length limit takes `2^32 - 1` samples and is met by the state with that many.) -/
theorem witness_SampleHighPushes :
    (let s : State := { run with inFifo := List.replicate 15 fONE }
     s.phase = .run ∧ s.inFifo.length < s.impl.inDepth ∧ s.xin.length + s.inFifo.length < 2 ^ 32 - 1 ∧
     isFinite (0x3FF00000#32 ++ s.slo) = true ∧ |toRat (0x3FF00000#32 ++ s.slo)| ≤ 1 ∧
     |toRat (0xBFF00000#32 ++ s.slo)| ≤ 1) ∧
    (let s : State := { run with slo := 1#32 }
     s.phase = .run ∧ s.inFifo.length < s.impl.inDepth ∧ s.xin.length + s.inFifo.length < 2 ^ 32 - 1 ∧
     1 < |toRat (0x3FF00000#32 ++ s.slo)| ∧ isFinite (0x7FF00000#32 ++ s.slo) = false) ∧
    idle.phase ≠ .run ∧
    (let s : State := { run with inFifo := List.replicate 16 fONE }
     s.impl.inDepth ≤ s.inFifo.length) ∧
    (∃ x : List F64, let s : State := { run with xin := x }
     2 ^ 32 - 1 ≤ s.xin.length + s.inFifo.length) := by
  obtain ⟨x, hx⟩ := exists_long_signal (2 ^ 32 - 1)
  refine ⟨⟨rfl, by decide, by decide, by decide, ?_, toRat_minus_one⟩, ⟨rfl, by decide, by decide, ?_, by decide⟩,
    by decide, by decide, ⟨x, by show _ ≤ x.length + _; omega⟩⟩
  · exact (congrArg abs toRat_one).trans abs_one |>.le
  · exact toRat_above_one

theorem witness_HashDataPops :
    (let s : State := { finished with hq := [0x0080C000#32] }
     (s.phase = .run ∨ s.phase = .flush ∨ s.phase = .done) ∧ s.hq = 0x0080C000#32 :: []) ∧
    idle.phase = .idle ∧ ({ run with phase := .fault } : State).phase = .fault ∧ run.hq = [] := by decide

theorem witness_CoefficientReads :
    (let s : State := { run with kvalid := true, kern := [0#64, fONE, fTWO], coefSel := 2#32 }
     s.phase ≠ .idle ∧ s.coefSel.getLsbD 31 = false ∧ s.kvalid = true ∧
     (s.coefSel.extractLsb' 0 16).toNat < s.filterTaps.toNat ∧ s.kern[(s.coefSel.extractLsb' 0 16).toNat]? = some fTWO) ∧
    (let s : State := { run with wvalid := true, win := [0#64, 0#64, 0#64, fONE], coefSel := 0x80000003#32 }
     s.phase ≠ .idle ∧ s.coefSel.getLsbD 31 = true ∧ s.wvalid = true ∧
     (s.coefSel.extractLsb' 0 16).toNat < s.frameSize.toNat ∧ s.win[(s.coefSel.extractLsb' 0 16).toNat]? = some fONE) ∧
    idle.phase = .idle ∧ (run.coefSel.getLsbD 31 = false ∧ run.kvalid = false) ∧
    (let s : State := { run with kvalid := true, coefSel := 3#32 }
     s.coefSel.getLsbD 31 = false ∧ s.filterTaps.toNat ≤ (s.coefSel.extractLsb' 0 16).toNat) ∧
    (let s : State := { run with wvalid := true, coefSel := 0x80000004#32 }
     s.coefSel.getLsbD 31 = true ∧ s.frameSize.toNat ≤ (s.coefSel.extractLsb' 0 16).toNat) := by decide

theorem witness_TurnsActExactlyWhenGuarded :
    isStageTurn .ingest = true ∧ 1 ≤ queued.hopSize.toNat ∧ Guard .ingest queued ∧ ¬ Guard .ingest run :=
  ⟨rfl, by decide, ⟨by decide, by decide⟩, fun h => absurd h.2 (by decide)⟩

theorem witness_IngestMovesOneSample : StageOk queued ∧ queued.inFifo = fONE :: [] := by decide

theorem witness_KernelDesignStep : StageOk run ∧ run.kvalid = false := by decide

theorem witness_WindowGenerationStep : StageOk run ∧ run.wvalid = false := by decide

/-- Both disjuncts of the guard: every sample of the filter is in; or none will come. -/
theorem witness_DecimationStep :
    Guard .fird { d2 with xin := [fONE, fONE] } ∧
    Guard .fird { d2 with xin := [fONE], targetRate := 8#32, fin := true, phase := .flush } := by
  refine ⟨⟨by decide, rfl, by decide, .inl (by decide)⟩, ⟨by decide, rfl, by decide, .inr (by decide)⟩⟩

/-- A ready frame; the same one named by the schedule; a frame that does not exist. -/
theorem witness_TransformStep :
    (StageOk t4 ∧ t4.wvalid = true ∧ 1 ≤ t4.hopSize.toNat ∧ 0 * t4.hopSize.toNat + t4.frameSize.toNat ≤ t4.ys.length ∧
      slot? t4.spec 0 = none ∧ 0 < 2 ^ 32) ∧
    let s : State := { t4 with script := [.frame 1] }
    s.script = .frame 1 :: [] ∧
    ¬ (StageOk s ∧ s.wvalid = true ∧ 1 * s.hopSize.toNat + s.frameSize.toNat ≤ s.ys.length ∧ slot? s.spec 1 = none) := by
  decide

theorem witness_PeakStep :
    let s : State := { run with spec := [(0, [fONE, fzero, fONE])] }
    StageOk s ∧ slot? s.spec s.npf = some [fONE, fzero, fONE] := by decide

theorem witness_HashEncoderSteps :
    (StageOk he1 ∧ he1.pk[he1.a]? = some ⟨0, 1, fONE⟩ ∧ he1.pk[he1.t]? = some ⟨0, 3, fONE⟩ ∧
      0 - 0 ≤ he1.targetZone.toNat) ∧
    Guard .hadv { he1 with targetZone := 0#32, t := 2 } ∧ Guard .hadv { he1 with t := 3, npf := 2 } := by
  refine ⟨by decide, ⟨by decide, _, rfl, .inl ⟨_, rfl, by decide⟩⟩, ⟨by decide, _, rfl, .inr ⟨by decide, .inr (by decide)⟩⟩⟩

theorem framesOf_finished : framesOf finished = 0 := by decide

theorem hDone_finished : HDone finished :=
  ⟨⟨⟨⟨by decide, by decide⟩, fun j h => absurd h (by rw [framesOf_finished]; omega)⟩, by decide⟩, rfl⟩

/-- The run of `finished` before RETIRE. -/
def closing : State := { finished with phase := .flush }

theorem archInv_closing : ArchInv closing :=
  { archInv_finished with
    errInfoPhase := fun _ => rfl, idleClear := fun h => (nomatch h), finPhase := by decide
    configLegal := fun _ => cfgOk_idle, faultFlushed := fun _ => rfl, hashesCounted := fun _ => rfl
    errPhase := by decide, doneComplete := fun h => (nomatch h) }

/-- `closing` with a hash that the host has not popped. -/
def unpopped : State := { closing with hq := [0#32], hashCount := 1 }

theorem witness_RetireEndsTheRun :
    (ArchInv closing ∧ 1 ≤ closing.impl.outDepth ∧ closing.phase = .flush ∧ HDone closing) ∧
    (unpopped.hq.length < unpopped.impl.outDepth ∧ unpopped.phase = .flush ∧ HDone unpopped) :=
  ⟨⟨archInv_closing, by decide, rfl, hDone_finished⟩, by decide, rfl, hDone_finished⟩

theorem witness_FaultTurnEntersThePossibleFaults :
    (run.phase = .run ∧ run.xin.length + run.inFifo.length = 0) ∧
    (run.inFifo.length < run.impl.inDepth ∧ run.xin.length + run.inFifo.length < 2 ^ 32 - 1) ∧
    (State.reset.phase = .idle ∧ (startChecks State.reset).find? (fun c => c.1) = some (true, 0x201#32, 0#32)) ∧
    (queued.phase = .run ∧ ¬ (0x101#32 = 0x101#32 ∧ queued.xin.length + queued.inFifo.length = 0) ∧
      ¬ (0x101#32 = 0x501#32 ∧ queued.inFifo.length < queued.impl.inDepth ∧
        queued.xin.length + queued.inFifo.length < 2 ^ 32 - 1)) ∧
    (idle.phase = .idle ∧ ∀ c, (startChecks idle).find? (fun c => c.1) = some c → c.2.1 ≠ 0x201#32) ∧
    finished.phase = .done := by
  refine ⟨by decide, by decide, by decide, by decide, ⟨rfl, fun c h => ?_⟩, rfl⟩
  rw [show (startChecks idle).find? (fun c => c.1) = none from by decide] at h
  cases h

theorem witness_FullOutputFifoStallsEveryStage :
    let s : State := { queued with hq := List.replicate 64 0#32 }
    (s.impl.outDepth ≤ s.hq.length ∧ isStageTurn .ingest = true ∧ s.phase = .run) ∧
    let u : State := { closing with hq := List.replicate 64 0#32 }
    u.impl.outDepth ≤ u.hq.length ∧ isStageTurn .retire = true ∧ u.phase = .flush := by decide

theorem witness_FlushNeverDeadlocks :
    ArchInv flushing ∧ StreamInv flushing ∧ flushing.phase = .flush ∧ flushing.hq.length < flushing.impl.outDepth :=
  ⟨archInv_flushing, streamInv_flushing, rfl, by decide⟩

/-- `closing` retires at once; then INGEST is offered turns for ever. -/
def endSt : Nat → State
  | 0 => closing
  | _ + 1 => after .retire closing

def endEv : Nat → Event
  | 0 => beat 0x900000000#36
  | _ + 1 => beat 0x100000000#36

/-- `run` gets its coefficients; then INGEST is offered turns for ever. -/
def waitSt : Nat → State
  | 0 => run
  | 1 => after .kdes run
  | _ + 2 => after .wgen (after .kdes run)

def waitEv : Nat → Event
  | 0 => beat 0x200000000#36
  | 1 => beat 0x300000000#36
  | _ + 2 => beat 0x100000000#36

/-- A beat offered as the next event is its turn. -/
theorem step_beat {s : State} {w : BeatWord} {i : Instr} (h : decodeWord (.beat w) = .ok i) :
    step (schedule (beat w) s) = .next (after i s) := by
  obtain ⟨t, ht, -⟩ := exec_move i s
  show runWord (.beat w) s = _
  simp only [runWord, h, after, ht]

theorem executes_end : Executes endSt endEv := by
  refine ⟨rfl, fun n => ?_⟩
  match n with
  | 0 => exact step_beat (w := 0x900000000#36) (i := .retire) rfl
  | _ + 1 => exact step_beat (w := 0x100000000#36) (i := .ingest) rfl

theorem executes_wait : Executes waitSt waitEv := by
  refine ⟨rfl, fun n => ?_⟩
  match n with
  | 0 => exact step_beat (w := 0x200000000#36) (i := .kdes) rfl
  | 1 => exact step_beat (w := 0x300000000#36) (i := .wgen) rfl
  | _ + 2 =>
    refine (step_beat (w := 0x100000000#36) (i := .ingest) rfl).trans (congrArg Host.Outcome.next ?_)
    show after .ingest (after .wgen (after .kdes run)) = after .wgen (after .kdes run)
    have hf : (after .wgen (after .kdes run)).inFifo = [] := by decide
    generalize after .wgen (after .kdes run) = x at hf
    cases h : stageOk x <;> simp [after, exec, execIngest, noStep, hf, h]

/-- An execution in which sooner or later no stage step stays enabled is weakly fair. -/
theorem weaklyFair_of_quiet {st : Nat → State} {ev : Nat → Event} (k : Nat)
    (h : ∀ n i, k ≤ n → isStageTurn i = true → ¬ Guard i (st n)) : WeaklyFair st ev :=
  fun i n hi hg => absurd (hg (max n k) (le_max_left _ _)) (h _ i (le_max_right _ _) hi)

theorem weaklyFair_end : WeaklyFair endSt endEv := by
  refine weaklyFair_of_quiet 1 fun n i hn hi => ?_
  obtain ⟨n, rfl⟩ := Nat.exists_eq_add_of_le' hn
  have hok : ¬ StageOk (after .retire closing) := by decide
  show ¬ Guard i (after .retire closing)
  cases i <;> first | cases hi; done | exact fun hg => hok hg.1

theorem weaklyFair_wait : WeaklyFair waitSt waitEv := by
  refine weaklyFair_of_quiet 2 fun n i hn hi => ?_
  obtain ⟨n, rfl⟩ := Nat.exists_eq_add_of_le' hn
  show ¬ Guard i (after .wgen (after .kdes run))
  cases i with
  | ingest => exact fun hg => absurd hg.2 (by decide)
  | kdes => exact fun hg => absurd hg.2 (by decide)
  | wgen => exact fun hg => absurd hg.2 (by decide)
  | fird => exact fun hg => absurd hg.2.2.1 (by decide)
  | wfft idx =>
    rintro ⟨-, -, j, -, hj, -⟩
    exact absurd (Nat.le_trans (Nat.le_add_left _ _) hj) (by decide)
  | peak => exact fun hg => hg.2 rfl
  | hemit => rintro ⟨-, p, q, hp, -⟩; cases hp
  | hadv => rintro ⟨-, p, hp, -⟩; cases hp
  | retire => exact fun hg => absurd hg.2.1 (by decide)
  | _ => cases hi

/-- A finished run with both banks, an execution that ends, and one that waits. -/
theorem witness_FairRunsProgress :
    (Executes endSt endEv ∧ WeaklyFair endSt endEv ∧ ArchInv (endSt 0) ∧ StreamInv (endSt 0) ∧
      isStageTurn .retire = true ∧ Guard .retire (endSt 0)) ∧
    (Config.legal (endSt 0).impl ∧ (endSt 0).phase = .flush ∧ HostPops endSt endEv 0 ∧
      ∀ m, 0 ≤ m → ¬ Abandons (endEv m)) ∧
    (Executes waitSt waitEv ∧ WeaklyFair waitSt waitEv ∧ Config.legal (waitSt 0).impl ∧ ArchInv (waitSt 0) ∧
      StreamInv (waitSt 0) ∧ (waitSt 0).xin.length + (waitSt 0).inFifo.length < 2 ^ 32 - 1 ∧ HostPops waitSt waitEv 0 ∧
      ∀ m, 0 ≤ m → (waitSt m).phase = .run) := by
  refine ⟨⟨executes_end, weaklyFair_end, archInv_closing,
    streamInv_empty rfl rfl rfl rfl rfl rfl rfl rfl rfl rfl, rfl, by decide, rfl, hDone_finished⟩,
    ⟨by decide, rfl, fun m _ h => ?_, fun m _ h => ?_⟩,
    executes_wait, weaklyFair_wait, by decide, archInv_run, streamInv_empty rfl rfl rfl rfl rfl rfl rfl rfl rfl rfl,
    by decide, fun m _ h => ?_, fun m _ => ?_⟩
  · match m with
    | 0 => exact absurd h (by decide)
    | k + 1 => exact absurd (show hashAvail (after .retire closing) = true from h) (by decide)
  · have key : ∀ w i, decodeWord (.beat w) = .ok i → i ≠ .cmdClear → i ≠ .cmdReset → ¬ Abandons (beat w) := by
      rintro w i hd h1 h2 (h | ⟨p, hp, h | h⟩)
      · cases h
      all_goals
        cases hp
        rw [hd] at h
        cases h
        contradiction
    match m with
    | 0 => exact key _ .retire rfl (by decide) (by decide) h
    | k + 1 => exact key _ .ingest rfl (by decide) (by decide) h
  · match m with
    | 0 => exact absurd h (by decide)
    | 1 => exact absurd (show hashAvail (after .kdes run) = true from h) (by decide)
    | k + 2 => exact absurd (show hashAvail (after .wgen (after .kdes run)) = true from h) (by decide)
  · match m with
    | 0 => rfl
    | 1 => exact (by decide : (after .kdes run).phase = .run)
    | k + 2 => exact (by decide : (after .wgen (after .kdes run)).phase = .run)

/-- `finished` with both coefficient banks generated. -/
def withBanks (k w : List F64) (z : Bool) : State :=
  { finished with kern := k, ksumZero := z, kvalid := true, win := w, wvalid := true }

theorem invariants_withBanks {k w : List F64} {z : Bool} (hk : (k, z) = designKernel (numericsOf .reference) 8 4 3)
    (hw : w = makeWindow (numericsOf .reference) 4) : ArchInv (withBanks k w z) ∧ StreamInv (withBanks k w z) := by
  have h1 : k.length = 3 := by rw [show k = _ from congrArg Prod.fst hk]; exact length_designKernel _ _ _ _
  have h2 : w.length = 4 := by rw [hw]; exact length_makeWindow _ _
  exact ⟨{ archInv_finished with
      errInfoPhase := fun _ => rfl, idleClear := fun h => (nomatch h), configLegal := fun _ => cfgOk_idle
      ksumFlag := fun _ => rfl, kernLength := fun _ => h1, winLength := fun _ => h2
      doneComplete := fun _ => (show hdone finished = true by decide) },
    { streamInv_finished with
      kernel := fun _ => hk, window := fun _ => hw, outputs := fun i h => absurd h (Nat.not_lt_zero i)
      slots := fun j v h => (nomatch h), released := fun i p h => absurd h (Nat.not_lt_zero i) }⟩

/-- Clause (b): a run that ended with both banks generated. -/
theorem witness_FairRunsProgress_total :
    ∃ s : State, ArchInv s ∧ StreamInv s ∧ s.phase = .done ∧ s.kvalid = true ∧ s.wvalid = true := by
  obtain ⟨h1, h2⟩ := invariants_withBanks (Prod.mk.eta (p := designKernel (numericsOf .reference) 8 4 3)) rfl
  exact ⟨_, h1, h2, rfl, rfl, rfl⟩

/-- A finished run of one frame and one band: its coefficients, its two outputs, its magnitudes and its peaks. -/
def framed (c : NumericsChoice) (k w v : List F64) (z : Bool) (y₀ y₁ : F64) (ps : List Peak) : State :=
  { idle with
    impl := { Config.suggested with numerics := c }
    phase := .done, fin := true, targetRate := 8#32, frameSize := 2#32, numBands := 1#32, xin := [fONE, fONE], kern := k
    ksumZero := z, kvalid := true, win := w, wvalid := true, ys := [y₀, y₁], spec := [(0, v)], npf := 1, pk := ps
    a := ps.length, t := ps.length + 1 }

section Framed
variable {c : NumericsChoice} {k w v : List F64} {z : Bool} {y₀ y₁ : F64} {ps : List Peak}

theorem pdone_framed : pdone (framed c k w v z y₀ y₁ ps) = true := by
  simp [pdone, sdone, ydone, xdone, framed, idle, State.reset, State.frames, State.F, State.H, State.m, State.n, State.Fs,
    State.Ft, lenOk, frameCount, List.range_succ, slot?]

theorem hashesBelow_framed (hl : ps.length ≤ 1) :
    hashesBelow (framed c k w v z y₀ y₁ ps).Z ps ps.length (ps.length + 1) = [] := by
  have h3 : ∀ i, ps.drop (i + 1) = [] := fun i => List.drop_eq_nil_of_le (hl.trans (Nat.le_add_left 1 i))
  simp only [hashesBelow, h3, anchorHashes, List.getElem?_eq_none (Nat.le_refl ps.length), List.append_nil,
    List.flatMap_eq_nil_iff]
  intro i _
  split <;> rfl

theorem archInv_framed (hk : (k, z) = designKernel (numericsOf c) 8 8 3)
    (hw : w = makeWindow (numericsOf c) 2) : ArchInv (framed c k w v z y₀ y₁ ps) where
  slotsRising := List.pairwise_singleton _ _
  irqEnReserved := (by decide : idle.irqEn.extractLsb' 4 28 = 0#28)
  coefSelReserved := (by decide : idle.coefSel.extractLsb' 16 15 = 0#15)
  errPhase := (by decide : idle.err ≠ 0#32 ↔ Phase.done = .fault)
  errValue := .inl rfl
  errInfoPhase := fun _ => rfl
  inFifoBound := Nat.zero_le _
  hqBound := Nat.zero_le _
  acceptedBound := (by decide +kernel : 2 ≤ maxSamples)
  samplesInRange := fun x h => one_in_range x (by simpa [framed, idle, State.reset] using h)
  idleClear := fun h => by cases h
  finPhase := (by decide : true = true ↔ Phase.done = .flush ∨ Phase.done = .done)
  inputSeen := fun _ => Nat.two_pos
  configLegal := fun _ => (by decide +kernel : cfgOk (framed .reference [] [] [] false fzero fzero []))
  ksumFlag := fun _ => rfl
  kernLength := fun _ => by
    rw [show (framed c k w v z y₀ y₁ ps).kern = _ from congrArg Prod.fst hk]
    exact length_designKernel _ _ _ _
  winLength := fun _ => by
    rw [show (framed c k w v z y₀ y₁ ps).win = _ from hw]
    exact length_makeWindow _ _
  faultFlushed := fun _ => rfl
  hashesCounted := fun _ => rfl
  doneComplete := fun _ => by
    simp only [hdone, pdone_framed, Bool.true_and]
    exact beq_self_eq_true ps.length
  roomWhenReleased := fun _ => .inl rfl

theorem streamInv_framed (hk : (k, z) = designKernel (numericsOf c) 8 8 3)
    (hw : w = makeWindow (numericsOf c) 2) (hy₀ : y₀ = conv k [fONE, fONE] 3 0) (hy₁ : y₁ = conv k [fONE, fONE] 3 1)
    (hv : v = (numericsOf c).dftMag 2 (windowedFrame [y₀, y₁] w 2 2 0))
    (hp : ps = framePeaks 2 1 idle.MULT 0 v) : StreamInv (framed c k w v z y₀ y₁ ps) := by
  have hl : ps.length ≤ 1 := by
    rw [hp]
    exact (List.length_filterMap_le _ _).trans (by simp)
  refine
    { kernel := fun _ => hk, window := fun _ => hw, outputs := fun i h => ?_, slots := fun j u h => ?_
      peaks := ?_, searched := fun j h => ?_, anchorBound := Nat.le_refl _
      targetBound := fun h => absurd h (Nat.lt_irrefl _), targetFresh := fun _ => rfl
      taken := fun p q i h => ?_, released := fun i p _ _ => .inr (.inr pdone_framed)
      hashes := fun _ => (hashesBelow_framed hl).symm }
  · have hx : xdone (framed c k w v z y₀ y₁ ps) = true := rfl
    have hc : ∀ i, centre (framed c k w v z y₀ y₁ ps).Fs (framed c k w v z y₀ y₁ ps).Ft i = i := fun i =>
      Nat.mul_div_cancel i (by decide : 0 < 8)
    match i with
    | 0 => exact ⟨rfl, rfl, .inr hx, by rw [hc]; exact congrArg some hy₀⟩
    | 1 => exact ⟨rfl, rfl, .inr hx, by rw [hc]; exact congrArg some hy₁⟩
    | i + 2 => exact absurd h (Nat.not_lt.mpr (Nat.le_add_left 2 i))
  · match j with
    | 0 =>
      cases h
      exact ⟨rfl, by simp [framed, idle, State.F, State.m], hv⟩
    | j + 1 => cases h
  · have hb : (framed c k w v z y₀ y₁ ps).B = 2 := by simp [framed, idle, State.F, State.B]
    rw [hb]
    exact hp.trans (List.append_nil _).symm
  · match j with
    | 0 => rfl
    | j + 1 => exact absurd h (Nat.not_lt.mpr (Nat.le_add_left 1 j))
  · rw [show (framed c k w v z y₀ y₁ ps).pk[(framed c k w v z y₀ y₁ ps).a]? = none from List.getElem?_eq_none (Nat.le_refl _)] at h
    cases h

/-- Whatever the numerics, some such run meets the invariants. -/
theorem exists_framed (c : NumericsChoice) : ∃ s : State, ArchInv s ∧ StreamInv s ∧ s.phase = .done ∧ 0 < framesOf s := by
  obtain ⟨k, z, hk⟩ : ∃ k z, (k, z) = designKernel (numericsOf c) 8 8 3 := ⟨_, _, rfl⟩
  obtain ⟨w, hw⟩ : ∃ w, w = makeWindow (numericsOf c) 2 := ⟨_, rfl⟩
  obtain ⟨y₀, hy₀⟩ : ∃ y, y = conv k [fONE, fONE] 3 0 := ⟨_, rfl⟩
  obtain ⟨y₁, hy₁⟩ : ∃ y, y = conv k [fONE, fONE] 3 1 := ⟨_, rfl⟩
  obtain ⟨v, hv⟩ : ∃ v, v = (numericsOf c).dftMag 2 (windowedFrame [y₀, y₁] w 2 2 0) := ⟨_, rfl⟩
  obtain ⟨ps, hp⟩ : ∃ ps, ps = framePeaks 2 1 idle.MULT 0 v := ⟨_, rfl⟩
  exact ⟨framed c k w v z y₀ y₁ ps, archInv_framed hk hw, streamInv_framed hk hw hy₀ hy₁ hv hp, rfl,
    by simp [framesOf, framed, idle]⟩

end Framed

/-- Clause (b): a run that had a frame. -/
theorem witness_FairRunsProgress_framed :
    ∃ s : State, ArchInv s ∧ StreamInv s ∧ s.phase = .done ∧ 0 < framesOf s :=
  exists_framed .reference

theorem witness_StageStepsMakeProgress :
    isStageTurn .ingest = true ∧ exec .ingest queued = .next (after .ingest queued) := ⟨rfl, rfl⟩

/-- A transition of each kind happens. -/
theorem witness_PhaseTransitions :
    exec .cmdReset finished = .next (after .cmdReset finished) ∧
    exec .cmdStart idle = .next (after .cmdStart idle) ∧ (after .cmdStart idle).phase = .run ∧
    exec .cmdStart State.reset = .next (after .cmdStart State.reset) ∧ (after .cmdStart State.reset).phase = .fault ∧
    (after .cmdFinish queued).phase = .flush ∧ (after .cmdFinish run).phase = .fault ∧
    (after (.wrSampleHi 0x40000000#32) run).phase = .fault ∧ isFinite (0x7FF00000#32 ++ run.slo) = false ∧
    run.inFifo.length < run.impl.inDepth ∧ run.xin.length + run.inFifo.length < 2 ^ 32 - 1 ∧
    Guard .retire closing ∧ exec .retire closing = .next (after .retire closing) ∧ cfgOk idle ∧ ¬ cfgOk State.reset ∧
    ({ run with script := [.hardReset] } : State).script = .hardReset :: [] := by
  refine ⟨rfl, rfl, by decide, rfl, by decide, by decide, by decide, by decide +kernel, by decide, by decide, by decide,
    ⟨by decide, rfl, hDone_finished⟩, rfl, cfgOk_idle, by decide, rfl⟩

theorem witness_ConfigurationAndErrorRecordOwners :
    exec (.wrSrcRate 5#32) idle = .next (after (.wrSrcRate 5#32) idle) ∧
    exec .cmdFinish run = .next (after .cmdFinish run) := ⟨rfl, rfl⟩

theorem witness_ResponsesAndRefusals :
    isBusOp .cmdStart = true ∧ exec .cmdStart run = .next (refusedAt run) ∧ isWriteOp .cmdStart = true := ⟨rfl, rfl, rfl⟩

theorem witness_ReadsAreIdempotent :
    isPlainRead .rdStatus = true ∧ exec .rdStatus run = .next (after .rdStatus run) := ⟨rfl, rfl⟩

theorem witness_SamplesKeepTheirOrder :
    exec (.wrSampleHi 0x3FF00000#32) run = .next (after (.wrSampleHi 0x3FF00000#32) run) ∧
    exec .ingest queued = .next (after .ingest queued) ∧ exec .cmdClear queued = .next (after .cmdClear queued) :=
  ⟨rfl, rfl, rfl⟩

theorem witness_RunStateIsMonotone :
    (isStageTurn .ingest = true ∧ Instr.ingest ≠ .cmdStart ∧ Instr.ingest ≠ .cmdClear ∧ Instr.ingest ≠ .cmdReset ∧
      exec .ingest queued = .next (after .ingest queued)) ∧
    (isBusOp .rdStatus = true ∧ exec .rdStatus finished = .next (after .rdStatus finished) ∧ ArchInv finished ∧
      StreamInv finished ∧ HDone finished) ∧
    let s : State := { run with kvalid := true, ksumZero := true, kern := [0#64, 0#64, 0#64] }
    ArchInv s ∧ s.ksumZero = true ∧ exec .ingest s = .next (after .ingest s) :=
  ⟨⟨rfl, by decide, by decide, by decide, rfl⟩,
    ⟨rfl, rfl, archInv_finished, streamInv_finished, hDone_finished⟩,
    { archInv_run with
      errInfoPhase := fun _ => rfl, idleClear := fun h => (nomatch h), configLegal := fun _ => cfgOk_idle
      ksumFlag := fun _ => rfl, kernLength := fun _ => rfl, winLength := fun h => (nomatch h)
      doneComplete := fun h => (nomatch h) }, rfl, rfl⟩

theorem witness_TraceShowsEveryStepOnce :
    exec .ingest queued = .next (after .ingest queued) ∧ exec .cmdFinish run = .next (after .cmdFinish run) ∧
    exec .cmdNop run = .next (after .cmdNop run) := ⟨rfl, rfl, rfl⟩

theorem witness_ClearForgetsTheRun :
    queued.impl = run.impl ∧ configOf queued = configOf run ∧ queued.irqEn = run.irqEn ∧ queued.coefSel = run.coefSel ∧
    queued.trace = run.trace ∧ queued.stap = run.stap ∧ queued.ptap = run.ptap ∧ queued.script = run.script ∧
    queued ≠ run := by decide

theorem archInv_script {s : State} (h : ArchInv s) (l : List Event) : ArchInv { s with script := l } := by
  refine ⟨h.1, h.2, h.3, h.4, h.5, h.6, h.7, h.8, h.9, h.10, fun hp => ?_, h.12, h.13, h.14, h.15, h.16, h.17, h.18, h.19, h.20, h.21⟩
  show ({ clearRun s with script := l } : State) = _
  rw [h.11 hp]

theorem archInv_trace {s : State} (h : ArchInv s) (l : List TraceBeat) : ArchInv { s with trace := l } := by
  refine ⟨h.1, h.2, h.3, h.4, h.5, h.6, h.7, h.8, h.9, h.10, fun hp => ?_, h.12, h.13, h.14, h.15, h.16, h.17, h.18, h.19, h.20, h.21⟩
  show ({ clearRun s with trace := l } : State) = _
  rw [h.11 hp]

theorem witness_StepKeepsTheRegisterInvariant :
    let s : State := { queued with script := [beat 0x100000000#36] }
    ArchInv s ∧ step s = .next (after .ingest queued) := ⟨archInv_script archInv_queued _, rfl⟩

theorem witness_StepKeepsTheStreamInvariant :
    let s : State := { queued with script := [beat 0x100000000#36] }
    ArchInv s ∧ StreamInv s ∧ step s = .next (after .ingest queued) :=
  ⟨archInv_script archInv_queued _, streamInv_empty rfl rfl rfl rfl rfl rfl rfl rfl rfl rfl, rfl⟩

theorem witness_FinishedRunIsTheBatchFingerprint : ArchInv finished ∧ StreamInv finished ∧ finished.phase = .done :=
  ⟨archInv_finished, streamInv_finished, rfl⟩

theorem witness_ScheduleDoesNotShowInTheResult :
    let s' : State := { finished with trace := [⟨1#4, 0#32⟩, ⟨9#4, 0#32⟩] }
    ArchInv finished ∧ StreamInv finished ∧ ArchInv s' ∧ StreamInv s' ∧ finished.phase = .done ∧ s'.phase = .done ∧
    configOf finished = configOf s' ∧ finished.impl.numerics = s'.impl.numerics ∧ finished.xin = s'.xin :=
  ⟨archInv_finished, streamInv_finished,
    archInv_trace archInv_finished _,
    streamInv_empty rfl rfl rfl rfl rfl rfl rfl rfl rfl rfl, rfl, rfl, rfl, rfl, rfl⟩

/-- Finite operands, two exact zeros, a zero divisor, a NaN, one infinity, two infinities. -/
theorem witness_ArithmeticRoundsToNearestEven :
    (isFinite 0x3FF0000000000001#64 = true ∧ isFinite 0x8000000000000001#64 = true ∧
      feq0 0x8000000000000001#64 = false ∧ isFinite 0x7FEFFFFFFFFFFFFF#64 = true) ∧
    (toRat fzero + toRat 0x8000000000000000#64 = 0 ∧ toRat fONE - toRat fONE = 0 ∧ feq0 0x8000000000000000#64 = true) ∧
    isNaN 0x7FF8000000000000#64 = true ∧
    isFinite 0xFFF0000000000000#64 = false ∧ isNaN 0xFFF0000000000000#64 = false := by
  refine ⟨by decide, ⟨?_, sub_self _, by decide⟩, by decide, by decide, by decide⟩
  have h0 : toFix fzero = 0 := by decide
  have h1 : toFix 0x8000000000000000#64 = 0 := by decide
  simp [toRat, h0, h1]

/-- A frame of finite elements, a root, and a bin for the clauses of the reference numerics. -/
theorem witness_OpenNumericsHaveTheirProperties :
    (isFinite fTWO = true ∧ signBit fTWO = false) ∧ ([fONE, fTWO] : List F64).length = 2 ∧ 1 < 2 / 2 + 1 := by decide

theorem witness_ConversionAndComparisonAreExact :
    (-(2 ^ 53 - 1) : Int).natAbs < 2 ^ 53 ∧ (isFinite fONE = true ∧ isFinite fTWO = true) ∧
    isNaN 0x7FF8000000000000#64 = true := by decide

theorem witness_OutputAndFrameIndices : 1 ≤ 8 ∧ 1 ≤ 4 ∧ (0 + 1) * 8 ≤ 2 * 4 ∧ ¬ (1 + 1) * 8 ≤ 3 * 4 := by decide

theorem witness_BandsPartitionTheBins : 1 ≤ 5 ∧ 5 ≤ 5 ∧ 0 < 5 ∧ 0 + 1 < 5 := by decide

theorem witness_BestBinIsTheLowestMaximum :
    0 < 2 ∧ ∀ k, 0 ≤ k → k < 2 → isNaN ([fONE, fONE].getD k fzero) = false := by
  refine ⟨by decide, fun k _ h => ?_⟩
  interval_cases k <;> decide

theorem witness_PeaksOfAFrame : 1 ≤ 2 ∧ 2 ≤ 2 := by decide

/-- A zero band beside one that is not, and an all-zero vector. -/
theorem witness_SilenceGivesNoPeak :
    isFinite 0xBFB999999999999A#64 = true ∧ bandLo 4 2 0 < bandHi 4 2 0 ∧
    (∀ k, bandLo 4 2 0 ≤ k → k < bandHi 4 2 0 → ([fzero, fzero, fONE, fONE] : List F64).getD k fzero = fzero) ∧
    ∀ k, ([0#64, 0#64] : List F64).getD k fzero = fzero := by
  refine ⟨by decide, by decide, fun k _ h => ?_, fun k => ?_⟩
  · have : k < 2 := h
    interval_cases k <;> rfl
  · match k with
    | 0 => rfl
    | 1 => rfl
    | k + 2 => rfl

theorem witness_SkippingScanGivesTheSameHashes :
    ([⟨0, 1, fONE⟩, ⟨0, 3, fONE⟩, ⟨2, 2, fONE⟩] : List Peak).Pairwise (fun p q => p.frame ≤ q.frame) := by decide


end Sys2Proof.Tests
end

section
/-! PROOFS. The constant registers: `ID`, `VERSION` (10_state.md R31) and the capability registers (R36). First what each
read answers, then the fields of the three capability words, then the statement. -/

namespace Sys2Proof.Machine

@[simp] theorem exec_rdId (s : State) : exec .rdId s = .next (respond idWord s) := rfl
@[simp] theorem exec_rdVersion (s : State) : exec .rdVersion s = .next (respond versionWord s) := rfl
@[simp] theorem exec_rdCap0 (s : State) : exec .rdCap0 s = .next (respond (cap0Word s.impl) s) := rfl
@[simp] theorem exec_rdCap1 (s : State) : exec .rdCap1 s = .next (respond (cap1Word s.impl) s) := rfl
@[simp] theorem exec_rdCap2 (s : State) : exec .rdCap2 s = .next (respond (cap2Word s.impl) s) := rfl

theorem cap0Word_maxTaps (p : Impl) : (cap0Word p).extractLsb' 0 16 = BitVec.ofNat 16 p.maxTaps :=
  BitVec.extractLsb'_append_eq_right

theorem cap0Word_maxFrame (p : Impl) : (cap0Word p).extractLsb' 16 16 = BitVec.ofNat 16 p.maxFrame :=
  BitVec.extractLsb'_append_eq_left

theorem cap1Word_maxBands (p : Impl) : (cap1Word p).extractLsb' 0 8 = BitVec.ofNat 8 p.maxBands :=
  BitVec.extractLsb'_append_eq_right

/-- `FFT_LANES` stands above `MAX_BANDS` and below the 16 reserved bits. -/
theorem cap1Word_fftLanes (p : Impl) : (cap1Word p).extractLsb' 8 8 = BitVec.ofNat 8 p.fftLanes :=
  calc (cap1Word p).extractLsb' 8 8
      = (0#16 ++ BitVec.ofNat 8 p.fftLanes).extractLsb' 0 8 := BitVec.extractLsb'_append_eq_of_le (by decide)
    _ = BitVec.ofNat 8 p.fftLanes := BitVec.extractLsb'_append_eq_right

/-- The reserved half of `CAP1` reads 0 (93_implementation_defined.md U11). -/
theorem cap1Word_reserved (p : Impl) : (cap1Word p).extractLsb' 16 16 = 0#16 :=
  calc (cap1Word p).extractLsb' 16 16
      = (0#16 ++ BitVec.ofNat 8 p.fftLanes).extractLsb' 8 16 := BitVec.extractLsb'_append_eq_of_le (by decide)
    _ = 0#16 := BitVec.extractLsb'_append_eq_left

theorem cap2Word_inDepth (p : Impl) : (cap2Word p).extractLsb' 0 16 = BitVec.ofNat 16 p.inDepth :=
  BitVec.extractLsb'_append_eq_right

theorem cap2Word_outDepth (p : Impl) : (cap2Word p).extractLsb' 16 16 = BitVec.ofNat 16 p.outDepth :=
  BitVec.extractLsb'_append_eq_left

/-- A number below `2 ^ n` is shown unreduced by a field of `n` bits. -/
theorem toNat_field {n v : Nat} {field : BitVec n} (hfield : field = BitVec.ofNat n v) (hv : v < 2 ^ n) :
    field.toNat = v := by
  rw [hfield, BitVec.toNat_ofNat, Nat.mod_eq_of_lt hv]

/-- Settles O9: each read is a response with the register's word, and a parameter within the bounds of R5 fits the width of
its field. -/
theorem constantRegisterReads : Obligations.ConstantRegisterReads := by
  unfold Obligations.ConstantRegisterReads
  refine ⟨fun s => ⟨exec_rdId s, exec_rdVersion s⟩, fun s hlegal => ?_⟩
  obtain ⟨-, -, htaps, -, hframe, -, hbands, -, hlanes, -, hin, -, hout⟩ := hlegal
  exact ⟨cap0Word s.impl, cap1Word s.impl, cap2Word s.impl, exec_rdCap0 s, exec_rdCap1 s, exec_rdCap2 s,
    toNat_field (cap0Word_maxTaps _) (by omega), toNat_field (cap0Word_maxFrame _) (by omega),
    toNat_field (cap1Word_maxBands _) (by omega), toNat_field (cap1Word_fftLanes _) (by omega), cap1Word_reserved _,
    toNat_field (cap2Word_inDepth _) (by omega), toNat_field (cap2Word_outDepth _) (by omega)⟩

end Sys2Proof.Machine
end

section
/-! PROOFS. The transactions the block refuses (40_host_ops.md R130, R149). First what a step answers when the decoder
rejects a word, then what the decoder makes of an address, then the error it names for each of the five causes, then the
statement. -/

namespace Sys2Proof.Machine
open Sys2Proof.Safety

/-- A word the decoder rejects is taken off the schedule and turned away. -/
theorem step_of_decodeWord_error {s : State} {p : PortWord} {rest : List Event} {e : DecodeError}
    (hs : s.script = .word p :: rest) (hd : decodeWord p = .error e) :
    step s = turnAway e { s with script := rest } := by
  simp only [step, nextEvent, hs, runWord, hd]

/-- But for the two words that are no transaction and no turn, every rejected word is refused on the bus. -/
theorem turnAway_eq_refusedAt {e : DecodeError} (hbits : e ≠ .reservedBits) (hop : e ≠ .reservedStageOp) (s : State) :
    turnAway e s = .next (refusedAt s) := by
  cases e with
  | reservedBits => exact absurd rfl hbits
  | reservedStageOp => exact absurd rfl hop
  | misaligned | reservedAddress | writeToReadOnly | readOfWriteOnly | reservedCommand => rfl

theorem busWe_eq_getLsbD (w : BusWord) : busWe w = w.getLsbD 47 := by
  have hbit : w.extractLsb' 47 1 = BitVec.ofBool (w.getLsbD 47) := by
    ext i hi
    obtain rfl : i = 0 := by omega
    simp
  rw [busWe, hbit]
  cases w.getLsbD 47 <;> rfl

/-- The low two bits of a byte address are its place in its word. -/
theorem lowBits_eq_zero_iff (a : BitVec 12) : a.extractLsb' 0 2 = 0#2 ↔ a.toNat % 4 = 0 := by
  rw [← BitVec.toNat_inj, BitVec.extractLsb'_toNat, Nat.shiftRight_zero]
  rfl

/-- No register stands at a reserved address (20_memory.md R76). -/
theorem not_reservedAddress_regAddr (r : Reg) : ¬ reservedAddress (regAddr r).toNat := by
  unfold reservedAddress
  cases r <;> decide

theorem regAt_eq_none_of_reservedAddress {a : BitVec 12} (ha : reservedAddress a.toNat) : regAt a = none := by
  refine List.find?_eq_none.mpr fun r _ hr => not_reservedAddress_regAddr r ?_
  rwa [eq_of_beq hr]

/-- A read-only or write-only address is the address of a register. -/
theorem exists_regAddr_of_mem {a : BitVec 12} (ha : a.toNat ∈ readOnlyAddresses ++ writeOnlyAddresses) :
    ∃ r, regAddr r = a := by
  have hall : ∀ n ∈ readOnlyAddresses ++ writeOnlyAddresses, ∃ r ∈ allRegs, (regAddr r).toNat = n := by decide
  obtain ⟨r, -, hr⟩ := hall _ ha
  exact ⟨r, BitVec.eq_of_toNat_eq hr⟩

theorem decodeWrite_of_readOnly {r : Reg} (hr : (regAddr r).toNat ∈ readOnlyAddresses) (data : Word) :
    decodeWrite r data = .error .writeToReadOnly := by
  cases r with
  | cmd | irqEn | srcRate | targetRate | minRate | filterTaps | frameSize | hopSize | numBands | targetZone | threshLo
  | threshHi | sampleLo | sampleHi | coefSel => exact absurd hr (by decide)
  | _ => rfl

theorem decodeRead_of_writeOnly {r : Reg} (hr : (regAddr r).toNat ∈ writeOnlyAddresses) :
    decodeRead r = .error .readOfWriteOnly := by
  cases r with
  | cmd | sampleLo | sampleHi => rfl
  | _ => exact absurd hr (by decide)

/-- The five commands are the values 0 to 4 of the whole data word (10_state.md R32). -/
theorem decodeCommand_of_five_le {data : Word} (h : 5 ≤ data.toNat) : decodeCommand data = .error .reservedCommand := by
  have hne : ∀ n < 5, data ≠ BitVec.ofNat 32 n := by
    rintro n hn rfl
    rw [BitVec.toNat_ofNat] at h
    omega
  simp [decodeCommand, hne]

section Transaction
variable {w : BusWord} (hrsv : busRsv w = 0#3)
include hrsv

theorem decodeBus_misaligned (ha : (busAddr w).toNat % 4 ≠ 0) : decodeBus w = .error .misaligned := by
  have hlow : (busAddr w).extractLsb' 0 2 ≠ 0#2 := fun h => ha ((lowBits_eq_zero_iff _).mp h)
  rw [decodeBus, if_neg (not_not_intro hrsv), if_pos hlow]

theorem decodeBus_reservedAddress (ha : reservedAddress (busAddr w).toNat) :
    decodeBus w = .error .reservedAddress := by
  have hlow : (busAddr w).extractLsb' 0 2 = 0#2 := (lowBits_eq_zero_iff _).mpr ha.1
  rw [decodeBus, if_neg (not_not_intro hrsv), if_neg (not_not_intro hlow), regAt_eq_none_of_reservedAddress ha]

/-- A transaction at a register's address is a write or a read of that register. -/
theorem decodeBus_at_register {r : Reg} (hr : regAddr r = busAddr w) :
    decodeBus w = if busWe w then decodeWrite r (busData w) else decodeRead r := by
  simp only [decodeBus, hrsv, ← hr, regAddr_aligned, regAt_regAddr, ne_eq, not_true_eq_false, if_false]

theorem decodeBus_writeToReadOnly (hwe : busWe w = true) (ha : (busAddr w).toNat ∈ readOnlyAddresses) :
    decodeBus w = .error .writeToReadOnly := by
  obtain ⟨r, hr⟩ := exists_regAddr_of_mem (List.mem_append_left _ ha)
  rw [decodeBus_at_register hrsv hr, if_pos hwe, decodeWrite_of_readOnly (hr ▸ ha)]

theorem decodeBus_readOfWriteOnly (hwe : busWe w = false) (ha : (busAddr w).toNat ∈ writeOnlyAddresses) :
    decodeBus w = .error .readOfWriteOnly := by
  obtain ⟨r, hr⟩ := exists_regAddr_of_mem (List.mem_append_right _ ha)
  rw [decodeBus_at_register hrsv hr, if_neg (Bool.eq_false_iff.mp hwe), decodeRead_of_writeOnly (hr ▸ ha)]

theorem decodeBus_reservedCommand (hwe : busWe w = true) (ha : busAddr w = regAddr .cmd)
    (hdata : 5 ≤ (busData w).toNat) : decodeBus w = .error .reservedCommand := by
  rw [decodeBus_at_register hrsv ha.symm, if_pos hwe, decodeWrite, decodeCommand_of_five_le hdata]

end Transaction

/-- A transaction rejected for any cause but its reserved bits is refused. -/
theorem step_of_decodeBus_error {s : State} {w : BusWord} {rest : List Event} {e : DecodeError}
    (hs : s.script = .word (.bus w) :: rest) (hd : decodeBus w = .error e) (hbits : e ≠ .reservedBits)
    (hop : e ≠ .reservedStageOp) : step s = .next (refusedAt { s with script := rest }) :=
  (step_of_decodeWord_error hs hd).trans (turnAway_eq_refusedAt hbits hop _)

/-- Settles O7: the decoder names the cause of each of the five kinds of transaction, and a step refuses all five alike. -/
theorem illegalTransactionsAreRefused : Obligations.IllegalTransactionsAreRefused := by
  unfold Obligations.IllegalTransactionsAreRefused
  intro s w rest hs hrsv hillegal
  rw [← busWe_eq_getLsbD] at hillegal
  obtain ha | ha | ⟨hwe, ha⟩ | ⟨hwe, ha⟩ | ⟨hwe, ha, hdata⟩ := hillegal
  · exact step_of_decodeBus_error hs (decodeBus_misaligned hrsv ha) nofun nofun
  · exact step_of_decodeBus_error hs (decodeBus_reservedAddress hrsv ha) nofun nofun
  · exact step_of_decodeBus_error hs (decodeBus_writeToReadOnly hrsv hwe ha) nofun nofun
  · exact step_of_decodeBus_error hs (decodeBus_readOfWriteOnly hrsv hwe ha) nofun nofun
  · exact step_of_decodeBus_error hs (decodeBus_reservedCommand hrsv hwe ha hdata) nofun nofun

end Sys2Proof.Machine
end

section
/-! PROOFS. The answers to host transactions (30_encoding.md R102, 40_host_ops.md R133). First the three ways a transaction
can complete and what the response is in each, then that every host operation completes in one of them, then the
statement. -/

namespace Sys2Proof.Machine
open Sys2Proof.Safety

/-- The ways a transaction taken in `s` can complete; `write` tells whether it is a write, which may carry no data. A fault
entry completes its transaction as `accepted` (60_exceptions.md R318). -/
inductive Completion (s : State) : (write : Bool) → State → Prop
  | refused (write : Bool) : Completion s write (refuse s)
  | accepted (write : Bool) (u : State) : Completion s write (accept u)
  | data (v : Word) (u : State) : Completion s false (respond v u)

/-- However a transaction completes there is a response; only a refusal has `err = 1`, and a refusal and a write have
`rdata = 0`. -/
theorem Completion.response {s t : State} {write : Bool} (h : Completion s write t) :
    ∃ r, t.resp = some r ∧ (r.err = true → r.rdata = 0#32 ∧ t = { s with resp := some r }) ∧
      (write = true → r.rdata = 0#32) := by
  cases h with
  | refused => exact ⟨⟨true, 0#32⟩, rfl, fun _ => ⟨rfl, rfl⟩, fun _ => rfl⟩
  | accepted _ u => exact ⟨⟨false, 0#32⟩, accept_resp u, nofun, fun _ => rfl⟩
  | data v u => exact ⟨⟨false, v⟩, respond_resp v u, nofun, nofun⟩

theorem configWrite_completion (write : Bool) (s t : State) : Completion s write (configWrite s t) := by
  unfold configWrite
  split
  · exact .accepted write t
  · exact .refused write

theorem execCmdStart_completion (write : Bool) (s : State) :
    ∃ t, execCmdStart s = .next t ∧ Completion s write t := by
  unfold execCmdStart
  split
  · split <;> exact ⟨_, rfl, .accepted write _⟩
  · exact ⟨_, rfl, .refused write⟩

theorem execCmdFinish_completion (write : Bool) (s : State) :
    ∃ t, execCmdFinish s = .next t ∧ Completion s write t := by
  unfold execCmdFinish
  split
  · split <;> exact ⟨_, rfl, .accepted write _⟩
  · exact ⟨_, rfl, .refused write⟩

theorem execWrSampleLo_completion (write : Bool) (data : Word) (s : State) :
    ∃ t, execWrSampleLo data s = .next t ∧ Completion s write t := by
  unfold execWrSampleLo
  split
  · exact ⟨_, rfl, .accepted write _⟩
  · exact ⟨_, rfl, .refused write⟩

theorem execWrSampleHi_completion (write : Bool) (data : Word) (s : State) :
    ∃ t, execWrSampleHi data s = .next t ∧ Completion s write t := by
  unfold execWrSampleHi
  split
  · split <;> exact ⟨_, rfl, .accepted write _⟩
  · exact ⟨_, rfl, .refused write⟩

theorem execRdHashData_completion (s : State) : ∃ t, execRdHashData s = .next t ∧ Completion s false t := by
  unfold execRdHashData
  split
  · split
    · exact ⟨_, rfl, .refused false⟩
    · exact ⟨_, rfl, .data _ _⟩
  · exact ⟨_, rfl, .refused false⟩

theorem readCoef_completion (half : F64 → Word) (s : State) : Completion s false (readCoef half s) := by
  unfold readCoef
  split
  · exact .refused false
  · split
    · exact .refused false
    · exact .data _ _

/-- Every host operation answers a next state that completes its transaction, without data when it is a write. The
operations not named in the proof are the reads that are allowed in every phase. -/
theorem exec_completion {i : Instr} (hi : isBusOp i = true) (s : State) :
    ∃ t, exec i s = .next t ∧ Completion s (isWriteOp i) t := by
  cases i with
  | ingest | kdes | wgen | fird | wfft | peak | hemit | hadv | retire | fault => cases hi
  | cmdStart => exact execCmdStart_completion _ s
  | cmdFinish => exact execCmdFinish_completion _ s
  | cmdNop | cmdClear | cmdReset | wrIrqEn | wrCoefSel => exact ⟨_, rfl, .accepted _ _⟩
  | wrSrcRate | wrTargetRate | wrMinRate | wrFilterTaps | wrFrameSize | wrHopSize | wrNumBands | wrTargetZone
  | wrThreshLo | wrThreshHi => exact ⟨_, rfl, configWrite_completion _ s _⟩
  | wrSampleLo d => exact execWrSampleLo_completion _ d s
  | wrSampleHi d => exact execWrSampleHi_completion _ d s
  | rdHashData => exact execRdHashData_completion s
  | rdCoefLo => exact ⟨_, rfl, readCoef_completion lo32 s⟩
  | rdCoefHi => exact ⟨_, rfl, readCoef_completion hi32 s⟩
  | _ => exact ⟨_, rfl, .data _ _⟩

/-- Settles O40: the state an operation answers completes its transaction, and every way to complete it has the response
asked for. -/
theorem responsesAndRefusals : Obligations.ResponsesAndRefusals := by
  unfold Obligations.ResponsesAndRefusals
  intro i s t hi ht
  obtain ⟨u, hu, hcomplete⟩ := exec_completion hi s
  obtain rfl : u = t := Host.Outcome.next.inj (hu.symm.trans ht)
  exact hcomplete.response

end Sys2Proof.Machine
end

section
/-! PROOFS. The register writes that store (40_host_ops.md R137 to R139). First the two ways a configuration write goes,
then the bits that `IRQ_EN` and `COEF_SEL` keep, then the two statements. -/

namespace Sys2Proof.Machine
open Sys2Proof.Safety

/-- In `IDLE` a configuration write stores. -/
theorem configWrite_of_idle {s : State} (hp : s.phase = .idle) (t : State) : configWrite s t = accept t := if_pos hp

/-- Outside `IDLE` a configuration write is refused. -/
theorem configWrite_of_ne_idle {s : State} (hp : s.phase ≠ .idle) (t : State) : configWrite s t = refuse s := if_neg hp

/-- Each of the ten configuration writes is a `configWrite` of some state, which is all that a refusal needs to know. -/
theorem exec_eq_configWrite {i : Instr} {d : Word} (s : State)
    (hi : i ∈ [.wrSrcRate d, .wrTargetRate d, .wrMinRate d, .wrFilterTaps d, .wrFrameSize d, .wrHopSize d, .wrNumBands d,
      .wrTargetZone d, .wrThreshLo d, .wrThreshHi d]) : ∃ t, exec i s = .next (configWrite s t) := by
  simp only [List.mem_cons, List.not_mem_nil, or_false] at hi
  obtain rfl | rfl | rfl | rfl | rfl | rfl | rfl | rfl | rfl | rfl := hi <;> exact ⟨_, rfl⟩

/-- Settles O14: each write is a `configWrite` of its own register, which stores in `IDLE` and is refused elsewhere. -/
theorem configurationWrites : Obligations.ConfigurationWrites := by
  unfold Obligations.ConfigurationWrites
  refine ⟨fun s d hp => ?_, fun s d i hp hi => ?_⟩
  · have hstore (t : State) : (.next (configWrite s t) : Out) = .next { t with resp := some ⟨false, 0#32⟩ } :=
      congrArg _ (configWrite_of_idle hp t)
    exact ⟨hstore _, hstore _, hstore _, hstore _, hstore _, hstore _, hstore _, hstore _, hstore _, hstore _⟩
  · obtain ⟨t, ht⟩ := exec_eq_configWrite s hi
    exact ht.trans (congrArg _ (configWrite_of_ne_idle hp t))

theorem irqEnOf_getLsbD (d : Word) (k : Nat) : (irqEnOf d).getLsbD k = (decide (k < 4) && d.getLsbD k) := by
  rw [irqEnOf, BitVec.getLsbD_setWidth, BitVec.getLsbD_extractLsb', Nat.zero_add]
  by_cases hk : k < 4
  · simp [hk, show k < 32 by omega]
  · simp [hk]

/-- The three fields of the stored word: `INDEX`, the dropped bits, `BANK`. -/
theorem coefSelOf_getLsbD (d : Word) (k : Nat) :
    (coefSelOf d).getLsbD k = (decide (k < 16 ∨ k = 31) && d.getLsbD k) := by
  rw [coefSelOf, BitVec.getLsbD_append]
  by_cases hindex : k < 16
  · simp [hindex]
  · by_cases hbank : k = 31
    · rw [hbank, BitVec.getLsbD_append]
      simp
    · have hzero : (d.extractLsb' 31 1 ++ 0#15).getLsbD (k - 16) = false := by
        rw [BitVec.getLsbD_append]
        simp
        omega
      simp [hindex, hbank, hzero]

/-- Settles O15: the two writes store the masked word, whose bits are those of the data at the places kept. -/
theorem interruptEnableAndSelectWrites : Obligations.InterruptEnableAndSelectWrites :=
  fun _ d => ⟨irqEnOf d, coefSelOf d, rfl, rfl, irqEnOf_getLsbD d, coefSelOf_getLsbD d⟩

end Sys2Proof.Machine
end

section
/-! PROOFS. The commands `NOP`, `START`, `FINISH` and `CLEAR` (40_host_ops.md R140 to R143). First what each answers in each
of its cases, then the statements about `FINISH`, `NOP` and `CLEAR`. -/

namespace Sys2Proof.Machine
open Sys2Proof.Safety

/-- Fault entry as the statements write it: the beat's index is the value of `ERR`, unreduced. -/
theorem enterFault_eq_faulted (sub : FaultSub) (info : Word) (s : State) :
    enterFault sub info s = faulted (errWordOf sub) info s := by
  have hidx : low32 (errWordOf sub).toNat = errWordOf sub := (BitVec.ofNat_toNat 32 _).trans (BitVec.setWidth_eq _)
  simp only [enterFault, faulted, accept, respond, emit, hidx]

theorem execCmdStart_of_legal {s : State} (hp : s.phase = .idle) (hc : cfgOk s) :
    execCmdStart s = .next (accept { clearRun s with phase := .run }) := by
  rw [execCmdStart, if_pos hp, startCheck_eq_none_iff.mpr hc]

theorem execCmdStart_of_illegal {s : State} (hp : s.phase = .idle) (hc : ¬ cfgOk s) :
    ∃ sub info, execCmdStart s = .next (enterFault sub info (clearRun s)) := by
  obtain ⟨⟨sub, info⟩, hcheck⟩ := Option.ne_none_iff_exists'.mp (mt startCheck_eq_none_iff.mp hc)
  exact ⟨sub, info, by rw [execCmdStart, if_pos hp, hcheck]⟩

theorem execCmdStart_of_ne_idle {s : State} (hp : s.phase ≠ .idle) : execCmdStart s = .next (refuse s) := if_neg hp

theorem execCmdFinish_of_accepted {s : State} (hp : s.phase = .run) (ha : 0 < s.accepted) :
    execCmdFinish s = .next (accept { s with fin := true, phase := .flush }) := by
  rw [execCmdFinish, if_pos hp, if_neg ha.ne']

theorem execCmdFinish_of_empty {s : State} (hp : s.phase = .run) (ha : s.accepted = 0) :
    execCmdFinish s = .next (enterFault .emptyInput 0#32 s) := by
  rw [execCmdFinish, if_pos hp, if_pos ha]

theorem execCmdFinish_of_ne_run {s : State} (hp : s.phase ≠ .run) : execCmdFinish s = .next (refuse s) := if_neg hp

/-- Settles O18: the three cases of `FINISH`. -/
theorem finishEndsTheInput : Obligations.FinishEndsTheInput := by
  unfold Obligations.FinishEndsTheInput
  refine fun s => ⟨fun hp ha => execCmdFinish_of_accepted hp ha, fun hp ha => ?_, fun hp => execCmdFinish_of_ne_run hp⟩
  exact (execCmdFinish_of_empty hp ha).trans (congrArg _ (enterFault_eq_faulted _ _ s))

/-- In `IDLE` there is no run and no error to clear. -/
theorem leaveRun_of_idle {s : State} (hinv : ArchInv s) (hp : s.phase = .idle) : leaveRun s = s := by
  have hnoFault : s.phase ≠ .fault := by rw [hp]; decide
  have herr : s.err = 0#32 := not_not.mp (mt hinv.errPhase.mp hnoFault)
  have hinfo : s.errInfo = 0#32 := hinv.errInfoPhase hnoFault
  rw [leaveRun, hinv.idleClear hp]
  cases s
  simp_all

/-- Settles O19: both commands answer by definition; the claim about `IDLE` is that leaving a run there changes nothing. -/
theorem nopAndClearCommands : Obligations.NopAndClearCommands :=
  ⟨fun _ => rfl, fun _ => rfl, fun _ hinv hp => congrArg (fun t => (.next (accept t) : Out)) (leaveRun_of_idle hinv hp)⟩

end Sys2Proof.Machine
end

section
/-! PROOFS. The range of a sample (40_host_ops.md R146). A finite pattern is larger in magnitude exactly when its low 63
bits are the larger number, because the exponent stands above the fraction; so the block's comparison with `ONE` is the
comparison of the represented number with 1. -/

namespace Sys2Proof.Machine
open Sys2Proof.Safety

theorem fabs_toNat (a : F64) : (fabs a).toNat = a.toNat % 2 ^ 63 := by
  rw [fabs, BitVec.toNat_and]
  exact Nat.and_two_pow_sub_one_eq_mod a.toNat 63

theorem expField_eq_div (a : F64) : expField a = a.toNat / 2 ^ 52 % 2 ^ 11 := by
  rw [expField, BitVec.extractLsb'_toNat, Nat.shiftRight_eq_div_pow]

theorem fracField_eq_mod (a : F64) : fracField a = a.toNat % 2 ^ 52 := by
  simp [fracField, BitVec.extractLsb'_toNat]

theorem fracField_lt (a : F64) : fracField a < 2 ^ 52 := (a.extractLsb' 0 52).isLt

/-- The low 63 bits are the exponent above the fraction. -/
theorem fabs_toNat_eq_fields (a : F64) : (fabs a).toNat = expField a * 2 ^ 52 + fracField a := by
  rw [fabs_toNat, expField_eq_div, fracField_eq_mod]
  omega

/-- At equal exponents the magnitudes are in the order of the fractions. -/
theorem fixMag_lt_of_frac {a b : F64} (he : expField a = expField b) (hf : fracField a < fracField b) :
    fixMag a < fixMag b := by
  unfold fixMag
  rw [he]
  split
  · exact hf
  · exact Nat.mul_lt_mul_of_pos_right (by omega) (by positivity)

/-- A larger exponent gives a larger magnitude, whatever the fractions. -/
theorem fixMag_lt_of_exp {a b : F64} (he : expField a < expField b) : fixMag a < fixMag b := by
  have ha := fracField_lt a
  have hb : fixMag b = (2 ^ 52 + fracField b) * 2 ^ (expField b - 1) := if_neg (by omega)
  have hone : 1 ≤ 2 ^ (expField b - 1) := Nat.one_le_two_pow
  by_cases h0 : expField a = 0
  · calc fixMag a = fracField a := if_pos h0
      _ < (2 ^ 52 + fracField b) * 1 := by omega
      _ ≤ fixMag b := hb ▸ Nat.mul_le_mul_left _ hone
  · calc fixMag a = (2 ^ 52 + fracField a) * 2 ^ (expField a - 1) := if_neg h0
      _ < 2 ^ 52 * 2 * 2 ^ (expField a - 1) := Nat.mul_lt_mul_of_pos_right (by omega) (by positivity)
      _ = 2 ^ 52 * 2 ^ expField a := by rw [mul_assoc, mul_pow_sub_one h0]
      _ ≤ (2 ^ 52 + fracField b) * 2 ^ (expField b - 1) :=
        Nat.mul_le_mul (by omega) (Nat.pow_le_pow_right (by decide) (by omega))
      _ = fixMag b := hb.symm

theorem fixMag_eq_of_fields {a b : F64} (he : expField a = expField b) (hf : fracField a = fracField b) :
    fixMag a = fixMag b := by
  rw [fixMag, fixMag, he, hf]

/-- The order of the magnitudes is the order of the low 63 bits. -/
theorem fixMag_lt_iff (a b : F64) : fixMag a < fixMag b ↔ (fabs a).toNat < (fabs b).toNat := by
  have hmono : ∀ {x y : F64}, (fabs x).toNat < (fabs y).toNat → fixMag x < fixMag y := by
    intro x y h
    rw [fabs_toNat_eq_fields, fabs_toNat_eq_fields] at h
    have hx := fracField_lt x
    have hy := fracField_lt y
    obtain he | he := (show expField x ≤ expField y by omega).lt_or_eq
    · exact fixMag_lt_of_exp he
    · exact fixMag_lt_of_frac he (by omega)
  have heq (h : (fabs a).toNat = (fabs b).toNat) : fixMag a = fixMag b := by
    rw [fabs_toNat_eq_fields, fabs_toNat_eq_fields] at h
    have ha := fracField_lt a
    have hb := fracField_lt b
    exact fixMag_eq_of_fields (by omega) (by omega)
  refine ⟨fun h => ?_, hmono⟩
  obtain hlt | he | hgt := lt_trichotomy (fabs a).toNat (fabs b).toNat
  · exact hlt
  · exact absurd (heq he) h.ne
  · exact absurd (hmono hgt) h.asymm

/-- `ONE` is 1: its magnitude is the number of units that make 1.0. -/
theorem fixMag_fONE : fixMag fONE = fixOne := by decide +kernel

theorem abs_toFix (a : F64) : |toFix a| = fixMag a := by
  unfold toFix
  split
  · rw [abs_neg, Nat.abs_cast]
  · exact Nat.abs_cast _

theorem one_lt_abs_toRat_iff (a : F64) : 1 < |toRat a| ↔ fixOne < fixMag a := by
  have hone : (2 : ℚ) ^ 1074 = (fixOne : ℚ) := by rw [fixOne, Nat.cast_pow, Nat.cast_ofNat]
  have hpos : (0 : ℚ) < fixOne := hone ▸ by positivity
  rw [toRat, hone, abs_div, abs_of_pos hpos, one_lt_div hpos, ← Int.cast_abs, abs_toFix, Int.cast_natCast, Nat.cast_lt]

theorem expField_fabs (a : F64) : expField (fabs a) = expField a := by
  rw [expField_eq_div, expField_eq_div, fabs_toNat]
  omega

/-- Without a sign the order is that of the low 63 bits. -/
theorem orderKey_fabs (a : F64) : orderKey (fabs a) = (fabs a).toNat := by
  have hsign : signBit (fabs a) = false := by simp [signBit, fabs]
  have hidem : (fabs (fabs a)).toNat = (fabs a).toNat := by rw [fabs_toNat, fabs_toNat, Nat.mod_mod]
  rw [orderKey, hsign, if_neg Bool.false_ne_true, hidem]

/-- The block's test of a finite magnitude against `ONE` is the comparison of the represented number with 1. -/
theorem fgt_fabs_fONE_iff {v : F64} (hv : isFinite v = true) : fgt (fabs v) fONE = true ↔ 1 < |toRat v| := by
  have hexp : expField v ≠ 2047 := by simpa [isFinite] using hv
  have hnan : isNaN (fabs v) = false := by simp [isNaN, expField_fabs, hexp]
  have hkey : orderKey fONE = (fabs fONE).toNat := by decide
  calc fgt (fabs v) fONE = true
      ↔ orderKey fONE < orderKey (fabs v) := by simp [fgt, hnan, show isNaN fONE = false by decide]
    _ ↔ (fabs fONE).toNat < (fabs v).toNat := by rw [hkey, orderKey_fabs, Nat.cast_lt]
    _ ↔ fixOne < fixMag v := by rw [← fixMag_lt_iff, fixMag_fONE]
    _ ↔ 1 < |toRat v| := (one_lt_abs_toRat_iff v).symm

/-- A sample out of range is one that is not finite or represents a number above 1 in magnitude. -/
theorem outOfRange_iff {v : F64} : outOfRange v = true ↔ isFinite v = false ∨ 1 < |toRat v| := by
  cases hv : isFinite v with
  | false => simp [outOfRange, hv]
  | true => simp [outOfRange, hv, fgt_fabs_fONE_iff hv]

end Sys2Proof.Machine
end

section
/-! PROOFS. The data ports (40_host_ops.md R145 to R148). For each port first what it answers in each of its cases, then the
statement. -/

namespace Sys2Proof.Machine
open Sys2Proof.Safety

theorem execWrSampleLo_of_run {s : State} (hp : s.phase = .run) (d : Word) :
    execWrSampleLo d s = .next (accept { s with slo := d }) := if_pos hp

theorem execWrSampleLo_of_ne_run {s : State} (hp : s.phase ≠ .run) (d : Word) :
    execWrSampleLo d s = .next (refuse s) := if_neg hp

/-- Settles O21: the two cases of the latch. -/
theorem sampleLowLatches : Obligations.SampleLowLatches :=
  fun _ d => ⟨fun hp => execWrSampleLo_of_run hp d, fun hp => execWrSampleLo_of_ne_run hp d⟩

/-- A push that is allowed queues a sample in range. -/
theorem execWrSampleHi_of_inRange {s : State} {d : Word} (hp : s.phase = .run) (hroom : roomForSample s = true)
    (hv : outOfRange (join d s.slo) = false) :
    execWrSampleHi d s = .next (accept { s with inFifo := s.inFifo ++ [join d s.slo] }) := by
  rw [execWrSampleHi, if_pos ⟨hp, hroom⟩, hv, if_neg Bool.false_ne_true]

/-- A push that is allowed faults on any other sample, and names its index. -/
theorem execWrSampleHi_of_outOfRange {s : State} {d : Word} (hp : s.phase = .run) (hroom : roomForSample s = true)
    (hv : outOfRange (join d s.slo) = true) :
    execWrSampleHi d s = .next (enterFault .sampleRange (low32 s.accepted) s) := by
  rw [execWrSampleHi, if_pos ⟨hp, hroom⟩, if_pos hv]

/-- The phase and the room are checked before the value. -/
theorem execWrSampleHi_of_not_ready {s : State} (h : ¬ (s.phase = .run ∧ roomForSample s = true)) (d : Word) :
    execWrSampleHi d s = .next (refuse s) := if_neg h

/-- Settles O22: the three cases of the push, with the range of a sample told by the number it represents. -/
theorem sampleHighPushes : Obligations.SampleHighPushes := by
  unfold Obligations.SampleHighPushes
  refine fun s d => ⟨fun hp hfifo hrun hfin hone => ?_, fun hp hfifo hrun hv => ?_, fun h => ?_⟩
  · have hv : outOfRange (join d s.slo) = false := by
      refine Bool.eq_false_iff.mpr fun h => ?_
      obtain hinf | hlarge := outOfRange_iff.mp h
      · exact Bool.false_ne_true (hinf.symm.trans hfin)
      · exact absurd hone hlarge.not_ge
    exact execWrSampleHi_of_inRange hp (roomForSample_iff.mpr ⟨hfifo, hrun⟩) hv
  · refine (execWrSampleHi_of_outOfRange hp (roomForSample_iff.mpr ⟨hfifo, hrun⟩) (outOfRange_iff.mpr hv)).trans ?_
    exact congrArg _ (enterFault_eq_faulted _ _ s)
  · refine execWrSampleHi_of_not_ready (fun ⟨hp, hroom⟩ => ?_) d
    obtain ⟨hfifo, hrun⟩ := roomForSample_iff.mp hroom
    obtain hne | hfull | hlimit := h
    · exact hne hp
    · exact absurd hfifo hfull.not_gt
    · exact absurd hrun (Nat.not_lt.mpr hlimit)

theorem execRdHashData_of_cons {s : State} {h : Word} {rest : List Word} (hp : popPhase s.phase = true)
    (hq : s.hq = h :: rest) :
    execRdHashData s = .next (respond h { s with hq := rest, popped := s.popped ++ [h] }) := by
  rw [execRdHashData, if_pos hp, hq]

theorem execRdHashData_of_nil {s : State} (hq : s.hq = []) : execRdHashData s = .next (refuse s) := by
  rw [execRdHashData, hq]
  exact ite_self _

theorem execRdHashData_of_not_popPhase {s : State} (hp : ¬ popPhase s.phase = true) :
    execRdHashData s = .next (refuse s) := if_neg hp

/-- Settles O23: the head is popped in the three phases of R132, and a pop is refused in the other two phases and on an empty
FIFO. -/
theorem hashDataPops : Obligations.HashDataPops := by
  unfold Obligations.HashDataPops
  refine ⟨fun s h rest hp hq => execRdHashData_of_cons (popPhase_iff.mpr hp) hq, fun s h => ?_⟩
  obtain hp | hp | hq := h
  · exact execRdHashData_of_not_popPhase (by rw [hp]; decide)
  · exact execRdHashData_of_not_popPhase (by rw [hp]; decide)
  · exact execRdHashData_of_nil hq

/-- `BANK` is bit 31 of `COEF_SEL`. -/
theorem coefBank_eq_zero_iff (s : State) : coefBank s = 0#1 ↔ s.coefSel.getLsbD 31 = false := by
  have hbit : coefBank s = BitVec.ofBool (s.coefSel.getLsbD 31) := by
    ext i hi
    obtain rfl : i = 0 := by omega
    simp [coefBank]
  rw [hbit]
  cases s.coefSel.getLsbD 31 <;> decide

/-- What a bank of coefficients gives at index `i`: both arms of `selectedCoef`. -/
def bankRead (valid : Bool) (len : Nat) (coefs : List F64) (i : Nat) : Option F64 :=
  if valid && decide (i < len) then some (coefs.getD i fzero) else none

theorem bankRead_of_valid {len i : Nat} {coefs : List F64} {c : F64} (hi : i < len) (hget : coefs[i]? = some c) :
    bankRead true len coefs i = some c := by
  simp [bankRead, hi, hget]

theorem bankRead_of_not_valid {valid : Bool} {len i : Nat} (h : valid = false ∨ len ≤ i) (coefs : List F64) :
    bankRead valid len coefs i = none := by
  obtain rfl | hi := h
  · rfl
  · simp [bankRead, hi]

/-- Bank 0 is the kernel. -/
theorem selectedCoef_of_kernelBank {s : State} (hb : s.coefSel.getLsbD 31 = false) :
    selectedCoef s = bankRead s.kvalid s.NT s.kern (coefIndex s) := if_pos ((coefBank_eq_zero_iff s).mpr hb)

/-- Bank 1 is the window. -/
theorem selectedCoef_of_windowBank {s : State} (hb : s.coefSel.getLsbD 31 = true) :
    selectedCoef s = bankRead s.wvalid s.F s.win (coefIndex s) :=
  if_neg fun h => Bool.false_ne_true (((coefBank_eq_zero_iff s).mp h).symm.trans hb)

theorem readCoef_of_some {s : State} {c : F64} (hp : s.phase ≠ .idle) (hc : selectedCoef s = some c)
    (half : F64 → Word) : readCoef half s = respond (half c) s := by
  rw [readCoef, if_neg hp, hc]

theorem readCoef_of_idle {s : State} (hp : s.phase = .idle) (half : F64 → Word) : readCoef half s = refuse s := if_pos hp

theorem readCoef_of_none {s : State} (hc : selectedCoef s = none) (half : F64 → Word) : readCoef half s = refuse s := by
  rw [readCoef, hc]
  exact ite_self _

/-- Settles O24: the bank that `COEF_SEL` names decides what both reads answer. -/
theorem coefficientReads : Obligations.CoefficientReads := by
  unfold Obligations.CoefficientReads
  refine ⟨fun s c hp h => ?_, fun s h => ?_⟩
  · have hc : selectedCoef s = some c := by
      obtain ⟨hb, hvalid, hi, hget⟩ | ⟨hb, hvalid, hi, hget⟩ := h
      · rw [selectedCoef_of_kernelBank hb, hvalid]
        exact bankRead_of_valid hi hget
      · rw [selectedCoef_of_windowBank hb, hvalid]
        exact bankRead_of_valid hi hget
    exact ⟨congrArg _ (readCoef_of_some hp hc lo32), congrArg _ (readCoef_of_some hp hc hi32)⟩
  · have hrefuse (half : F64 → Word) : readCoef half s = refuse s := by
      obtain hp | ⟨hb, hno⟩ | ⟨hb, hno⟩ := h
      · exact readCoef_of_idle hp half
      · exact readCoef_of_none ((selectedCoef_of_kernelBank hb).trans (bankRead_of_not_valid hno _)) half
      · exact readCoef_of_none ((selectedCoef_of_windowBank hb).trans (bankRead_of_not_valid hno _)) half
    exact ⟨congrArg _ (hrefuse lo32), congrArg _ (hrefuse hi32)⟩

end Sys2Proof.Machine
end

section
/-! PROOFS. The end of a run (40_host_ops.md R160). First the derived predicates of 10_state.md R61 against their
propositions, then what RETIRE answers, then the statement. -/

namespace Sys2Proof.Machine
open Sys2Proof.Safety

theorem lenOk_iff_LenOk {s : State} {i : Nat} : lenOk s.Fs s.Ft s.n i = true ↔ LenOk s i := decide_eq_true_iff

theorem ydone_iff_YDone {s : State} : ydone s = true ↔ YDone s := by
  rw [ydone, Bool.and_eq_true, Bool.not_eq_true', ← Bool.not_eq_true, xdone_iff, lenOk_iff_LenOk]
  rfl

theorem sdone_iff_SDone {s : State} : sdone s = true ↔ SDone s := by
  have hframes : s.frames = framesOf s := rfl
  rw [sdone, Bool.and_eq_true, ydone_iff_YDone, hframes]
  simp [SDone, Option.isSome_iff_ne_none]

theorem pdone_iff_PDone {s : State} : pdone s = true ↔ PDone s := by
  rw [pdone, Bool.and_eq_true, sdone_iff_SDone, beq_iff_eq]
  rfl

theorem hdone_iff_HDone {s : State} : hdone s = true ↔ HDone s := by
  rw [hdone, Bool.and_eq_true, pdone_iff_PDone, beq_iff_eq]
  rfl

theorem execRetire_of_enabled {s : State} (hp : s.phase = .flush) (hd : HDone s) (hs : stageOk s = true) :
    execRetire s = .next (emit 9#4 s.hashCount { s with phase := .done }) :=
  if_pos ⟨hp, hdone_iff_HDone.mpr hd, hs⟩

/-- Settles O33: in `FLUSH`, `stage_ok` is room in the output FIFO, and in a state of a run `hdone` leaves that room. -/
theorem retireEndsTheRun : Obligations.RetireEndsTheRun := by
  unfold Obligations.RetireEndsTheRun
  refine ⟨fun s hinv hdepth hp hd => ?_, fun s hroom hp hd => ?_⟩
  · have hok : stageOk s = true := stageOk_of_hdone hinv hdepth hp (hdone_iff_HDone.mpr hd)
    exact ⟨(stageOk_iff.mp hok).2, execRetire_of_enabled hp hd hok⟩
  · exact execRetire_of_enabled hp hd (stageOk_iff.mpr ⟨.inr hp, hroom⟩)

end Sys2Proof.Machine
end

section
/-! PROOFS. The phase machine (40_host_ops.md R162). First the operations that keep the phase, then the rows of the
table and the operations that follow them, then the statement: the table has no other row because every other operation
keeps the phase. -/

namespace Sys2Proof.Machine
open Sys2Proof.Safety

/-- The operation answers a state in the phase of `s`. -/
def KeepsPhase (s : State) (o : Out) : Prop := ∃ t, o = .next t ∧ t.phase = s.phase

theorem KeepsPhase.next {s t : State} (h : t.phase = s.phase) : KeepsPhase s (.next t) := ⟨t, rfl, h⟩

/-- The phase after an operation that keeps it. -/
theorem KeepsPhase.phase_eq {s t : State} {o : Out} (h : KeepsPhase s o) (ht : o = .next t) : t.phase = s.phase := by
  obtain ⟨u, hu, hphase⟩ := h
  obtain rfl : u = t := Host.Outcome.next.inj (hu.symm.trans ht)
  exact hphase

theorem configWrite_phase {s t : State} (h : t.phase = s.phase) : (configWrite s t).phase = s.phase := by
  unfold configWrite
  split
  · exact h
  · rfl

theorem readCoef_phase (half : F64 → Word) (s : State) : (readCoef half s).phase = s.phase := by
  unfold readCoef
  split
  · rfl
  · split <;> rfl

theorem execWrSampleLo_keepsPhase (d : Word) (s : State) : KeepsPhase s (execWrSampleLo d s) := by
  unfold execWrSampleLo
  split <;> exact .next rfl

theorem execRdHashData_keepsPhase (s : State) : KeepsPhase s (execRdHashData s) := by
  unfold execRdHashData
  split
  · split <;> exact .next rfl
  · exact .next rfl

theorem execIngest_keepsPhase (s : State) : KeepsPhase s (execIngest s) := by
  unfold execIngest
  split
  · split <;> exact .next rfl
  · exact .next rfl

theorem kdesStep_phase (N : Numerics) (s : State) : (kdesStep N s).phase = s.phase := by
  unfold kdesStep
  split <;> rfl

theorem wgenStep_phase (N : Numerics) (s : State) : (wgenStep N s).phase = s.phase := by
  unfold wgenStep
  split <;> rfl

theorem execFird_keepsPhase (s : State) : KeepsPhase s (execFird s) := by
  unfold execFird
  split <;> exact .next rfl

theorem wfftStep_phase (N : Numerics) (idx : Word) (s : State) : (wfftStep N idx s).phase = s.phase := by
  unfold wfftStep
  split
  · split
    · rfl
    · exact transform_phase N _ s
  · rfl

theorem execPeak_keepsPhase (s : State) : KeepsPhase s (execPeak s) := by
  unfold execPeak
  split
  · split <;> exact .next rfl
  · exact .next rfl

theorem execHemit_keepsPhase (s : State) : KeepsPhase s (execHemit s) := by
  unfold execHemit
  split
  · split <;> exact .next rfl
  · exact .next rfl

theorem execHadv_keepsPhase (s : State) : KeepsPhase s (execHadv s) := by
  unfold execHadv
  split <;> exact .next rfl

/-- The operations that have a row in the table, and the FAULT turn, which is neither a host operation nor a stage step. -/
def hasPhaseRow : Instr → Bool
  | .cmdReset | .cmdClear | .cmdStart | .cmdFinish | .wrSampleHi _ | .retire | .fault _ => true
  | _ => false

/-- An operation without a row keeps the phase. Those not named in the proof are `NOP`, the writes of `IRQ_EN` and
`COEF_SEL`, and the reads allowed in every phase, which only answer. -/
theorem exec_keepsPhase {i : Instr} (hi : hasPhaseRow i = false) (s : State) : KeepsPhase s (exec i s) := by
  cases i with
  | cmdReset | cmdClear | cmdStart | cmdFinish | wrSampleHi | retire | fault => cases hi
  | wrSrcRate | wrTargetRate | wrMinRate | wrFilterTaps | wrFrameSize | wrHopSize | wrNumBands | wrTargetZone
  | wrThreshLo | wrThreshHi => exact .next (configWrite_phase rfl)
  | wrSampleLo d => exact execWrSampleLo_keepsPhase d s
  | rdHashData => exact execRdHashData_keepsPhase s
  | rdCoefLo => exact .next (readCoef_phase lo32 s)
  | rdCoefHi => exact .next (readCoef_phase hi32 s)
  | ingest => exact execIngest_keepsPhase s
  | kdes => exact .next (kdesStep_phase _ s)
  | wgen => exact .next (wgenStep_phase _ s)
  | fird => exact execFird_keepsPhase s
  | wfft idx => exact .next (wfftStep_phase _ idx s)
  | peak => exact execPeak_keepsPhase s
  | hemit => exact execHemit_keepsPhase s
  | hadv => exact execHadv_keepsPhase s
  | _ => exact .next rfl

/-- The rows of R162: the operation, its condition in `s`, and the phase it leads to. -/
inductive PhaseRow (s : State) : Instr → Phase → Prop
  | reset : PhaseRow s .cmdReset .idle
  | clear : PhaseRow s .cmdClear .idle
  | start (hp : s.phase = .idle) (hc : cfgOk s) : PhaseRow s .cmdStart .run
  | startFault (hp : s.phase = .idle) (hc : ¬ cfgOk s) : PhaseRow s .cmdStart .fault
  | finish (hp : s.phase = .run) (ha : 0 < s.accepted) : PhaseRow s .cmdFinish .flush
  | emptyFault (hp : s.phase = .run) (ha : s.accepted = 0) : PhaseRow s .cmdFinish .fault
  | rangeFault (d : Word) (hp : s.phase = .run) (hv : outOfRange (join d s.slo) = true) :
      PhaseRow s (.wrSampleHi d) .fault
  | retire (hp : s.phase = .flush) : PhaseRow s .retire .done

theorem cmdStart_phaseRow {s t : State} (h : execCmdStart s = .next t) :
    t.phase = s.phase ∨ PhaseRow s .cmdStart t.phase := by
  by_cases hp : s.phase = .idle
  · by_cases hc : cfgOk s
    · cases (execCmdStart_of_legal hp hc).symm.trans h
      exact .inr (.start hp hc)
    · obtain ⟨sub, info, hfault⟩ := execCmdStart_of_illegal hp hc
      cases hfault.symm.trans h
      exact .inr (.startFault hp hc)
  · cases (execCmdStart_of_ne_idle hp).symm.trans h
    exact .inl rfl

theorem cmdFinish_phaseRow {s t : State} (h : execCmdFinish s = .next t) :
    t.phase = s.phase ∨ PhaseRow s .cmdFinish t.phase := by
  by_cases hp : s.phase = .run
  · obtain ha | ha := s.accepted.eq_zero_or_pos
    · cases (execCmdFinish_of_empty hp ha).symm.trans h
      exact .inr (.emptyFault hp ha)
    · cases (execCmdFinish_of_accepted hp ha).symm.trans h
      exact .inr (.finish hp ha)
  · cases (execCmdFinish_of_ne_run hp).symm.trans h
    exact .inl rfl

theorem wrSampleHi_phaseRow {s t : State} {d : Word} (h : execWrSampleHi d s = .next t) :
    t.phase = s.phase ∨ PhaseRow s (.wrSampleHi d) t.phase := by
  by_cases hready : s.phase = .run ∧ roomForSample s = true
  · obtain ⟨hp, hroom⟩ := hready
    cases hv : outOfRange (join d s.slo) with
    | false =>
      cases (execWrSampleHi_of_inRange hp hroom hv).symm.trans h
      exact .inl rfl
    | true =>
      cases (execWrSampleHi_of_outOfRange hp hroom hv).symm.trans h
      exact .inr (.rangeFault d hp hv)
  · cases (execWrSampleHi_of_not_ready hready d).symm.trans h
    exact .inl rfl

theorem retire_phaseRow {s t : State} (h : execRetire s = .next t) :
    t.phase = s.phase ∨ PhaseRow s .retire t.phase := by
  unfold execRetire at h
  split at h
  · rename_i hguard
    cases h
    exact .inr (.retire hguard.1)
  · cases h
    exact .inl rfl

/-- A host operation or a stage step changes the phase only along a row of the table. -/
theorem exec_phaseRow {i : Instr} {s t : State} (hi : isBusOp i = true ∨ isStageTurn i = true)
    (h : exec i s = .next t) : t.phase = s.phase ∨ PhaseRow s i t.phase := by
  cases hrow : hasPhaseRow i with
  | false => exact .inl ((exec_keepsPhase hrow s).phase_eq h)
  | true =>
    cases i with
    | cmdReset =>
      cases h
      exact .inr .reset
    | cmdClear =>
      cases h
      exact .inr .clear
    | cmdStart => exact cmdStart_phaseRow h
    | cmdFinish => exact cmdFinish_phaseRow h
    | wrSampleHi d => exact wrSampleHi_phaseRow h
    | retire => exact retire_phaseRow h
    | fault => obtain hi | hi := hi <;> cases hi
    | _ => cases hrow

theorem step_of_hardReset {s : State} {rest : List Event} (hs : s.script = .hardReset :: rest) :
    step s = .next (hardReset { s with script := rest }) := by
  simp only [step, nextEvent, hs]

/-- Settles O38: first that a change of phase is a row of the table, then that each row is followed. -/
theorem phaseTransitions : Obligations.PhaseTransitions := by
  unfold Obligations.PhaseTransitions
  refine ⟨fun i s t hi h => ?_, fun s t h => ?_, fun s rest hs => ⟨_, step_of_hardReset hs, rfl⟩, fun s t hp h => ?_,
    fun s t hp h => ?_, fun s t d hp hfifo hrun hv h => ?_, fun s t hguard h => ?_⟩
  · refine (exec_phaseRow hi h).imp_right fun hrow => ?_
    generalize t.phase = p at hrow
    cases hrow with
    | reset => exact .inl ⟨.inl rfl, rfl⟩
    | clear => exact .inl ⟨.inr rfl, rfl⟩
    | start hp hc => exact .inr (.inl ⟨rfl, hp, hc, rfl⟩)
    | startFault hp hc => exact .inr (.inr (.inl ⟨rfl, hp, hc, rfl⟩))
    | finish hp ha => exact .inr (.inr (.inr (.inl ⟨rfl, hp, ha, rfl⟩)))
    | emptyFault hp ha => exact .inr (.inr (.inr (.inr (.inl ⟨rfl, hp, ha, rfl⟩))))
    | rangeFault d hp hv => exact .inr (.inr (.inr (.inr (.inr (.inl ⟨⟨d, rfl, outOfRange_iff.mp hv⟩, hp, rfl⟩)))))
    | retire hp => exact .inr (.inr (.inr (.inr (.inr (.inr ⟨rfl, hp, rfl⟩)))))
  · obtain h | h := h <;> cases h <;> rfl
  · refine ⟨fun hc => ?_, fun hc => ?_⟩
    · cases (execCmdStart_of_legal hp hc).symm.trans h
      rfl
    · obtain ⟨sub, info, hfault⟩ := execCmdStart_of_illegal hp hc
      cases hfault.symm.trans h
      rfl
  · refine ⟨fun ha => ?_, fun ha => ?_⟩
    · cases (execCmdFinish_of_accepted hp ha).symm.trans h
      rfl
    · cases (execCmdFinish_of_empty hp ha).symm.trans h
      rfl
  · cases (execWrSampleHi_of_outOfRange hp (roomForSample_iff.mpr ⟨hfifo, hrun⟩) (outOfRange_iff.mpr hv)).symm.trans h
    rfl
  · obtain ⟨hok, hp, hd⟩ := hguard
    cases (execRetire_of_enabled hp hd (stageOk_iff.mpr hok)).symm.trans h
    rfl

end Sys2Proof.Machine
end

section
/-! PROOFS. The kernel KDES designs (41_kernel_design.md R173, R174, R176). First a raw tap and its sinc factor, then what
normalisation does to a raw kernel, then the turn of KDES with its guard true, then the statement. -/

namespace Sys2Proof.Machine
open Sys2Proof.Safety

/-- Tap `k` of the raw kernel: the sinc tap under the window (R176). -/
def rawTap (N : Numerics) (Fs Ft NT k : Nat) : F64 := fmul (sincTap N Fs Ft NT k) (hamming N k NT)

theorem rawKernel_eq_map (N : Numerics) (Fs Ft NT : Nat) :
    rawKernel N Fs Ft NT = (List.range NT).map (rawTap N Fs Ft NT) := rfl

theorem getElem?_rawKernel (N : Numerics) (Fs Ft : Nat) {NT k : Nat} (hk : k < NT) :
    (rawKernel N Fs Ft NT)[k]? = some (rawTap N Fs Ft NT k) := by
  rw [rawKernel_eq_map, List.getElem?_map, List.getElem?_range hk, Option.map_some]

theorem sincTap_centre (N : Numerics) (Fs Ft NT : Nat) :
    sincTap N Fs Ft NT ((NT - 1) / 2) = fmul fTWO (cutoffRatio Fs Ft) := if_pos (Int.sub_self _)

theorem sincTap_of_ne_centre (N : Numerics) (Fs Ft : Nat) {NT k : Nat} (hk : k ≠ (NT - 1) / 2) :
    sincTap N Fs Ft NT k =
      fdiv (N.sin (fmul (fmul fTWOPI (cutoffRatio Fs Ft)) (f64OfInt ((k : Int) - ((NT - 1) / 2 : Nat)))))
        (fmul fPI (f64OfInt ((k : Int) - ((NT - 1) / 2 : Nat)))) :=
  if_neg (by omega)

/-- `ksum_zero` says that the raw sum is zero. -/
theorem normaliseKernel_snd (raw : List F64) : (normaliseKernel raw).2 = feq0 (fsum raw) := by
  unfold normaliseKernel
  split
  next hzero => exact hzero.symm
  next hsum => exact (Bool.eq_false_of_not_eq_true hsum).symm

/-- Normalisation divides each tap by the raw sum, and leaves it when that sum is zero. -/
theorem getElem?_normaliseKernel {raw : List F64} {k : Nat} {v : F64} (hv : raw[k]? = some v) :
    (normaliseKernel raw).1[k]? = some (if feq0 (fsum raw) = true then v else fdiv v (fsum raw)) := by
  unfold normaliseKernel
  split
  next => exact hv
  next => rw [List.getElem?_map, hv, Option.map_some]

/-- The turn of KDES with its guard true. -/
theorem execKdes_of_enabled {s : State} (hs : stageOk s = true) (hk : s.kvalid = false) :
    execKdes s = .next (emit 2#4 s.NT
      { s with
        kern := (designKernel (numericsOf s.impl.numerics) s.Fs s.Ft s.NT).1
        ksumZero := (designKernel (numericsOf s.impl.numerics) s.Fs s.Ft s.NT).2, kvalid := true }) := by
  rw [execKdes, kdesStep, hs, hk]
  rfl

/-- Settles O27: the statement's raw tap is `rawTap`, at the centre and away from it, so its sum is the raw sum that decides
what normalisation does to each tap. -/
theorem kernelDesignStep : Obligations.KernelDesignStep := by
  unfold Obligations.KernelDesignStep
  intro s hs hk
  refine ⟨_, _, execKdes_of_enabled (stageOk_iff.mpr hs) hk, ?_⟩
  intro N NT fc ham sinc raw sum
  have hsinc (k : Nat) : sinc k = sincTap N s.Fs s.Ft NT k := by
    by_cases hcentre : k = (NT - 1) / 2
    · exact (if_pos hcentre).trans (hcentre ▸ (sincTap_centre N s.Fs s.Ft NT).symm)
    · exact (if_neg hcentre).trans (sincTap_of_ne_centre N s.Fs s.Ft hcentre).symm
  have hraw : raw = rawTap N s.Fs s.Ft NT := funext fun k => congrArg (fmul · (ham k)) (hsinc k)
  have hsum : sum = fsum (rawKernel N s.Fs s.Ft NT) := congrArg (fun r => fsum ((List.range NT).map r)) hraw
  refine ⟨length_designKernel N s.Fs s.Ft NT, hsum ▸ normaliseKernel_snd _, fun k hlt => ?_⟩
  rw [hraw, hsum]
  exact getElem?_normaliseKernel (getElem?_rawKernel N s.Fs s.Ft hlt)

end Sys2Proof.Machine
end

section
/-! PROOFS. The decimator (42_fir_decimate.md R191 to R195, 43_frame_window.md R211). First the turn of INGEST, then the
convolution over the taps whose sample is inside the signal and the turn of FIRD, then the indices of outputs and frames,
each with its statement. -/

namespace Sys2Proof.Machine
open Sys2Proof.Safety

/-- The turn of INGEST with its guard true. -/
theorem execIngest_of_cons {s : State} {v : F64} {rest : List F64} (hs : stageOk s = true) (hf : s.inFifo = v :: rest) :
    execIngest s = .next (emit 1#4 s.n { s with inFifo := rest, xin := s.xin ++ [v] }) := by
  rw [execIngest, if_pos hs, hf]

/-- Settles O26. -/
theorem ingestMovesOneSample : Obligations.IngestMovesOneSample := by
  unfold Obligations.IngestMovesOneSample
  intro s v rest hs hf
  exact execIngest_of_cons (stageOk_iff.mpr hs) hf

/-- Tap `k` of a kernel whose middle is `M`, centred at `c`, meets one of the first `n` samples. -/
def meetsSample (c M n k : Nat) : Bool := decide (k ≤ c + M ∧ c + M - k < n)

/-- `conv(c)` skips a tap exactly where the sum over the taps that meet a sample leaves it out. -/
theorem conv_eq_fsum (kern xin : List F64) (NT c : Nat) :
    conv kern xin NT c =
      fsum (((List.range NT).filter (meetsSample c ((NT - 1) / 2) xin.length)).map fun k =>
        fmul (kern.getD k fzero) (xin.getD (c + (NT - 1) / 2 - k) fzero)) := by
  simp only [conv, fsum, List.foldl_map, List.foldl_filter, meetsSample, decide_eq_true_eq]

/-- A tap meets a sample exactly when its integer position `c + M - k` is inside the signal. -/
theorem meetsSample_eq_int (c M n k : Nat) :
    meetsSample c M n k =
      (decide (0 ≤ (c : Int) + (M : Int) - (k : Int)) && decide ((c : Int) + (M : Int) - (k : Int) < (n : Int))) := by
  rw [meetsSample, ← Bool.decide_and, decide_eq_decide]
  omega

/-- The guard of FIRD is the model's check. -/
theorem firdReady_iff_Guard {s : State} : firdReady s = true ↔ Guard .fird s := by
  rw [firdReady_iff, stageOk_iff, lenOk_iff_LenOk, xdone_iff]
  rfl

/-- The turn of FIRD with its guard true. -/
theorem execFird_of_ready {s : State} (hr : firdReady s = true) :
    execFird s = .next (emit 4#4 s.m { s with ys := s.ys ++ [conv s.kern s.xin s.NT (centre s.Fs s.Ft s.m)] }) :=
  if_pos hr

/-- Settles O29: the statement's taps are those that meet a sample, and each reads the sample the convolution reads. -/
theorem decimationStep : Obligations.DecimationStep := by
  unfold Obligations.DecimationStep
  intro s hguard c u taps y
  have htaps : taps = (List.range s.NT).filter (meetsSample c s.M s.xin.length) :=
    congrArg (List.filter · _) (funext fun k => (meetsSample_eq_int c s.M s.xin.length k).symm)
  have hpos (k : Nat) : (u k).toNat = c + s.M - k := by
    change ((c : Int) + (s.M : Int) - (k : Int)).toNat = c + s.M - k
    omega
  have hy : y = conv s.kern s.xin s.NT c := by
    rw [conv_eq_fsum]
    simp only [y, fsum, htaps, hpos]
    rfl
  rw [hy]
  exact execFird_of_ready (firdReady_iff_Guard.mpr hguard)

/-- `lenok(i)` for `n` samples is `i < newLength(n)`. -/
theorem lt_newLength_iff {Fs : Nat} (hFs : 1 ≤ Fs) (Ft n i : Nat) : i < newLength Fs Ft n ↔ (i + 1) * Fs ≤ n * Ft :=
  Nat.le_div_iff_mul_le hFs

/-- The centre of an output that exists is a sample index: `i * Fs` is below `(i + 1) * Fs`. -/
theorem centre_lt {Fs Ft n i : Nat} (hFs : 1 ≤ Fs) (hFt : 1 ≤ Ft) (h : (i + 1) * Fs ≤ n * Ft) : centre Fs Ft i < n := by
  have hlt : i * Fs < (i + 1) * Fs := Nat.mul_lt_mul_of_pos_right i.lt_succ_self hFs
  exact (Nat.div_lt_iff_lt_mul hFt).mpr (hlt.trans_le h)

/-- A frame counted by `NFR(m)` ends within the `m` samples. -/
theorem frame_le_of_lt_frameCount {F H m j : Nat} (hH : 1 ≤ H) (h : j < frameCount F H m) : j * H + F ≤ m := by
  unfold frameCount at h
  split at h
  next hF =>
    have hstart : j * H ≤ m - F := (Nat.le_div_iff_mul_le hH).mp (Nat.le_of_lt_succ h)
    omega
  next => exact absurd h j.not_lt_zero

/-- Settles O54. -/
theorem outputAndFrameIndices : Obligations.OutputAndFrameIndices := by
  unfold Obligations.OutputAndFrameIndices
  refine ⟨fun Fs Ft n i hFs hFt => ⟨(lt_newLength_iff hFs Ft n i).symm, centre_lt hFs hFt⟩, fun F H m j hH => ?_⟩
  exact ⟨lt_frameCount hH, frame_le_of_lt_frameCount hH⟩

end Sys2Proof.Machine
end

section
/-! PROOFS. The peak detector (45_peak_detect.md R246 to R250, R254). First the bounds of the bands and the one band of a
bin, then the scan for the strongest bin, then the peaks of a frame and the turn of PEAK, each with its statement. -/

namespace Sys2Proof.Machine
open Sys2Proof.Safety

/-- An inner band ends where the next begins (R246). -/
theorem bandHi_of_inner {NB b : Nat} (hb : b + 1 < NB) (B : Nat) : bandHi B NB b = bandLo B NB (b + 1) := if_pos hb

theorem bandHi_of_last {NB b : Nat} (hb : b + 1 = NB) (B : Nat) : bandHi B NB b = B := if_neg (by omega)

theorem bandWidth_pos {B NB : Nat} (hNB : 1 ≤ NB) (hB : NB ≤ B) : 0 < bandWidth B NB := Nat.div_pos hB hNB

theorem bandLo_succ (B NB b : Nat) : bandLo B NB (b + 1) = bandLo B NB b + bandWidth B NB := Nat.succ_mul b _

/-- The last band begins before the end by its width and the remainder (R247). -/
theorem bandLo_last_add {NB b : Nat} (hb : b + 1 = NB) (B : Nat) : bandLo B NB b + (bandWidth B NB + B % NB) = B := by
  subst hb
  rw [← Nat.add_assoc, ← bandLo_succ]
  exact Nat.div_add_mod B (b + 1)

theorem bandHi_le {B NB b : Nat} (hb : b < NB) : bandHi B NB b ≤ B := by
  rcases Nat.lt_or_eq_of_le (Nat.succ_le_of_lt hb) with hinner | hlast
  · rw [bandHi_of_inner hinner]
    exact (Nat.mul_le_mul_right _ hb).trans (Nat.mul_div_le B NB)
  · exact (bandHi_of_last hlast B).le

/-- No band is empty (R247). -/
theorem bandLo_lt_bandHi {B NB b : Nat} (hNB : 1 ≤ NB) (hB : NB ≤ B) (hb : b < NB) : bandLo B NB b < bandHi B NB b := by
  have hw := bandWidth_pos hNB hB
  rcases Nat.lt_or_eq_of_le (Nat.succ_le_of_lt hb) with hinner | hlast
  · rw [bandHi_of_inner hinner, bandLo_succ]
    omega
  · rw [bandHi_of_last hlast]
    have hend := bandLo_last_add hlast B
    omega

/-- Bin `k` is in the band its quotient by the width names, or in the last when there is no such band. -/
theorem mem_band_iff {B NB b k : Nat} (hw : 0 < bandWidth B NB) (hb : b < NB) (hk : k < B) :
    (bandLo B NB b ≤ k ∧ k < bandHi B NB b) ↔ b = min (k / bandWidth B NB) (NB - 1) := by
  have hlo : bandLo B NB b ≤ k ↔ b ≤ k / bandWidth B NB := (Nat.le_div_iff_mul_le hw).symm
  rw [hlo]
  rcases Nat.lt_or_eq_of_le (Nat.succ_le_of_lt hb) with hinner | hlast
  · rw [bandHi_of_inner hinner, bandLo, ← Nat.div_lt_iff_lt_mul hw]
    omega
  · rw [bandHi_of_last hlast]
    omega

/-- Settles O55. -/
theorem bandsPartitionTheBins : Obligations.BandsPartitionTheBins := by
  unfold Obligations.BandsPartitionTheBins
  intro B NB hNB hB
  have hlast : NB - 1 + 1 = NB := Nat.sub_add_cancel hNB
  refine ⟨fun k hk => ⟨min (k / bandWidth B NB) (NB - 1), ?_, ?_⟩, fun b hb => ?_, ?_, fun b hb => ?_⟩
  · have hb : min (k / bandWidth B NB) (NB - 1) < NB := by omega
    exact ⟨hb, (mem_band_iff (bandWidth_pos hNB hB) hb hk).mpr rfl⟩
  · rintro b ⟨hb, hmem⟩
    exact (mem_band_iff (bandWidth_pos hNB hB) hb hk).mp hmem
  · rw [bandHi_of_inner hb, bandLo_succ, Nat.add_sub_cancel_left]
    rfl
  · rw [bandHi_of_last hlast]
    exact Nat.sub_eq_of_eq_add' (bandLo_last_add hlast B).symm
  · exact ⟨bandLo_lt_bandHi hNB hB hb, bandHi_le hb⟩

/-- Between values that are not NaN, `fgt` is the order of their keys. -/
theorem fgt_iff {a b : F64} (ha : isNaN a = false) (hb : isNaN b = false) :
    fgt a b = true ↔ orderKey b < orderKey a := by
  simp [fgt, ha, hb]

@[simp] theorem bestBin_singleton (v : List F64) (lo : Nat) : bestBin v lo (lo + 1) = lo := by
  rw [bestBin, Nat.sub_self]
  rfl

/-- One bin more: the scan takes it when it is greater than the best so far (R249). -/
theorem bestBin_succ (v : List F64) {lo hi : Nat} (h : lo < hi) :
    bestBin v lo (hi + 1) =
      if fgt (v.getD hi fzero) (v.getD (bestBin v lo hi) fzero) then hi else bestBin v lo hi := by
  have hlen : hi + 1 - (lo + 1) = hi - (lo + 1) + 1 := by omega
  have hend : lo + 1 + (hi - (lo + 1)) = hi := by omega
  rw [bestBin, hlen, List.range'_1_concat, List.foldl_append, hend]
  rfl

/-- The strongest bin of a band is in it, whatever the magnitudes. -/
theorem bestBin_mem (v : List F64) {lo hi : Nat} (h : lo < hi) : lo ≤ bestBin v lo hi ∧ bestBin v lo hi < hi := by
  induction hi, Nat.succ_le_of_lt h using Nat.le_induction with
  | base => simp
  | succ hi hle ih =>
    obtain ⟨hlo, hhi⟩ := ih hle
    rw [bestBin_succ v hle]
    split <;> omega

/-- Bin `m` is the lowest of those with the largest key among the bins `lo` to `hi - 1`. -/
structure IsLowestMaximum (v : List F64) (lo hi m : Nat) : Prop where
  largest : ∀ k, lo ≤ k → k < hi → orderKey (v.getD k fzero) ≤ orderKey (v.getD m fzero)
  lowest : ∀ k, lo ≤ k → k < m → orderKey (v.getD k fzero) < orderKey (v.getD m fzero)

/-- A bin greater than the maximum is the new one. -/
theorem IsLowestMaximum.take {v : List F64} {lo hi m : Nat} (h : IsLowestMaximum v lo hi m)
    (hgt : orderKey (v.getD m fzero) < orderKey (v.getD hi fzero)) : IsLowestMaximum v lo (hi + 1) hi where
  largest k hlo hk := by
    rcases Nat.lt_succ_iff_lt_or_eq.mp hk with hk | rfl
    · exact (h.largest k hlo hk).trans hgt.le
    · exact le_rfl
  lowest k hlo hk := (h.largest k hlo hk).trans_lt hgt

/-- A bin that is no greater leaves the maximum. -/
theorem IsLowestMaximum.keep {v : List F64} {lo hi m : Nat} (h : IsLowestMaximum v lo hi m)
    (hle : orderKey (v.getD hi fzero) ≤ orderKey (v.getD m fzero)) : IsLowestMaximum v lo (hi + 1) m where
  largest k hlo hk := by
    rcases Nat.lt_succ_iff_lt_or_eq.mp hk with hk | rfl
    · exact h.largest k hlo hk
    · exact hle
  lowest := h.lowest

/-- The scan finds the lowest maximum, by induction on the end of the band. -/
theorem bestBin_isLowestMaximum {v : List F64} {lo hi : Nat} (h : lo < hi)
    (hnan : ∀ k, lo ≤ k → k < hi → isNaN (v.getD k fzero) = false) : IsLowestMaximum v lo hi (bestBin v lo hi) := by
  induction hi, Nat.succ_le_of_lt h using Nat.le_induction with
  | base =>
    rw [bestBin_singleton]
    refine ⟨fun k hlo hk => ?_, fun k hlo hk => absurd hlo hk.not_ge⟩
    rw [Nat.le_antisymm (Nat.le_of_lt_succ hk) hlo]
  | succ hi hle ih =>
    have hmax := ih hle fun k hlo hk => hnan k hlo (Nat.lt_succ_of_lt hk)
    obtain ⟨hlo, hhi⟩ := bestBin_mem v hle
    have hgt := fgt_iff (hnan hi (Nat.le_of_lt hle) hi.lt_succ_self) (hnan _ hlo (Nat.lt_succ_of_lt hhi))
    rw [bestBin_succ v hle]
    split
    next hnew => exact hmax.take (hgt.mp hnew)
    next hold => exact hmax.keep (not_lt.mp (mt hgt.mpr hold))

/-- Settles O56: on a band without NaN the order of the keys is `fgt`. -/
theorem bestBinIsTheLowestMaximum : Obligations.BestBinIsTheLowestMaximum := by
  unfold Obligations.BestBinIsTheLowestMaximum
  intro v lo hi h hnan
  obtain ⟨hlo, hhi⟩ := bestBin_mem v h
  obtain ⟨hlargest, hlowest⟩ := bestBin_isLowestMaximum h hnan
  have hbest := hnan _ hlo hhi
  refine ⟨hlo, hhi, fun k hk hk' => ?_, fun k hk hk' => ?_⟩
  · exact Bool.eq_false_of_not_eq_true (mt (fgt_iff (hnan k hk hk') hbest).mp (hlargest k hk hk').not_gt)
  · exact (fgt_iff hbest (hnan k hk (hk'.trans hhi))).mpr (hlowest k hk hk')

/-- The strongest bin of band `b` as a peak of frame `j` (R249). -/
def strongestPeak (B NB j : Nat) (v : List F64) (b : Nat) : Peak :=
  let best := bestBin v (bandLo B NB b) (bandHi B NB b)
  ⟨j, best, v.getD best fzero⟩

/-- The strongest bin of band `b` is above the threshold of the band (R250). -/
def bandQualifies (B NB : Nat) (mult : F64) (v : List F64) (b : Nat) : Bool :=
  fgt (v.getD (bestBin v (bandLo B NB b) (bandHi B NB b)) fzero)
    (bandThreshold v (bandLo B NB b) (bandHi B NB b) mult)

theorem bandPeak_eq (B NB : Nat) (mult : F64) (j : Nat) (v : List F64) (b : Nat) :
    bandPeak B NB mult j v b = if bandQualifies B NB mult v b then some (strongestPeak B NB j v b) else none := rfl

/-- The peaks of a frame are the strongest bins of the bands that qualify, in ascending band (R254). -/
theorem framePeaks_eq_map_filter (B NB : Nat) (mult : F64) (j : Nat) (v : List F64) :
    framePeaks B NB mult j v =
      ((List.range NB).filter (bandQualifies B NB mult v)).map (strongestPeak B NB j v) := by
  rw [framePeaks, funext (bandPeak_eq B NB mult j v), ← List.filterMap_eq_map', List.filterMap_filter]

/-- The turn of PEAK with its guard true. -/
theorem execPeak_of_filled {s : State} {v : List F64} (hs : stageOk s = true) (hv : slot? s.spec s.npf = some v) :
    execPeak s = .next (emit 6#4 s.npf
      { s with
        pk := s.pk ++ framePeaks s.B s.NB s.MULT s.npf v
        ptap := s.ptap ++ peakBeats (framePeaks s.B s.NB s.MULT s.npf v)
        npf := s.npf + 1 }) := by
  rw [execPeak, if_pos hs, hv]

/-- Settles O31: the statement's bounds are those of the bands, so what it finds is the peaks of the frame. -/
theorem peakStep : Obligations.PeakStep := by
  unfold Obligations.PeakStep
  intro s v hs hv B NB lo hi thr best found
  have hhi : hi = bandHi s.B s.NB := funext fun b => if_congr Nat.lt_sub_iff_add_lt rfl rfl
  have hfound : found = framePeaks s.B s.NB s.MULT s.npf v := by
    rw [framePeaks_eq_map_filter]
    simp only [found, thr, best, hhi]
    rfl
  rw [hfound]
  exact execPeak_of_filled (stageOk_iff.mpr hs) hv

end Sys2Proof.Machine
end

section
/-! PROOFS. The hash encoder (46_hash_encode.md R267 to R276). First the hash word and its inverse as arithmetic, then the
turns of HEMIT and HADV with their guards true, then the scan of a peak list in frame order, each with its statement. -/

namespace Sys2Proof.Machine
open Sys2Proof.Safety

/-- A concatenation of bit vectors as a number: the fields do not overlap. -/
theorem toNat_append_eq_add {m n : Nat} (x : BitVec m) (y : BitVec n) : (x ++ y).toNat = x.toNat * 2 ^ n + y.toNat := by
  rw [BitVec.toNat_append, ← Nat.shiftLeft_add_eq_or_of_lt y.isLt, Nat.shiftLeft_eq]

/-- A clamped value fits its field. -/
theorem toNat_ofNat_min {w k : Nat} (v : Nat) (hk : k < 2 ^ w) : (BitVec.ofNat w (min v k)).toNat = min v k := by
  rw [BitVec.toNat_ofNat, Nat.mod_eq_of_lt ((Nat.min_le_right v k).trans_lt hk)]

/-- The hash word as a number: each field saturates and has its own weight (R267). -/
theorem toNat_pack (b1 b2 d : Nat) :
    (pack b1 b2 d).toNat = min b1 511 * 2 ^ 23 + min b2 511 * 2 ^ 14 + min d 16383 := by
  rw [pack, toNat_append_eq_add, toNat_append_eq_add, toNat_ofNat_min b1 (by decide), toNat_ofNat_min b2 (by decide),
    toNat_ofNat_min d (by decide), Nat.add_mul, Nat.mul_assoc, ← Nat.pow_add]

theorem pack_eq_ofNat (b1 b2 d : Nat) :
    pack b1 b2 d = BitVec.ofNat 32 (min b1 511 * 2 ^ 23 + min b2 511 * 2 ^ 14 + min d 16383) := by
  rw [← toNat_pack, BitVec.ofNat_toNat, BitVec.setWidth_eq]

/-- The inverse masks as quotients and remainders (R269). -/
theorem unpack_eq_div_mod (h : Word) :
    unpack h = (h.toNat / 2 ^ 23 % 2 ^ 9, h.toNat / 2 ^ 14 % 2 ^ 9, h.toNat % 2 ^ 14) := by
  simp only [unpack, BitVec.extractLsb'_toNat, Nat.shiftRight_eq_div_pow, Nat.pow_zero, Nat.div_one]

theorem unpack_pack (b1 b2 d : Nat) : unpack (pack b1 b2 d) = (min b1 511, min b2 511, min d 16383) := by
  rw [unpack_eq_div_mod, toNat_pack, Prod.mk.injEq, Prod.mk.injEq]
  omega

/-- The fields of a word are in range, so packing them clamps nothing. -/
theorem pack_unpack (h : Word) : pack (unpack h).1 (unpack h).2.1 (unpack h).2.2 = h := by
  apply BitVec.eq_of_toNat_eq
  simp only [toNat_pack, unpack_eq_div_mod]
  omega

/-- Settles O4. -/
theorem hashWordFieldsSaturateAndInvert : Obligations.HashWordFieldsSaturateAndInvert := by
  unfold Obligations.HashWordFieldsSaturateAndInvert
  exact ⟨fun b1 b2 d => ⟨toNat_pack b1 b2 d, unpack_pack b1 b2 d⟩, pack_unpack⟩

/-- The pair HEMIT takes, from the peaks its guard names; the converse is `pairInZone_spec`. -/
theorem pairInZone_of_le {s : State} {p q : Peak} (hp : s.pk[s.a]? = some p) (hq : s.pk[s.t]? = some q)
    (hz : frameDelta p q ≤ s.Z) : pairInZone s = some (p, q) := by
  simp only [pairInZone, hp, hq, if_pos hz]

/-- The turn of HEMIT with its guard true (R272). -/
theorem execHemit_of_inZone {s : State} {p q : Peak} (hs : stageOk s = true) (hp : s.pk[s.a]? = some p)
    (hq : s.pk[s.t]? = some q) (hz : frameDelta p q ≤ s.Z) :
    execHemit s = .next (emit 7#4 s.hashCount
      { s with
        hq := s.hq ++ [pack p.bin q.bin (frameDelta p q)], hashCount := s.hashCount + 1, t := s.t + 1 }) := by
  rw [execHemit, if_pos hs, pairInZone_of_le hp hq hz]

/-- The anchor can be released exactly when the candidate is beyond the zone (R273), or the known peaks are exhausted and no
later peak can be in the zone (R274). -/
theorem anchorDone_iff {s : State} :
    anchorDone s = true ↔
      ∃ p, s.pk[s.a]? = some p ∧
        ((∃ q, s.pk[s.t]? = some q ∧ s.Z < frameDelta p q) ∨ (s.t = s.P ∧ (PDone s ∨ p.frame + s.Z < s.npf))) := by
  unfold anchorDone
  cases hp : s.pk[s.a]? with
  | none => simp
  | some p =>
    cases hq : s.pk[s.t]? with
    | some q =>
      have ht : s.t ≠ s.P := (List.getElem?_eq_some_iff.mp hq).1.ne
      simp [ht]
    | none => simp [pdone_iff_PDone]

/-- The guard of HADV is the model's check. -/
theorem hadvReady_iff_Guard {s : State} : (stageOk s && anchorDone s) = true ↔ Guard .hadv s := by
  rw [Bool.and_eq_true, stageOk_iff, anchorDone_iff]
  rfl

/-- The turn of HADV with its guard true, in either form (R273, R274). -/
theorem execHadv_of_guard {s : State} (h : Guard .hadv s) :
    execHadv s = .next (emit 8#4 (s.a + 1) { s with a := s.a + 1, t := s.a + 2 }) :=
  if_pos (hadvReady_iff_Guard.mpr h)

/-- HEMIT needs a candidate in the zone, HADV one beyond it or none (R275). -/
theorem not_hemit_and_hadv (s : State) : ¬ (Guard .hemit s ∧ Guard .hadv s) := by
  rintro ⟨⟨-, p, q, hp, hq, hin⟩, -, p', hp', hdone⟩
  cases hp.symm.trans hp'
  rcases hdone with ⟨q', hq', hout⟩ | ⟨ht, -⟩
  · cases hq.symm.trans hq'
    exact hin.not_gt hout
  · exact (List.getElem?_eq_some_iff.mp hq).1.ne ht

/-- Settles O32. -/
theorem hashEncoderSteps : Obligations.HashEncoderSteps := by
  unfold Obligations.HashEncoderSteps
  refine ⟨fun s p q hs hp hq hz => ?_, fun s h => execHadv_of_guard h, not_hemit_and_hadv⟩
  rw [← pack_eq_ofNat]
  exact execHemit_of_inZone (stageOk_iff.mpr hs) hp hq hz

/-- On later peaks in frame order the first one beyond the zone of the anchor ends its targets (R270), so stopping there
and skipping give the same hashes. -/
theorem anchorHashes_eq_map_filter (Z : Nat) (p : Peak) {pk : List Peak}
    (h : pk.Pairwise fun x y => x.frame ≤ y.frame) :
    anchorHashes Z p pk =
      (pk.filter fun q => frameDelta p q ≤ Z).map fun q => pack p.bin q.bin (frameDelta p q) := by
  induction pk with
  | nil => rfl
  | cons q rest ih =>
    obtain ⟨hlater, hrest⟩ := List.pairwise_cons.mp h
    by_cases hin : frameDelta p q ≤ Z
    · simp [anchorHashes, hin, ih hrest]
    · have hout : ∀ r ∈ q :: rest, ¬ frameDelta p r ≤ Z := by
        intro r hr hle
        have hqr : q.frame ≤ r.frame := by
          rcases List.mem_cons.mp hr with rfl | hr
          · exact le_rfl
          · exact hlater r hr
        exact hin ((Nat.sub_le_sub_right hqr p.frame).trans hle)
      rw [anchorHashes, if_neg hin, List.filter_eq_nil_iff.mpr (by simpa using hout), List.map_nil]

/-- Settles O59, by induction on the list: the targets of each anchor agree. -/
theorem skippingScanGivesTheSameHashes : Obligations.SkippingScanGivesTheSameHashes := by
  unfold Obligations.SkippingScanGivesTheSameHashes
  intro Z pk h
  induction pk with
  | nil => rfl
  | cons p rest ih =>
    rw [skipScanHashes, canonicalHashes, anchorHashes_eq_map_filter Z p h.of_cons, ih h.of_cons]

end Sys2Proof.Machine
end

section
/-! PROOFS. The checks of `START` (60_exceptions.md R316). First that the list of the nine checks and the model's cascade of
them find the same failure, then what `START` answers. -/

namespace Sys2Proof.Machine
open Sys2Proof.Safety

/-- A failure the model finds, as the list of the checks writes it. -/
def failedCheck (c : FaultSub × Word) : Bool × Word × Word := (true, errWordOf c.1, c.2)

/-- One check: when it fails it is what both sides find, and when it passes both go on to the later checks. -/
theorem find?_check {p : Prop} [Decidable p] {b : Bool} {sub : FaultSub} {e info : Word}
    {rest : List (Bool × Word × Word)} {later : Option (FaultSub × Word)} (hb : b = true ↔ p) (he : errWordOf sub = e)
    (hrest : rest.find? (fun c => c.1) = later.map failedCheck) :
    ((b, e, info) :: rest).find? (fun c => c.1) = (if p then some (sub, info) else later).map failedCheck := by
  subst he
  by_cases hp : p
  · obtain rfl := hb.mpr hp
    rw [if_pos hp]
    rfl
  · obtain rfl := Bool.eq_false_iff.mpr (mt hb.mp hp)
    rw [if_neg hp, ← hrest]
    rfl

/-- The first entry of the list that fails is the failure the model finds, check by check in the order of R316. -/
theorem find?_startChecks (s : State) :
    (startChecks s).find? (fun c => c.1) = (startCheck s).map failedCheck :=
  find?_check (decide_eq_true_iff.trans BitVec.lt_def.symm) rfl <|
  find?_check decide_eq_true_iff rfl <|
  find?_check decide_eq_true_iff rfl <|
  find?_check decide_eq_true_iff rfl <|
  find?_check decide_eq_true_iff rfl <|
  find?_check decide_eq_true_iff rfl <|
  find?_check decide_eq_true_iff rfl <|
  find?_check decide_eq_true_iff rfl <|
  find?_check (Bool.not_eq_true' _).to_iff rfl rfl

theorem execCmdStart_of_failing {s : State} {sub : FaultSub} {info : Word} (hp : s.phase = .idle)
    (hc : startCheck s = some (sub, info)) : execCmdStart s = .next (enterFault sub info (clearRun s)) := by
  rw [execCmdStart, if_pos hp, hc]

/-- Settles O17: both clauses through the model's cascade, which finds the failure the list finds. -/
theorem startReportsTheFirstFailingCheck : Obligations.StartReportsTheFirstFailingCheck := by
  unfold Obligations.StartReportsTheFirstFailingCheck
  refine ⟨fun s e info hp hfail => ?_, fun s hp hnone => ?_⟩
  · rw [find?_startChecks] at hfail
    obtain ⟨⟨sub, word⟩, hc, hreport⟩ := Option.map_eq_some_iff.mp hfail
    cases hreport
    exact (execCmdStart_of_failing hp hc).trans (congrArg _ (enterFault_eq_faulted _ _ _))
  · rw [find?_startChecks, Option.map_eq_none_iff] at hnone
    have hlegal : cfgOk s := startCheck_eq_none_iff.mp hnone
    exact ⟨hlegal, execCmdStart_of_legal hp hlegal⟩

end Sys2Proof.Machine
end

section
/-! PROOFS. The interrupt levels and the line (10_state.md R35, 60_exceptions.md R322). First the levels as propositions and
the bits of `IRQ_PEND`, then when two masked fields meet, then the statement. -/

namespace Sys2Proof.Machine

@[simp] theorem exec_rdIrqPend (s : State) : exec .rdIrqPend s = .next (respond (irqPendWord s) s) := rfl

theorem inReady_iff {s : State} :
    inReady s = true ↔ s.phase = .run ∧ s.inFifo.length < s.impl.inDepth ∧ s.accepted < maxSamples := by
  rw [inReady, Bool.and_eq_true, beq_iff_eq, roomForSample_iff]

theorem hashAvail_iff {s : State} :
    hashAvail s = true ↔ (s.phase = .run ∨ s.phase = .flush ∨ s.phase = .done) ∧ 0 < s.hq.length := by
  rw [hashAvail, Bool.and_eq_true, popPhase_iff, List.length_pos_iff, Bool.not_eq_true', List.isEmpty_eq_false_iff]

/-- The four levels in the order of the bits of `IRQ_PEND` (R35). -/
theorem irqPendWord_getLsbD (s : State) :
    (irqPendWord s).getLsbD 0 = (s.phase == .done) ∧ (irqPendWord s).getLsbD 1 = (s.phase == .fault) ∧
    (irqPendWord s).getLsbD 2 = hashAvail s ∧ (irqPendWord s).getLsbD 3 = inReady s := by
  simp only [irqPendWord, BitVec.append_ofBool, BitVec.getLsbD_concat_zero, BitVec.getLsbD_concat_succ, and_self]

/-- The field above the four bits of the levels is the leading zeros. -/
theorem irqPendWord_reserved (s : State) : (irqPendWord s).extractLsb' 4 28 = 0#28 :=
  (BitVec.extractLsb'_append_eq_of_le (by decide)).trans <|
  (BitVec.extractLsb'_append_eq_of_le (by decide)).trans <|
  (BitVec.extractLsb'_append_eq_of_le (by decide)).trans BitVec.extractLsb'_append_eq_left

/-- Two words have a one in common among their low bits exactly when the AND of those bits is not zero. -/
theorem low_and_ne_zero_iff {w n : Nat} (x y : BitVec w) :
    (x.extractLsb' 0 n &&& y.extractLsb' 0 n != 0#n) = true ↔
      ∃ k, k < n ∧ x.getLsbD k = true ∧ y.getLsbD k = true := by
  have hbit {k : Nat} (hk : k < n) :
      (x.extractLsb' 0 n &&& y.extractLsb' 0 n).getLsbD k = (x.getLsbD k && y.getLsbD k) := by
    simp [hk]
  simp only [bne_iff_ne, ne_eq, BitVec.eq_of_getLsbD_eq_iff, not_forall, exists_prop]
  refine exists_congr fun k => and_congr_right fun hk => ?_
  rw [hbit hk, BitVec.getLsbD_zero, Bool.not_eq_false, Bool.and_eq_true]

/-- Settles O13: each bit of the word read is a level of R322's table, and the line is the AND of the two four-bit fields. -/
theorem interruptLevelsAndLine : Obligations.InterruptLevelsAndLine := by
  unfold Obligations.InterruptLevelsAndLine
  intro s
  obtain ⟨hdone, hfault, havail, hready⟩ := irqPendWord_getLsbD s
  refine ⟨irqPendWord s, exec_rdIrqPend s, ?_, ?_, ?_, ?_, irqPendWord_reserved s, low_and_ne_zero_iff _ _⟩
  · rw [hdone, beq_iff_eq]
  · rw [hfault, beq_iff_eq]
  · rw [havail, hashAvail_iff]
  · rw [hready]
    exact inReady_iff

end Sys2Proof.Machine
end

section
/-! PROOFS. The decoder and the encoder (30_encoding.md R101 to R110). First each transaction and each beat decoded after
encoding, then a word taken apart into its fields and put together again, then the statements. -/

namespace Sys2Proof.Machine
open Sys2Proof.Safety

/-- A write transaction decodes to the write of its register. -/
theorem decodeWord_writeWord (r : Reg) (data : Word) : decodeWord (.bus (writeWord r data)) = decodeWrite r data := by
  rw [decodeWord, decodeBus_at_register (busRsv_writeWord r data) (busAddr_writeWord r data).symm, busWe_writeWord,
    busData_writeWord, if_pos rfl]

/-- A read transaction decodes to the read of its register. -/
theorem decodeWord_readWord (r : Reg) : decodeWord (.bus (readWord r)) = decodeRead r := by
  rw [decodeWord, decodeBus_at_register (busRsv_readWord r) (busAddr_readWord r).symm, busWe_readWord,
    if_neg Bool.false_ne_true]

/-- Settles O1: the word of an instruction is a write, a read or a beat, and each decodes by its register or its id. The
operations that the proof does not name are the reads. -/
theorem decodeInvertsEncode : Obligations.DecodeInvertsEncode := by
  unfold Obligations.DecodeInvertsEncode
  intro i
  cases i with
  | cmdNop | cmdStart | cmdFinish | cmdClear | cmdReset | wrIrqEn | wrSrcRate | wrTargetRate | wrMinRate | wrFilterTaps
  | wrFrameSize | wrHopSize | wrNumBands | wrTargetZone | wrThreshLo | wrThreshHi | wrSampleLo | wrSampleHi
  | wrCoefSel => exact decodeWord_writeWord _ _
  | ingest | kdes | wgen | fird | wfft | peak | hemit | hadv | retire | fault =>
    simp [encode, decodeWord, decodeBeat]
  | _ => exact decodeWord_readWord _

/-- An instruction read from a register is encoded as the read of that register. -/
theorem encode_of_decodeRead {r : Reg} {i : Instr} (h : decodeRead r = .ok i) : encode i = .bus (readWord r) := by
  cases r <;> cases h <;> rfl

/-- A command is encoded as the write of its number. -/
theorem encode_of_decodeCommand {data : Word} {i : Instr} (h : decodeCommand data = .ok i) :
    encode i = .bus (writeWord .cmd data) := by
  unfold decodeCommand at h
  split at h
  next hd => cases h; rw [hd]; rfl
  split at h
  next hd => cases h; rw [hd]; rfl
  split at h
  next hd => cases h; rw [hd]; rfl
  split at h
  next hd => cases h; rw [hd]; rfl
  split at h
  next hd => cases h; rw [hd]; rfl
  next => cases h

/-- An instruction read from a write is encoded as that write. -/
theorem encode_of_decodeWrite {r : Reg} {data : Word} {i : Instr} (h : decodeWrite r data = .ok i) :
    encode i = .bus (writeWord r data) := by
  cases r with
  | cmd => exact encode_of_decodeCommand h
  | _ => cases h <;> rfl

/-- The register found at an address has that address. -/
theorem regAddr_of_regAt {a : BitVec 12} {r : Reg} (h : regAt a = some r) : regAddr r = a :=
  eq_of_beq (List.find?_some (p := fun r => regAddr r == a) h)

/-- A transaction that decodes has no reserved bits, and is the write or the read of the register at its address. -/
theorem decodeBus_eq_ok {w : BusWord} {i : Instr} (h : decodeBus w = .ok i) :
    busRsv w = 0#3 ∧ ∃ r, regAddr r = busAddr w ∧ (if busWe w then decodeWrite r (busData w) else decodeRead r) = .ok i := by
  unfold decodeBus at h
  split at h
  next => cases h
  next hrsv =>
    split at h
    next => cases h
    next =>
      split at h
      next => cases h
      next r hr => exact ⟨not_not.mp hrsv, r, regAddr_of_regAt hr, h⟩

/-- The four fields of a transaction make it up. -/
theorem busWord_eq_fields (w : BusWord) :
    (w.extractLsb' 47 1 ++ busRsv w ++ busAddr w ++ busData w : BitVec 48) = w :=
  calc (w.extractLsb' 47 1 ++ busRsv w ++ busAddr w ++ busData w : BitVec 48)
      = w.extractLsb' 44 4 ++ busAddr w ++ busData w := by
        rw [busRsv, BitVec.extractLsb'_append_extractLsb'_eq_extractLsb' (show 47 = 44 + 3 from rfl)]
    _ = w.extractLsb' 32 16 ++ busData w := by
        rw [busAddr, BitVec.extractLsb'_append_extractLsb'_eq_extractLsb' (show 44 = 32 + 12 from rfl)]
    _ = w.extractLsb' 0 48 := by
        rw [busData, BitVec.extractLsb'_append_extractLsb'_eq_extractLsb' (show 32 = 0 + 32 from rfl)]
    _ = w := BitVec.extractLsb'_eq_self

/-- A write transaction is the write of its register with its data. -/
theorem writeWord_fields {w : BusWord} {r : Reg} (hrsv : busRsv w = 0#3) (hr : regAddr r = busAddr w)
    (hwe : busWe w = true) : writeWord r (busData w) = w := by
  conv_rhs => rw [← busWord_eq_fields w, hrsv, ← hr, show w.extractLsb' 47 1 = 1#1 from eq_of_beq hwe]
  rfl

/-- A read transaction is the read of its register, once its data is cleared. -/
theorem readWord_fields {w : BusWord} {r : Reg} (hrsv : busRsv w = 0#3) (hr : regAddr r = busAddr w)
    (hwe : busWe w = false) : readWord r = w &&& 0xFFFF00000000#48 := by
  have hbit : w.extractLsb' 47 1 = 0#1 := (BitVec.eq_zero_or_eq_one _).resolve_right (by simpa [busWe] using hwe)
  conv_rhs => rw [← busWord_eq_fields w, hrsv, ← hr, hbit]
  exact (Laws.EncodeMatchesRow.mask_append _ _).symm

/-- The operation id and the index of a beat make it up. -/
theorem beatWord_fields (w : BeatWord) : beatWord (beatOp w) (beatIdx w) = w :=
  (BitVec.extractLsb'_append_extractLsb'_eq_extractLsb' rfl).trans BitVec.extractLsb'_eq_self

/-- The instruction of a beat is encoded with its operation id, and with its index when that is an operand (log entry 5). -/
theorem encode_of_decodeBeat {w : BeatWord} {i : Instr} (h : decodeBeat w = .ok i) :
    encode i = .beat (beatWord (beatOp w) (if beatOp w = 5#4 ∨ beatOp w = 10#4 then beatIdx w else 0#32)) := by
  have hop : beatOp w = BitVec.ofNat 4 (beatOp w).toNat := by simp
  unfold decodeBeat at h
  generalize beatOp w = op at h hop
  split at h <;> rename_i hid <;> cases h
  all_goals
    rw [hid] at hop
    subst hop
    rfl

/-- Settles O2. -/
theorem decodedWordsReencode : Obligations.DecodedWordsReencode := by
  unfold Obligations.DecodedWordsReencode
  refine ⟨fun w i h => ?_, fun w i h => ?_⟩
  · obtain ⟨hrsv, r, hr, hdecode⟩ := decodeBus_eq_ok h
    rw [← busWe_eq_getLsbD]
    cases hwe : busWe w with
    | true =>
      rw [hwe, if_pos rfl] at hdecode
      rw [encode_of_decodeWrite hdecode, writeWord_fields hrsv hr hwe, if_pos rfl]
    | false =>
      rw [hwe, if_neg Bool.false_ne_true] at hdecode
      rw [encode_of_decodeRead hdecode, readWord_fields hrsv hr hwe, if_neg Bool.false_ne_true]
  · rw [encode_of_decodeBeat h]
    change PortWord.beat (beatWord (beatOp w) (if beatOp w = 5#4 ∨ beatOp w = 10#4 then _ else _)) =
      .beat (if beatOp w = 5#4 ∨ beatOp w = 10#4 then _ else _)
    split
    next => rw [beatWord_fields]
    next => exact congrArg _ ((Laws.EncodeMatchesRow.mask_beat _ _).symm.trans (by rw [beatWord_fields]))

/-- Settles O3: each word is closed, so the decoder computes. -/
theorem commandAndSampleWordsDecode : Obligations.CommandAndSampleWordsDecode := by
  unfold Obligations.CommandAndSampleWordsDecode
  exact ⟨rfl, rfl, rfl, rfl, rfl, rfl, rfl, rfl, rfl, rfl, rfl, rfl, rfl⟩

/-- A word that decodes is taken off the schedule, and its instruction happens. -/
theorem step_of_decodeWord_ok {s : State} {p : PortWord} {rest : List Event} {i : Instr}
    (hs : s.script = .word p :: rest) (hd : decodeWord p = .ok i) : step s = exec i { s with script := rest } := by
  simp only [step, nextEvent, hs, runWord, hd]

/-- Settles O5. -/
theorem stepRunsTheDecodedInstruction : Obligations.StepRunsTheDecodedInstruction :=
  fun _ _ _ _ hs hd => step_of_decodeWord_ok hs hd

theorem step_of_nil {s : State} (hs : s.script = []) : step s = .next s := by
  simp only [step, nextEvent, hs]

theorem decodeBus_reservedBits {w : BusWord} (h : busRsv w ≠ 0#3) : decodeBus w = .error .reservedBits := if_pos h

/-- The ids 0 and 11 to 15 are of no agent. -/
theorem decodeBeat_reserved {w : BeatWord} (h : (beatOp w).toNat = 0 ∨ 11 ≤ (beatOp w).toNat) :
    decodeBeat w = .error .reservedStageOp := by
  unfold decodeBeat
  split
  on_goal 11 => rfl
  all_goals omega

/-- Settles O6. -/
theorem stepsThatRunNoInstruction : Obligations.StepsThatRunNoInstruction := by
  unfold Obligations.StepsThatRunNoInstruction
  exact ⟨fun s => step_of_nil, fun s rest hs => step_of_hardReset hs,
    fun s w rest hs h => step_of_decodeWord_error hs (decodeBus_reservedBits h),
    fun s w rest hs h => step_of_decodeWord_error hs (decodeBeat_reserved h)⟩

/-- Settles O10: every read here is allowed in every phase and answers its value. -/
theorem storedRegisterAndCounterReads : Obligations.StoredRegisterAndCounterReads := by
  unfold Obligations.StoredRegisterAndCounterReads
  intro s
  exact ⟨rfl, rfl, rfl, rfl, rfl, rfl, rfl, rfl, rfl, rfl, rfl, rfl, rfl, rfl, rfl, rfl, rfl, rfl, rfl, rfl, rfl, rfl⟩

end Sys2Proof.Machine
end

section
/-! PROOFS. The invariant of the registers and queues. First the states after a reset, after `CLEAR` and after fault entry,
then the state after each other move, then a step. -/

namespace Sys2Proof.Machine
open Sys2Proof.Safety

/-- The state after a reset has the invariant, whatever the implementation and the environment. -/
theorem archInv_resetBlock (s : State) : ArchInv (resetBlock s) where
  slotsRising := slotsRising_nil
  irqEnReserved := (by decide : State.reset.irqEn.extractLsb' 4 28 = 0#28)
  coefSelReserved := (by decide : State.reset.coefSel.extractLsb' 16 15 = 0#15)
  errPhase := by simp [State.reset]
  errValue := .inl rfl
  errInfoPhase := fun _ => rfl
  inFifoBound := Nat.zero_le _
  hqBound := Nat.zero_le _
  acceptedBound := Nat.zero_le _
  samplesInRange := nofun
  idleClear := fun _ => rfl
  finPhase := by simp [State.reset]
  inputSeen := nofun
  configLegal := nofun
  ksumFlag := nofun
  kernLength := nofun
  winLength := nofun
  faultFlushed := nofun
  hashesCounted := fun _ => rfl
  doneComplete := nofun
  roomWhenReleased := fun _ => .inl rfl

/-- `IRQ_EN` keeps no reserved bit. -/
theorem irqEnOf_reserved (d : Word) : (irqEnOf d).extractLsb' 4 28 = 0#28 := by
  refine BitVec.eq_of_getLsbD_eq fun k _ => ?_
  rw [BitVec.getLsbD_extractLsb', irqEnOf_getLsbD, BitVec.getLsbD_zero]
  simp

/-- `COEF_SEL` keeps no reserved bit. -/
theorem coefSelOf_reserved (d : Word) : (coefSelOf d).extractLsb' 16 15 = 0#15 := by
  refine BitVec.eq_of_getLsbD_eq fun k hk => ?_
  rw [BitVec.getLsbD_extractLsb', coefSelOf_getLsbD, BitVec.getLsbD_zero,
    decide_eq_false (show ¬ (16 + k < 16 ∨ 16 + k = 31) by omega), Bool.false_and, Bool.and_false]

/-- A stage step happens in a run. -/
theorem phase_of_stageOk {s : State} (h : stageOk s = true) : s.phase = .run ∨ s.phase = .flush := (stageOk_iff.mp h).1

theorem not_idle_of_stageOk {s : State} (h : stageOk s = true) : s.phase ≠ .idle := by
  rcases phase_of_stageOk h with hp | hp <;> rw [hp] <;> decide

theorem not_done_of_stageOk {s : State} (h : stageOk s = true) : s.phase ≠ .done := by
  rcases phase_of_stageOk h with hp | hp <;> rw [hp] <;> decide

theorem not_fault_of_stageOk {s : State} (h : stageOk s = true) : s.phase ≠ .fault := by
  rcases phase_of_stageOk h with hp | hp <;> rw [hp] <;> decide

end Sys2Proof.Machine

namespace Sys2Proof.Safety
open Sys2Proof.Machine

section Kept
variable {s : State} (h : ArchInv s)
include h

theorem ArchInv.script (l : List Event) : ArchInv { s with script := l } :=
  { h with
    errInfoPhase := h.errInfoPhase
    idleClear := fun hp => congrArg (fun u : State => { u with script := l }) (h.idleClear hp) }

theorem ArchInv.answer (r : Option Resp) : ArchInv { s with resp := r } :=
  { h with
    errInfoPhase := h.errInfoPhase
    idleClear := fun hp => congrArg (fun u : State => { u with resp := r }) (h.idleClear hp) }

theorem ArchInv.setIrqEn (data : Word) : ArchInv { s with irqEn := irqEnOf data } :=
  { h with
    irqEnReserved := irqEnOf_reserved data
    errInfoPhase := h.errInfoPhase
    idleClear := fun hp => congrArg (fun u : State => { u with irqEn := irqEnOf data }) (h.idleClear hp) }

theorem ArchInv.setCoefSel (data : Word) : ArchInv { s with coefSel := coefSelOf data } :=
  { h with
    coefSelReserved := coefSelOf_reserved data
    errInfoPhase := h.errInfoPhase
    idleClear := fun hp => congrArg (fun u : State => { u with coefSel := coefSelOf data }) (h.idleClear hp) }

/-- In `IDLE` nothing depends on the configuration. -/
theorem ArchInv.setConfig {t : State} (hp : s.phase = .idle) (ht : SameButConfig s t) : ArchInv t := by
  obtain ⟨-, -, -, -, -, hk, -, -, hw, -⟩ := clearRun_eq_iff.mp (h.idleClear hp)
  obtain ⟨sr, tr, mr, ft, fs, hs, nb, tz, tl, th, rfl⟩ := ht
  exact
    { h with
      errInfoPhase := h.errInfoPhase
      idleClear := fun _ => congrArg (fun u : State =>
        { u with
          srcRate := sr, targetRate := tr, minRate := mr, filterTaps := ft, frameSize := fs, hopSize := hs
          numBands := nb, targetZone := tz, threshLo := tl, threshHi := th }) (h.idleClear hp)
      configLegal := by simp [Active, hp]
      kernLength := fun hv => absurd (hk.symm.trans hv) Bool.false_ne_true
      winLength := fun hv => absurd (hw.symm.trans hv) Bool.false_ne_true
      doneComplete := fun hd => nomatch hp.symm.trans hd }

/-- Leaving a run clears it and the error record. -/
theorem ArchInv.left : ArchInv (leaveRun s) where
  slotsRising := slotsRising_nil
  irqEnReserved := h.irqEnReserved
  coefSelReserved := h.coefSelReserved
  errPhase := by simp
  errValue := .inl rfl
  errInfoPhase := fun _ => rfl
  inFifoBound := Nat.zero_le _
  hqBound := Nat.zero_le _
  acceptedBound := Nat.zero_le _
  samplesInRange := nofun
  idleClear := fun _ => rfl
  finPhase := by simp
  inputSeen := nofun
  configLegal := nofun
  ksumFlag := nofun
  kernLength := nofun
  winLength := nofun
  faultFlushed := nofun
  hashesCounted := fun _ => rfl
  doneComplete := nofun
  roomWhenReleased := fun _ => .inl rfl

/-- `START` clears the run state, which in `IDLE` is clear, and has checked the configuration. -/
theorem ArchInv.started (hp : s.phase = .idle) (hc : startCheck s = none) :
    ArchInv (accept { clearRun s with phase := .run }) := by
  have hnoFault : s.phase ≠ .fault := by rw [hp]; decide
  rw [h.idleClear hp]
  obtain ⟨-, -, hfin, -, -, hk, -, -, hw, -⟩ := clearRun_eq_iff.mp (h.idleClear hp)
  exact
    { h with
      errPhase := by simpa using mt h.errPhase.mp hnoFault
      errInfoPhase := fun _ => h.errInfoPhase hnoFault
      idleClear := nofun
      finPhase := by simp [hfin]
      configLegal := fun _ => startCheck_eq_none_iff.mp hc
      faultFlushed := nofun
      hashesCounted := fun _ => h.hashesCounted hnoFault
      doneComplete := nofun }

/-- Fault entry, which no end of input precedes. -/
theorem ArchInv.enterFault (sub : FaultSub) (info : Word) (hp : s.phase = .idle ∨ s.phase = .run) :
    ArchInv (enterFault sub info s) where
  slotsRising := h.slotsRising
  irqEnReserved := h.irqEnReserved
  coefSelReserved := h.coefSelReserved
  errPhase := by simp [errWordOf_ne_zero]
  errValue := .inr (errWordOf_mem sub)
  errInfoPhase := fun hne => absurd rfl hne
  inFifoBound := h.inFifoBound
  hqBound := Nat.zero_le _
  acceptedBound := h.acceptedBound
  samplesInRange := h.samplesInRange
  idleClear := nofun
  finPhase := by
    have := h.finPhase
    rcases hp with hp | hp <;> simpa [hp] using this
  inputSeen := h.inputSeen
  configLegal := nofun
  ksumFlag := h.ksumFlag
  kernLength := h.kernLength
  winLength := h.winLength
  faultFlushed := fun _ => rfl
  hashesCounted := fun hne => absurd rfl hne
  doneComplete := nofun
  roomWhenReleased := fun _ => .inl rfl

/-- In `RUN` the end of the input has not been signalled. -/
theorem ArchInv.fin_of_run (hp : s.phase = .run) : s.fin = false := by
  have := mt h.finPhase.mp
  simpa [hp] using this

theorem ArchInv.finish (hp : s.phase = .run) (ha : s.accepted ≠ 0) :
    ArchInv (accept { s with fin := true, phase := .flush }) :=
  have hnoFault : s.phase ≠ .fault := by rw [hp]; decide
  { h with
    errPhase := by simpa using mt h.errPhase.mp hnoFault
    errInfoPhase := fun _ => h.errInfoPhase hnoFault
    idleClear := nofun
    finPhase := by simp
    inputSeen := fun _ => Nat.pos_of_ne_zero ha
    configLegal := fun _ => h.configLegal (.inl hp)
    faultFlushed := nofun
    hashesCounted := fun _ => h.hashesCounted hnoFault
    doneComplete := nofun }

theorem ArchInv.latch (data : Word) (hp : s.phase = .run) : ArchInv (accept { s with slo := data }) :=
  { h with
    errInfoPhase := h.errInfoPhase
    idleClear := fun hi => nomatch hp.symm.trans hi }

theorem ArchInv.push {v : F64} (hp : s.phase = .run) (hr : roomForSample s = true) (hv : outOfRange v = false) :
    ArchInv (accept { s with inFifo := s.inFifo ++ [v] }) :=
  have hroom := roomForSample_iff.mp hr
  have hlen : (s.inFifo ++ [v]).length = s.inFifo.length + 1 := List.length_append
  { h with
    errInfoPhase := h.errInfoPhase
    inFifoBound := hlen.trans_le hroom.1
    acceptedBound := (congrArg (s.n + ·) hlen).trans_le hroom.2
    samplesInRange := fun x hx => by
      have hx : x ∈ s.xin ++ s.inFifo ∨ x = v := by simpa [or_assoc] using hx
      exact hx.elim (h.samplesInRange x) fun hx => hx ▸ hv
    idleClear := fun hi => nomatch hp.symm.trans hi
    inputSeen := fun hf => absurd ((h.fin_of_run hp).symm.trans hf) Bool.false_ne_true
    doneComplete := fun hd => nomatch hp.symm.trans hd }

/-- The words popped and those queued are the same ones after a pop. -/
theorem ArchInv.pop {w : Word} {rest : List Word} (hp : popPhase s.phase = true) (hq : s.hq = w :: rest)
    (hroom : s.a = s.P → rest = [] ∨ rest.length < s.impl.outDepth) :
    ArchInv (respond w { s with hq := rest, popped := s.popped ++ [w] }) :=
  have hactive : Active s := popPhase_iff.mp hp
  have hsame : s.popped ++ [w] ++ rest = produced s := by simp [produced, hq]
  { h with
    errInfoPhase := h.errInfoPhase
    hqBound := Nat.le_of_succ_le ((congrArg List.length hq).symm.trans_le h.hqBound)
    idleClear := fun hi => by simp [Active, show s.phase = .idle from hi] at hactive
    faultFlushed := fun hf => by simp [Active, show s.phase = .fault from hf] at hactive
    hashesCounted := fun hf => (h.hashesCounted hf).trans (congrArg List.length hsame.symm)
    doneComplete := h.doneComplete
    roomWhenReleased := hroom }

section Stages
variable (hs : stageOk s = true)
include hs

theorem ArchInv.ingest {v : F64} {rest : List F64} (hf : s.inFifo = v :: rest) :
    ArchInv (emit 1#4 s.n { s with inFifo := rest, xin := s.xin ++ [v] }) :=
  have hsame : s.xin ++ [v] ++ rest = s.xin ++ s.inFifo := by simp [hf]
  have hcount : (s.xin ++ [v]).length + rest.length = s.accepted := by
    simp only [State.accepted, State.n, hf, List.length_append, List.length_cons, List.length_nil]
    omega
  { h with
    errInfoPhase := h.errInfoPhase
    inFifoBound := Nat.le_of_succ_le ((congrArg List.length hf).symm.trans_le h.inFifoBound)
    acceptedBound := hcount.trans_le h.acceptedBound
    samplesInRange := fun x hx => h.samplesInRange x (hsame ▸ hx)
    idleClear := fun hi => absurd hi (not_idle_of_stageOk hs)
    inputSeen := fun hfin => (h.inputSeen hfin).trans_eq hcount.symm
    doneComplete := fun hd => absurd hd (not_done_of_stageOk hs)
    roomWhenReleased := fun _ => .inr (stageOk_iff.mp hs).2 }

theorem ArchInv.kdes :
    ArchInv (emit 2#4 s.NT
      { s with
        kern := (designKernel (numericsOf s.impl.numerics) s.Fs s.Ft s.NT).1
        ksumZero := (designKernel (numericsOf s.impl.numerics) s.Fs s.Ft s.NT).2
        kvalid := true }) :=
  { h with
    errInfoPhase := h.errInfoPhase
    idleClear := fun hi => absurd hi (not_idle_of_stageOk hs)
    ksumFlag := fun _ => rfl
    kernLength := fun _ => length_designKernel _ _ _ _ }

theorem ArchInv.wgen :
    ArchInv (emit 3#4 s.F { s with win := makeWindow (numericsOf s.impl.numerics) s.F, wvalid := true }) :=
  { h with
    errInfoPhase := h.errInfoPhase
    idleClear := fun hi => absurd hi (not_idle_of_stageOk hs)
    winLength := fun _ => length_makeWindow _ _ }

theorem ArchInv.fird (y : F64) : ArchInv (emit 4#4 s.m { s with ys := s.ys ++ [y] }) :=
  { h with
    errInfoPhase := h.errInfoPhase
    idleClear := fun hi => absurd hi (not_idle_of_stageOk hs)
    doneComplete := fun hd => absurd hd (not_done_of_stageOk hs) }

theorem ArchInv.wfft (j : Nat) : ArchInv (transform (numericsOf s.impl.numerics) j s) :=
  { h with
    slotsRising := fillSlot_rising j _ h.slotsRising
    errInfoPhase := h.errInfoPhase
    idleClear := fun hi => absurd hi (not_idle_of_stageOk hs)
    doneComplete := fun hd => absurd hd (not_done_of_stageOk hs) }

theorem ArchInv.peak (ps : List Peak) (beats : List TapBeat) :
    ArchInv (emit 6#4 s.npf { s with pk := s.pk ++ ps, ptap := s.ptap ++ beats, npf := s.npf + 1 }) :=
  { h with
    errInfoPhase := h.errInfoPhase
    idleClear := fun hi => absurd hi (not_idle_of_stageOk hs)
    doneComplete := fun hd => absurd hd (not_done_of_stageOk hs)
    roomWhenReleased := fun _ => .inr (stageOk_iff.mp hs).2 }

/-- The anchor of a pushed hash is left, so nothing is asked of the room after the push. -/
theorem ArchInv.hemit {w : Word} (ha : s.a < s.P) :
    ArchInv (emit 7#4 s.hashCount { s with hq := s.hq ++ [w], hashCount := s.hashCount + 1, t := s.t + 1 }) :=
  have hlen : (s.hq ++ [w]).length = s.hq.length + 1 := List.length_append
  have hmore : (s.popped ++ (s.hq ++ [w])).length = (produced s).length + 1 := by
    simp [produced, Nat.add_assoc]
  have hidle : s.phase ≠ .idle := not_idle_of_stageOk hs
  have hnoFault : s.phase ≠ .fault := not_fault_of_stageOk hs
  have hdone : s.phase ≠ .done := not_done_of_stageOk hs
  { h with
    errInfoPhase := h.errInfoPhase
    hqBound := hlen.trans_le (stageOk_iff.mp hs).2
    idleClear := fun hi => absurd hi hidle
    faultFlushed := fun hf => absurd hf hnoFault
    hashesCounted := fun hf => (congrArg (· + 1) (h.hashesCounted hf)).trans hmore.symm
    doneComplete := fun hd => absurd hd hdone
    roomWhenReleased := fun hr => absurd hr ha.ne }

theorem ArchInv.hadv : ArchInv (emit 8#4 (s.a + 1) { s with a := s.a + 1, t := s.a + 2 }) :=
  { h with
    errInfoPhase := h.errInfoPhase
    idleClear := fun hi => absurd hi (not_idle_of_stageOk hs)
    doneComplete := fun hd => absurd hd (not_done_of_stageOk hs)
    roomWhenReleased := fun _ => .inr (stageOk_iff.mp hs).2 }

theorem ArchInv.retire (hp : s.phase = .flush) (hd : hdone s = true) :
    ArchInv (emit 9#4 s.hashCount { s with phase := .done }) :=
  have hnoFault : s.phase ≠ .fault := not_fault_of_stageOk hs
  { h with
    errPhase := by simpa using mt h.errPhase.mp hnoFault
    errInfoPhase := fun _ => h.errInfoPhase hnoFault
    idleClear := nofun
    finPhase := by simpa using h.finPhase.mpr (.inl hp)
    configLegal := fun _ => h.configLegal (.inr (.inl hp))
    faultFlushed := nofun
    hashesCounted := fun _ => h.hashesCounted hnoFault
    doneComplete := fun _ => hd }

end Stages
end Kept

/-- Every move keeps the invariant. -/
theorem ArchInv.move {s t : State} (h : ArchInv s) (hmove : Move s t) : ArchInv t := by
  have hroom := hmove.room h.roomWhenReleased
  cases hmove with
  | stay => exact h
  | answer r => exact h.answer (some r)
  | setIrqEn d => exact (h.setIrqEn d).answer _
  | setCoefSel d => exact (h.setCoefSel d).answer _
  | setConfig u hp hu => exact (h.setConfig hp hu).answer _
  | start hp hc => exact h.started hp hc
  | startFault sub info hp _ =>
    rw [h.idleClear hp]
    exact h.enterFault sub info (.inl hp)
  | emptyFault hp _ => exact h.enterFault _ _ (.inr hp)
  | rangeFault hp _ => exact h.enterFault _ _ (.inr hp)
  | finish hp ha => exact h.finish hp ha
  | clear => exact h.left.answer _
  | reset => exact (archInv_resetBlock s).answer _
  | latch d hp => exact h.latch d hp
  | push v hp hr hv => exact h.push hp hr hv
  | pop w rest hp hq => exact h.pop hp hq hroom
  | ingest v rest hs hf => exact h.ingest hs hf
  | kdes hs _ => exact h.kdes hs
  | wgen hs _ => exact h.wgen hs
  | fird hr => exact h.fird (firdReady_iff.mp hr).1 _
  | wfft j hs _ _ _ => exact h.wfft hs j
  | peak v hs _ => exact h.peak hs _ _
  | hemit p q hs hp _ _ => exact h.hemit hs (List.getElem?_eq_some_iff.mp hp).1
  | hadv hs _ => exact h.hadv hs
  | retire hp hd hs => exact h.retire hs hp hd

/-- Settles O46: a step waits, resets, or makes a move after taking its event off the schedule. -/
theorem stepKeepsTheRegisterInvariant : Obligations.StepKeepsTheRegisterInvariant := by
  unfold Obligations.StepKeepsTheRegisterInvariant
  intro s t h hstep
  rcases step_cases hstep with ⟨-, rfl⟩ | ⟨e, rest, -, rfl | hmove⟩
  · exact h
  · exact archInv_resetBlock _
  · exact (h.script rest).move hmove

end Sys2Proof.Safety
end

section
/-! PROOFS. The stream invariant: what the stages have computed is what the batch pipeline computes (20_memory.md R81,
42_fir_decimate.md R196, 44_fft_magnitude.md R233, 46_hash_encode.md R275). First what the numerics read of a signal that
grows, then the hashes of a peak list that grows, then the state after each move, then a step. -/

namespace Sys2Proof.Machine
open Sys2Proof.Safety

/-- A convolution whose taps end within the signal does not read what comes after. -/
theorem conv_append {NT c : Nat} {xs : List F64} (h : c + (NT - 1) / 2 + 1 ≤ xs.length) (kern ys : List F64) :
    conv kern (xs ++ ys) NT c = conv kern xs NT c := by
  refine List.foldl_ext _ _ _ fun acc k _ => ?_
  have hin : c + (NT - 1) / 2 - k < xs.length := by omega
  have hin' : c + (NT - 1) / 2 - k < (xs ++ ys).length := by rw [List.length_append]; omega
  rw [List.getD_append _ _ _ _ hin]
  simp only [hin, hin']

/-- A frame that exists does not read what comes after it. -/
theorem windowedFrame_append {F H j : Nat} {ys : List F64} (h : j * H + F ≤ ys.length) (zs win : List F64) :
    windowedFrame (ys ++ zs) win F H j = windowedFrame ys win F H j := by
  refine List.map_congr_left fun k hk => ?_
  rw [List.getD_append _ _ _ _ (by have := List.mem_range.mp hk; omega)]

/-- An output that exists still exists when the signal has grown. -/
theorem lenOk_mono {Fs Ft n n' i : Nat} (hn : n ≤ n') (h : lenOk Fs Ft n i = true) : lenOk Fs Ft n' i = true := by
  simp only [lenOk, decide_eq_true_eq] at h ⊢
  exact h.trans (Nat.mul_le_mul_right Ft hn)

/-- The peaks of a frame carry its index. -/
theorem frame_of_mem_framePeaks {B NB j : Nat} {mult : F64} {v : List F64} {p : Peak}
    (h : p ∈ framePeaks B NB mult j v) : p.frame = j := by
  rw [framePeaks_eq_map_filter] at h
  obtain ⟨b, -, rfl⟩ := List.mem_map.mp h
  rfl

/-- A scan that stops within the known peaks does not see later ones. -/
theorem anchorHashes_append_of_stop {Z : Nat} {p : Peak} {l : List Peak} (h : ∃ q ∈ l, Z < frameDelta p q)
    (later : List Peak) : anchorHashes Z p (l ++ later) = anchorHashes Z p l := by
  induction l with
  | nil => simp at h
  | cons r rest ih =>
    rw [List.cons_append, anchorHashes, anchorHashes]
    by_cases hr : frameDelta p r ≤ Z
    · obtain ⟨q, hq, hz⟩ := h
      rcases List.mem_cons.mp hq with rfl | hq
      · exact absurd hr hz.not_ge
      · rw [if_pos hr, if_pos hr, ih ⟨q, hq, hz⟩]
    · rw [if_neg hr, if_neg hr]

/-- Later peaks that are all beyond the zone give no hash. -/
theorem anchorHashes_append_of_beyond {Z : Nat} {p : Peak} {later : List Peak} (h : ∀ q ∈ later, Z < frameDelta p q)
    (l : List Peak) : anchorHashes Z p (l ++ later) = anchorHashes Z p l := by
  induction l with
  | nil =>
    cases later with
    | nil => rfl
    | cons q rest => exact if_neg (h q List.mem_cons_self).not_ge
  | cons r rest ih => rw [List.cons_append, anchorHashes, anchorHashes, ih]

/-- A scan over targets that are all in the zone, up to one beyond it or the end. -/
theorem anchorHashes_of_taken {Z : Nat} {p : Peak} {l later : List Peak} (hin : ∀ q ∈ l, frameDelta p q ≤ Z)
    (hstop : ∀ q rest, later = q :: rest → Z < frameDelta p q) :
    anchorHashes Z p (l ++ later) = l.map fun q => pack p.bin q.bin (frameDelta p q) := by
  induction l with
  | nil =>
    cases later with
    | nil => rfl
    | cons q rest => exact if_neg (hstop q rest rfl).not_ge
  | cons r rest ih =>
    rw [List.cons_append, anchorHashes, if_pos (hin r List.mem_cons_self),
      ih fun q hq => hin q (List.mem_cons_of_mem _ hq), List.map_cons]

/-- The hashes of the targets of anchor `i`, all of them (R270). -/
def releasedHashes (Z : Nat) (pk : List Peak) (i : Nat) : List Word :=
  match pk[i]? with
  | some p => anchorHashes Z p (pk.drop (i + 1))
  | none => []

/-- The hashes of the targets of anchor `a` below `t` (R272). -/
def takenHashes (pk : List Peak) (a t : Nat) : List Word :=
  match pk[a]? with
  | some p => ((pk.take t).drop (a + 1)).map fun q => pack p.bin q.bin (frameDelta p q)
  | none => []

theorem hashesBelow_eq (Z : Nat) (pk : List Peak) (a t : Nat) :
    hashesBelow Z pk a t = (List.range a).flatMap (releasedHashes Z pk) ++ takenHashes pk a t := rfl

/-- No target is taken of an anchor just reached. -/
theorem takenHashes_fresh (pk : List Peak) (a : Nat) : takenHashes pk a (a + 1) = [] := by
  unfold takenHashes
  split
  · rw [List.drop_eq_nil_of_le (List.length_take_le _ _), List.map_nil]
  · rfl

/-- HEMIT takes one target more. -/
theorem takenHashes_succ {pk : List Peak} {a t : Nat} {p q : Peak} (hp : pk[a]? = some p) (hq : pk[t]? = some q)
    (ht : a + 1 ≤ t) :
    takenHashes pk a (t + 1) = takenHashes pk a t ++ [pack p.bin q.bin (frameDelta p q)] := by
  have hlen : a + 1 ≤ (pk.take t).length := by
    have := (List.getElem?_eq_some_iff.mp hq).1
    rw [List.length_take]
    omega
  simp only [takenHashes, hp, List.take_add_one, hq, Option.toList_some, List.drop_append_of_le_length hlen,
    List.map_append, List.map_cons, List.map_nil]

/-- The taken targets of an anchor, when it is done, are all of its targets. -/
theorem takenHashes_eq_releasedHashes {Z : Nat} {pk : List Peak} {a t : Nat} {p : Peak} (hp : pk[a]? = some p)
    (ht : a + 1 ≤ t) (hin : ∀ q k, a < k → k < t → pk[k]? = some q → frameDelta p q ≤ Z)
    (hstop : ∀ q, pk[t]? = some q → Z < frameDelta p q) : takenHashes pk a t = releasedHashes Z pk a := by
  have hsplit : pk.drop (a + 1) = (pk.take t).drop (a + 1) ++ pk.drop t := by
    have hparts := List.drop_take_append_drop' pk (a + 1) (t - (a + 1))
    rw [Nat.sub_add_cancel ht] at hparts
    rw [List.drop_take, hparts]
  simp only [takenHashes, releasedHashes, hp]
  rw [hsplit, anchorHashes_of_taken]
  · intro q hq
    obtain ⟨k, hk⟩ := List.mem_iff_getElem?.mp hq
    rw [List.getElem?_drop, List.getElem?_take] at hk
    split at hk
    next hlt => exact hin q _ (by omega) hlt hk
    next => cases hk
  · intro q rest hq
    refine hstop q ?_
    have := congrArg (·[0]?) hq
    simpa using this

/-- The hashes of a released anchor are final: the scan has stopped, or every later peak is beyond its zone. -/
theorem releasedHashes_append {Z : Nat} {pk later : List Peak} {i : Nat} (hi : i < pk.length)
    (h : ∀ p, pk[i]? = some p → (∃ q ∈ pk.drop (i + 1), Z < frameDelta p q) ∨ ∀ q ∈ later, Z < frameDelta p q) :
    releasedHashes Z (pk ++ later) i = releasedHashes Z pk i := by
  have hp : pk[i]? = some pk[i] := List.getElem?_eq_getElem hi
  simp only [releasedHashes, List.getElem?_append_left hi, hp, List.drop_append_of_le_length hi]
  rcases h _ hp with hstop | hbeyond
  · exact anchorHashes_append_of_stop hstop later
  · exact anchorHashes_append_of_beyond hbeyond _

/-- The taken targets stay when peaks are appended. -/
theorem takenHashes_append {pk : List Peak} {a t : Nat} (ha : a < pk.length) (ht : t ≤ pk.length) (later : List Peak) :
    takenHashes (pk ++ later) a t = takenHashes pk a t := by
  simp only [takenHashes, List.getElem?_append_left ha, List.take_append_of_le_length ht]

/-- The state after the run-state clear has computed nothing. -/
theorem streamInv_of_clear {s : State} (h : clearRun s = s) : StreamInv s := by
  obtain ⟨-, -, -, -, -, hk, -, -, hw, hy, hs, hp, hn, ha, ht, hq, -, ho⟩ := clearRun_eq_iff.mp h
  exact
    { kernel := fun hv => absurd (hk.symm.trans hv) Bool.false_ne_true
      window := fun hv => absurd (hw.symm.trans hv) Bool.false_ne_true
      outputs := fun i hi => by simp [State.m, hy] at hi
      slots := fun j v hv => by simp [hs, slot?] at hv
      peaks := by simp [hp, hn]
      searched := fun j hj => by omega
      anchorBound := by omega
      targetBound := fun hlt => by simp [State.P, hp] at hlt
      targetFresh := fun _ => by omega
      taken := fun p q k hget => by simp [hp] at hget
      released := fun i p hi => by omega
      hashes := fun _ => by simp [produced, hq, ho, hashesBelow, hp, ha] }

/-- Everything is searched only when the input has ended and is ingested, no output is left, every frame has its slot, and
the search has passed the last frame. -/
theorem pdone_iff {s : State} :
    pdone s = true ↔ s.fin = true ∧ s.inFifo = [] ∧ lenOk s.Fs s.Ft s.n s.m = false ∧
      (∀ j < s.frames, (slot? s.spec j).isSome = true) ∧ s.npf = s.frames := by
  simp [pdone, sdone, ydone, xdone, and_assoc]

end Sys2Proof.Machine

namespace Sys2Proof.Safety
open Sys2Proof.Machine

section Kept
variable {s : State} (h : StreamInv s)
include h

theorem StreamInv.script (l : List Event) : StreamInv { s with script := l } := { h with }

theorem StreamInv.answer (r : Option Resp) : StreamInv { s with resp := r } := { h with }

theorem StreamInv.setIrqEn (d : Word) : StreamInv { s with irqEn := d } := { h with }

theorem StreamInv.setCoefSel (d : Word) : StreamInv { s with coefSel := d } := { h with }

theorem StreamInv.latch (d : Word) : StreamInv { s with slo := d } := { h with }

/-- Fault entry drops the queued hashes, and nothing is asked of them in `FAULT`. -/
theorem StreamInv.enterFault (sub : FaultSub) (info : Word) : StreamInv (enterFault sub info s) :=
  { h with hashes := fun hne => absurd rfl hne }

/-- A pop moves a hash from the queue to the popped ones. -/
theorem StreamInv.pop {w : Word} {rest : List Word} (hp : s.phase ≠ .fault) (hq : s.hq = w :: rest) :
    StreamInv (respond w { s with hq := rest, popped := s.popped ++ [w] }) :=
  have hsame : s.popped ++ [w] ++ rest = produced s := by simp [produced, hq]
  { h with hashes := fun _ => hsame.trans (h.hashes hp) }

/-- While the end of the input has not been signalled, what a released anchor waits for is known. -/
theorem StreamInv.released_of_not_pdone (hd : pdone s = false) {i : Nat} {p : Peak} (hi : i < s.a)
    (hp : s.pk[i]? = some p) : (∃ q ∈ s.pk.drop (i + 1), s.Z < frameDelta p q) ∨ p.frame + s.Z < s.npf :=
  (h.released i p hi hp).imp_right fun hr => hr.resolve_right (by rw [hd]; exact Bool.false_ne_true)

/-- The end of input changes nothing that is computed. -/
theorem StreamInv.finish (hfin : s.fin = false) (hp : s.phase ≠ .fault) :
    StreamInv (accept { s with fin := true, phase := .flush }) :=
  have hd : pdone s = false := Bool.eq_false_iff.mpr fun hd => by simp [pdone_iff, hfin] at hd
  { h with
    outputs := fun i hi => by
      obtain ⟨hk, hl, hc, hy⟩ := h.outputs i hi
      exact ⟨hk, hl, .inl (hc.resolve_right fun hx => by simp [xdone_iff, hfin] at hx), hy⟩
    released := fun i p hi hget => (h.released_of_not_pdone hd hi hget).imp_right .inl
    hashes := fun _ => h.hashes hp }

/-- A pushed sample waits in the queue. -/
theorem StreamInv.push (hfin : s.fin = false) (v : F64) : StreamInv (accept { s with inFifo := s.inFifo ++ [v] }) :=
  have hd : pdone s = false := Bool.eq_false_iff.mpr fun hd => by simp [pdone_iff, hfin] at hd
  { h with
    outputs := fun i hi => by
      obtain ⟨hk, hl, hc, hy⟩ := h.outputs i hi
      exact ⟨hk, hl, .inl (hc.resolve_right fun hx => by simp [xdone_iff, hfin] at hx), hy⟩
    released := fun i p hi hget => (h.released_of_not_pdone hd hi hget).imp_right .inl }

/-- The outputs so far do not read the new sample: it comes after the last one their filters reach. -/
theorem StreamInv.ingest {v : F64} {rest : List F64} (hf : s.inFifo = v :: rest) :
    StreamInv (emit 1#4 s.n { s with inFifo := rest, xin := s.xin ++ [v] }) :=
  have hx : xdone s = false := Bool.eq_false_iff.mpr fun hx => by simp [xdone_iff, hf] at hx
  have hd : pdone s = false := Bool.eq_false_iff.mpr fun hd => by simp [pdone_iff, hf] at hd
  have hn : s.n ≤ (s.xin ++ [v]).length := by simp [State.n]
  { h with
    outputs := fun i hi => by
      obtain ⟨hk, hl, hc, hy⟩ := h.outputs i hi
      have hc : centre s.Fs s.Ft i + s.M + 1 ≤ s.n := hc.resolve_right (by simp [hx])
      exact ⟨hk, lenOk_mono hn hl, .inl (hc.trans hn), hy.trans (congrArg some (conv_append hc _ _).symm)⟩
    released := fun i p hi hget => (h.released_of_not_pdone hd hi hget).imp_right .inl }

/-- No output was computed before the kernel. -/
theorem StreamInv.kdes (hk : s.kvalid = false) :
    StreamInv (emit 2#4 s.NT
      { s with
        kern := (designKernel (numericsOf s.impl.numerics) s.Fs s.Ft s.NT).1
        ksumZero := (designKernel (numericsOf s.impl.numerics) s.Fs s.Ft s.NT).2
        kvalid := true }) :=
  { h with
    kernel := fun _ => rfl
    outputs := fun i hi => absurd (hk.symm.trans (h.outputs i hi).1) Bool.false_ne_true }

/-- No slot was filled before the window. -/
theorem StreamInv.wgen (hw : s.wvalid = false) :
    StreamInv (emit 3#4 s.F { s with win := makeWindow (numericsOf s.impl.numerics) s.F, wvalid := true }) :=
  { h with
    window := fun _ => rfl
    slots := fun j v hv => absurd (hw.symm.trans (h.slots j v hv).1) Bool.false_ne_true }

/-- FIRD appends the convolution at the next centre, after the frames that are filled. -/
theorem StreamInv.fird (hr : firdReady s = true) :
    StreamInv (emit 4#4 s.m { s with ys := s.ys ++ [conv s.kern s.xin s.NT (centre s.Fs s.Ft s.m)] }) := by
  obtain ⟨-, hk, hl, hc⟩ := firdReady_iff.mp hr
  have hd : pdone s = false := Bool.eq_false_iff.mpr fun hd => by simp [pdone_iff, hl] at hd
  exact
    { h with
      outputs := fun i hi => by
        have hi : i < s.m + 1 := by simpa [State.m] using hi
        rcases Nat.lt_succ_iff_lt_or_eq.mp hi with hi | rfl
        · obtain ⟨hk, hl, hc, hy⟩ := h.outputs i hi
          exact ⟨hk, hl, hc, (List.getElem?_append_left hi).trans hy⟩
        · exact ⟨hk, hl, hc, List.getElem?_concat_length⟩
      slots := fun j v hv => by
        obtain ⟨hw, hj, hv⟩ := h.slots j v hv
        refine ⟨hw, hj.trans (by simp [State.m]), hv.trans ?_⟩
        exact congrArg ((numericsOf s.impl.numerics).dftMag s.F) (windowedFrame_append hj _ _).symm
      released := fun i p hi hget => (h.released_of_not_pdone hd hi hget).imp_right .inl }

/-- WFFT fills a slot that no peak was taken from. -/
theorem StreamInv.wfft (hH : 1 ≤ s.H) {j : Nat} (hw : s.wvalid = true) (hj : j * s.H + s.F ≤ s.m)
    (he : slot? s.spec j = none) : StreamInv (transform (numericsOf s.impl.numerics) j s) := by
  have hd : pdone s = false := Bool.eq_false_iff.mpr fun hd => by
    have := (pdone_iff.mp hd).2.2.2.1 j (lt_frameCount hH hj)
    simp [he] at this
  have hother : ∀ i < s.npf, slot? (fillSlot s.spec j (frameMagnitudes (numericsOf s.impl.numerics) s j)) i =
      slot? s.spec i := fun i hi => by
    refine slot?_fillSlot_of_ne (fun hij => ?_) _ _
    have := h.searched i hi
    simp [hij, he] at this
  exact
    { h with
      slots := fun i v hv => by
        by_cases hij : i = j
        · subst hij
          exact ⟨hw, hj, (Option.some.inj ((slot?_fillSlot_self _ _ _).symm.trans hv)).symm⟩
        · exact h.slots i v ((slot?_fillSlot_of_ne hij _ _).symm.trans hv)
      peaks := h.peaks.trans (List.flatMap_congr fun i hi => by
        rw [transform_spec, hother i (List.mem_range.mp hi)]
        rfl)
      searched := fun i hi => (congrArg Option.isSome (hother i hi)).trans (h.searched i hi)
      released := fun i p hi hget => (h.released_of_not_pdone hd hi hget).imp_right .inl }

/-- The new peaks come after all there were: no anchor released so far has one of them in its zone. -/
theorem StreamInv.peak (hH : 1 ≤ s.H) {v : List F64} (hv : slot? s.spec s.npf = some v) :
    StreamInv (emit 6#4 s.npf
      { s with
        pk := s.pk ++ framePeaks s.B s.NB s.MULT s.npf v
        ptap := s.ptap ++ peakBeats (framePeaks s.B s.NB s.MULT s.npf v)
        npf := s.npf + 1 }) := by
  have hd : pdone s = false := Bool.eq_false_iff.mpr fun hd => by
    have hlt : s.npf < s.frames := lt_frameCount hH (h.slots _ _ hv).2.1
    have := (pdone_iff.mp hd).2.2.2.2
    omega
  have hreleased {i : Nat} {p : Peak} (hi : i < s.a) (hp : s.pk[i]? = some p) := h.released_of_not_pdone hd hi hp
  have hanchor : ∀ {i : Nat} {p : Peak}, i < s.P →
      (s.pk ++ framePeaks s.B s.NB s.MULT s.npf v)[i]? = some p → s.pk[i]? = some p :=
    fun hi hp => (List.getElem?_append_left hi).symm.trans hp
  have hlen : s.P ≤ (s.pk ++ framePeaks s.B s.NB s.MULT s.npf v).length := by simp [State.P]
  have hfresh : s.P ≤ s.a → s.a = s.P := fun hle => le_antisymm h.anchorBound hle
  exact
    { h with
      peaks := by
        have hpk := h.peaks
        simp only [emit_npf, emit_spec, List.range_succ, List.flatMap_append, List.flatMap_singleton, hv] at hpk ⊢
        exact congrArg (· ++ _) hpk
      searched := fun j hj => by
        rcases Nat.lt_succ_iff_lt_or_eq.mp hj with hj | rfl
        · exact h.searched j hj
        · exact Option.isSome_iff_exists.mpr ⟨v, hv⟩
      anchorBound := h.anchorBound.trans hlen
      targetBound := fun hlt => by
        rcases Nat.lt_or_ge s.a s.P with ha | ha
        · exact ⟨(h.targetBound ha).1, (h.targetBound ha).2.trans hlen⟩
        · have ht := h.targetFresh (hfresh ha)
          exact ⟨ht.ge, ht.trans_le hlt⟩
      targetFresh := fun ha => h.targetFresh (hfresh (hlen.trans_eq ha.symm))
      taken := fun p q k hp hak hkt hq => by
        rcases Nat.lt_or_ge s.a s.P with ha | ha
        · exact h.taken p q k (hanchor ha hp) hak hkt (hanchor (hkt.trans_le (h.targetBound ha).2) hq)
        · have ht := h.targetFresh (hfresh ha)
          exact absurd ((hkt.trans_eq ht).trans_le hak) (lt_irrefl _)
      released := fun i p hi hp => by
        have hi' : i < s.P := Nat.lt_of_lt_of_le hi h.anchorBound
        rcases hreleased hi (hanchor hi' hp) with ⟨q, hq, hz⟩ | hz
        · refine .inl ⟨q, ?_, hz⟩
          rw [emit_pk, List.drop_append_of_le_length hi']
          exact List.mem_append_left _ hq
        · exact .inr (.inl (Nat.lt_succ_of_lt hz))
      hashes := fun hp => by
        refine (h.hashes hp).trans ?_
        simp only [hashesBelow_eq]
        refine congrArg₂ (· ++ ·) (List.flatMap_congr fun i hi => ?_) ?_
        · have hi := List.mem_range.mp hi
          refine (releasedHashes_append (hi.trans_le h.anchorBound) fun p hp => ?_).symm
          refine (hreleased hi hp).imp_right fun hz q hq => ?_
          rw [frameDelta, frame_of_mem_framePeaks hq]
          exact Nat.lt_sub_iff_add_lt'.mpr hz
        · rcases Nat.lt_or_ge s.a s.P with ha | ha
          · exact (takenHashes_append ha (h.targetBound ha).2 _).symm
          · have ht : s.t = s.a + 1 := h.targetFresh (hfresh ha)
            simp only [emit_t, emit_a, ht, takenHashes_fresh] }

/-- HEMIT pushes the hash of the next target. -/
theorem StreamInv.hemit {p q : Peak} (hf : s.phase ≠ .fault) (hp : s.pk[s.a]? = some p) (hq : s.pk[s.t]? = some q)
    (hz : frameDelta p q ≤ s.Z) :
    StreamInv (emit 7#4 s.hashCount
      { s with
        hq := s.hq ++ [pack p.bin q.bin (frameDelta p q)], hashCount := s.hashCount + 1, t := s.t + 1 }) := by
  have ha : s.a < s.P := (List.getElem?_eq_some_iff.mp hp).1
  have ht : s.t < s.P := (List.getElem?_eq_some_iff.mp hq).1
  have hat := (h.targetBound ha).1
  exact
    { h with
      targetBound := fun _ => ⟨Nat.le_succ_of_le hat, ht⟩
      targetFresh := fun he => absurd he ha.ne
      taken := fun p' q' k hp' hak hkt hq' => by
        rcases Nat.lt_succ_iff_lt_or_eq.mp hkt with hkt | rfl
        · exact h.taken p' q' k hp' hak hkt hq'
        · cases hp.symm.trans hp'
          cases hq.symm.trans hq'
          exact hz
      hashes := fun _ => by
        have hold := h.hashes hf
        rw [hashesBelow_eq] at hold ⊢
        simp only [emit_t, emit_a, emit_pk, emit_Z, takenHashes_succ hp hq hat]
        rw [← List.append_assoc]
        exact (List.append_assoc _ _ _).symm.trans (congrArg (· ++ _) hold) }

/-- HADV releases an anchor whose targets are all taken. -/
theorem StreamInv.hadv (hd : anchorDone s = true) :
    StreamInv (emit 8#4 (s.a + 1) { s with a := s.a + 1, t := s.a + 2 }) := by
  obtain ⟨p, hp, hdone⟩ := anchorDone_iff.mp hd
  have ha : s.a < s.P := (List.getElem?_eq_some_iff.mp hp).1
  have hat := (h.targetBound ha).1
  have hstop : ∀ q, s.pk[s.t]? = some q → s.Z < frameDelta p q := by
    intro q hq
    rcases hdone with ⟨q', hq', hz⟩ | ⟨ht, -⟩
    · cases hq.symm.trans hq'
      exact hz
    · exact absurd ht (List.getElem?_eq_some_iff.mp hq).1.ne
  exact
    { h with
      anchorBound := ha
      targetBound := fun hlt => ⟨le_rfl, hlt⟩
      targetFresh := fun _ => rfl
      taken := fun p' q' k _ hak hkt _ => absurd (Nat.lt_of_lt_of_le hkt hak) (lt_irrefl _)
      released := fun i p' hi hp' => by
        rcases Nat.lt_succ_iff_lt_or_eq.mp hi with hi | rfl
        · exact h.released i p' hi hp'
        · cases hp.symm.trans hp'
          rcases hdone with ⟨q, hq, hz⟩ | ⟨-, hall | hfar⟩
          · refine .inl ⟨q, List.mem_iff_getElem?.mpr ⟨s.t - (s.a + 1), ?_⟩, hz⟩
            rw [List.getElem?_drop, Nat.add_sub_cancel' hat]
            exact hq
          · exact .inr (.inr (pdone_iff_PDone.mpr hall))
          · exact .inr (.inl hfar)
      hashes := fun hf => by
        refine (h.hashes hf).trans ?_
        have hin : ∀ q k, s.a < k → k < s.t → s.pk[k]? = some q → frameDelta p q ≤ s.Z := fun q k => h.taken p q k hp
        simp only [hashesBelow_eq, emit_a, emit_t, emit_pk, emit_Z, takenHashes_fresh, List.range_succ,
          List.flatMap_append, List.flatMap_singleton, List.append_nil, takenHashes_eq_releasedHashes hp hat hin hstop]
        rfl }

/-- RETIRE computes nothing. -/
theorem StreamInv.retire (hf : s.phase ≠ .fault) : StreamInv (emit 9#4 s.hashCount { s with phase := .done }) :=
  { h with hashes := fun _ => h.hashes hf }

end Kept

/-- Every move keeps the stream invariant, in a state with the register invariant. -/
theorem StreamInv.move {s t : State} (h : StreamInv s) (harch : ArchInv s) (hmove : Move s t) : StreamInv t := by
  have hH (hs : stageOk s = true) : 1 ≤ s.H := by
    obtain ⟨-, -, -, -, -, -, -, -, hH, -⟩ := harch.configLegal ((phase_of_stageOk hs).imp_right .inl)
    exact hH
  have hrun (hp : s.phase = .run) : s.phase ≠ .fault := by rw [hp]; decide
  cases hmove with
  | stay => exact h
  | answer r => exact h.answer (some r)
  | setIrqEn d => exact (h.setIrqEn _).answer _
  | setCoefSel d => exact (h.setCoefSel _).answer _
  | setConfig u hp hu =>
    have hidle : u.phase = .idle := by
      obtain ⟨_, _, _, _, _, _, _, _, _, _, rfl⟩ := hu
      exact hp
    exact (streamInv_of_clear ((harch.setConfig hp hu).idleClear hidle)).answer _
  | start hp hc => exact streamInv_of_clear rfl
  | startFault sub info hp _ => exact streamInv_of_clear rfl
  | emptyFault hp _ => exact h.enterFault _ _
  | rangeFault hp _ => exact h.enterFault _ _
  | finish hp ha => exact h.finish (harch.fin_of_run hp) (hrun hp)
  | clear => exact streamInv_of_clear rfl
  | reset => exact streamInv_of_clear rfl
  | latch d hp => exact (h.latch d).answer _
  | push v hp hr hv => exact h.push (harch.fin_of_run hp) v
  | pop w rest hp hq =>
    refine h.pop (fun hf => ?_) hq
    rw [hf] at hp
    cases hp
  | ingest v rest hs hf => exact h.ingest hf
  | kdes hs hk => exact h.kdes hk
  | wgen hs hw => exact h.wgen hw
  | fird hr => exact h.fird hr
  | wfft j hs hw hj he => exact h.wfft (hH hs) hw hj he
  | peak v hs hv => exact h.peak (hH hs) hv
  | hemit p q hs hp hq hz => exact h.hemit (not_fault_of_stageOk hs) hp hq hz
  | hadv hs hd => exact h.hadv hd
  | retire hp hd hs => exact h.retire (not_fault_of_stageOk hs)

/-- Settles O48: a step waits, resets, or makes a move after taking its event off the schedule. -/
theorem stepKeepsTheStreamInvariant : Obligations.StepKeepsTheStreamInvariant := by
  unfold Obligations.StepKeepsTheStreamInvariant
  intro s t harch h hstep
  rcases step_cases hstep with ⟨-, rfl⟩ | ⟨e, rest, -, rfl | hmove⟩
  · exact h
  · exact streamInv_of_clear rfl
  · exact (h.script rest).move (harch.script rest) hmove

/-- Settles O47: the reset state is that of a reset block, and its run state is clear. -/
theorem resetHasTheInvariants : Obligations.ResetHasTheInvariants :=
  ⟨archInv_resetBlock State.reset, streamInv_of_clear rfl⟩

end Sys2Proof.Safety
end

section
/-! PROOFS. The register reads (10_state.md R33 to R35, R47, 20_memory.md R75). First the bits of `STATUS`, then the words
read in `IDLE`, then that a read leaves what it reads, each with its statement. -/

namespace Sys2Proof.Machine
open Sys2Proof.Safety

/-- `STATUS` above the phase: the flags in the order of their bits (R33). -/
def statusFlags (s : State) : BitVec 29 :=
  0#17 ++ BitVec.ofBool (hdone s) ++ BitVec.ofBool (pdone s) ++ BitVec.ofBool (sdone s) ++ BitVec.ofBool (ydone s) ++
    BitVec.ofBool (xdone s) ++ BitVec.ofBool s.fin ++ BitVec.ofBool s.ksumZero ++ BitVec.ofBool s.wvalid ++
    BitVec.ofBool s.kvalid ++ BitVec.ofBool (hashAvail s) ++ BitVec.ofBool (inReady s) ++ BitVec.ofBool false

theorem statusWord_eq_append (s : State) : statusWord s = statusFlags s ++ s.phase.code := rfl

theorem statusWord_getLsbD (s : State) (k : Nat) : (statusWord s).getLsbD (k + 3) = (statusFlags s).getLsbD k := by
  rw [statusWord_eq_append, BitVec.getLsbD_append, if_neg (Nat.not_lt.mpr (Nat.le_add_left 3 k)), Nat.add_sub_cancel]

theorem statusFlags_getLsbD (s : State) :
    (statusFlags s).getLsbD 0 = false ∧ (statusFlags s).getLsbD 1 = inReady s ∧
    (statusFlags s).getLsbD 2 = hashAvail s ∧ (statusFlags s).getLsbD 3 = s.kvalid ∧
    (statusFlags s).getLsbD 4 = s.wvalid ∧ (statusFlags s).getLsbD 5 = s.ksumZero ∧ (statusFlags s).getLsbD 6 = s.fin ∧
    (statusFlags s).getLsbD 7 = xdone s ∧ (statusFlags s).getLsbD 8 = ydone s ∧ (statusFlags s).getLsbD 9 = sdone s ∧
    (statusFlags s).getLsbD 10 = pdone s ∧ (statusFlags s).getLsbD 11 = hdone s := by
  simp only [statusFlags, BitVec.append_ofBool, BitVec.getLsbD_concat_zero, BitVec.getLsbD_concat_succ, and_self]

/-- The reserved bits above the flags are zero. -/
theorem statusFlags_reserved (s : State) (k : Nat) : (statusFlags s).getLsbD (k + 12) = false := by
  simp only [statusFlags, BitVec.append_ofBool, BitVec.getLsbD_concat_succ, BitVec.getLsbD_zero]

theorem statusWord_phase (s : State) : (statusWord s).extractLsb' 0 3 = s.phase.code :=
  BitVec.extractLsb'_append_eq_right

theorem statusWord_reserved (s : State) : (statusWord s).extractLsb' 15 17 = 0#17 := by
  refine BitVec.eq_of_getLsbD_eq fun k _ => ?_
  rw [BitVec.getLsbD_extractLsb', Nat.add_comm 15 k, show k + 15 = k + 12 + 3 from rfl, statusWord_getLsbD,
    statusFlags_reserved, Bool.and_false, BitVec.getLsbD_zero]

/-- Settles O11: each bit of the word read is a predicate of the state, which its table writes as a proposition. -/
theorem statusReadsEveryBit : Obligations.StatusReadsEveryBit := by
  unfold Obligations.StatusReadsEveryBit
  intro s
  obtain ⟨hzero, hready, havail, hk, hw, hsum, hfin, hx, hy, hs, hp, hh⟩ := statusFlags_getLsbD s
  simp only [← statusWord_getLsbD] at hzero hready havail hk hw hsum hfin hx hy hs hp hh
  refine ⟨statusWord s, rfl, ?_, hzero, hready ▸ inReady_iff, havail ▸ hashAvail_iff, hk, hw, hsum, hfin, hx ▸ xdone_iff,
    hy ▸ ydone_iff_YDone, hs ▸ sdone_iff_SDone, hp ▸ pdone_iff_PDone, hh ▸ hdone_iff_HDone, statusWord_reserved s⟩
  rw [statusWord_phase]
  cases s.phase <;> rfl

theorem hashAvail_of_idle {s : State} (hp : s.phase = .idle) : hashAvail s = false :=
  Bool.eq_false_iff.mpr fun h => by simp [hashAvail_iff, hp] at h

theorem inReady_of_idle {s : State} (hp : s.phase = .idle) : inReady s = false :=
  Bool.eq_false_iff.mpr fun h => by simp [inReady_iff, hp] at h

theorem statusWord_of_idle {s : State} (hclear : clearRun s = s) (hp : s.phase = .idle) : statusWord s = 0#32 := by
  obtain ⟨-, -, hfin, -, -, hk, hz, -, hw, -⟩ := clearRun_eq_iff.mp hclear
  simp only [statusWord, hdone, pdone, sdone, ydone, xdone, hashAvail_of_idle hp, inReady_of_idle hp, hfin, hk, hz, hw, hp,
    Bool.false_and]
  rfl

theorem irqPendWord_of_idle {s : State} (hp : s.phase = .idle) : irqPendWord s = 0#32 := by
  simp only [irqPendWord, hashAvail_of_idle hp, inReady_of_idle hp, hp]
  rfl


/-- Settles O12: in `IDLE` the run state is clear and there is no error, so each word read is that of nothing. -/
theorem idleReadsZero : Obligations.IdleReadsZero := by
  unfold Obligations.IdleReadsZero
  intro s i hinv hp hi
  have hclear := hinv.idleClear hp
  have hnoFault : s.phase ≠ .fault := by rw [hp]; decide
  have herr : s.err = 0#32 := not_not.mp (mt hinv.errPhase.mp hnoFault)
  have hinfo : s.errInfo = 0#32 := hinv.errInfoPhase hnoFault
  have hstatus := statusWord_of_idle hclear hp
  have hpend := irqPendWord_of_idle hp
  obtain ⟨-, hf, -, hx, -, -, -, -, -, hy, hs, hpk, hn, -, -, hq, hc, -⟩ := clearRun_eq_iff.mp hclear
  simp only [List.mem_cons, List.not_mem_nil, or_false] at hi
  have hread {v : Word} (hv : v = 0#32) : (.next (respond v s) : Out) = .next { s with resp := some ⟨false, 0#32⟩ } := by
    rw [hv]
    rfl
  rcases hi with rfl | rfl | rfl | rfl | rfl | rfl | rfl | rfl | rfl | rfl | rfl | rfl
  · exact hread hstatus
  · exact hread herr
  · exact hread hinfo
  · exact hread hpend
  · exact hread (by simp [State.accepted, State.n, hx, hf, low32])
  · exact hread (by simp [State.m, hy, low32])
  · exact hread (by simp [hs, low32])
  · exact hread (by simp [hn, low32])
  · exact hread (by simp [State.P, hpk, low32])
  · exact hread (by simp [hc, low32])
  · exact hread (by simp [hf, low32])
  · exact hread (by simp [hq, low32])

/-- A read of the selected coefficient does not change which one is selected. -/
theorem readCoef_readCoef (half : F64 → Word) (s : State) :
    readCoef half s = { s with resp := (readCoef half s).resp } ∧ readCoef half (readCoef half s) = readCoef half s := by
  by_cases hp : s.phase = .idle
  · rw [readCoef_of_idle hp]
    exact ⟨rfl, readCoef_of_idle hp half⟩
  · cases hc : selectedCoef s with
    | none =>
      rw [readCoef_of_none hc]
      exact ⟨rfl, readCoef_of_none (s := refuse s) hc half⟩
    | some c =>
      rw [readCoef_of_some hp hc]
      exact ⟨rfl, readCoef_of_some (s := respond (half c) s) hp hc half⟩

/-- Settles O41: a read answers with a word that does not depend on the last answer. The reads not named in the proof are
those allowed in every phase. -/
theorem readsAreIdempotent : Obligations.ReadsAreIdempotent := by
  unfold Obligations.ReadsAreIdempotent
  intro i s t hi h
  cases i with
  | rdCoefLo =>
    cases h
    exact ⟨(readCoef_readCoef lo32 s).1, congrArg Host.Outcome.next (readCoef_readCoef lo32 s).2⟩
  | rdCoefHi =>
    cases h
    exact ⟨(readCoef_readCoef hi32 s).1, congrArg Host.Outcome.next (readCoef_readCoef hi32 s).2⟩
  | rdId | rdVersion | rdStatus | rdErr | rdErrInfo | rdIrqEn | rdIrqPend | rdCap0 | rdCap1 | rdCap2 | rdSrcRate
  | rdTargetRate | rdMinRate | rdFilterTaps | rdFrameSize | rdHopSize | rdNumBands | rdTargetZone | rdThreshLo
  | rdThreshHi | rdInCount | rdDsCount | rdFrameCount | rdPeakFrames | rdPeakCount | rdHashCount | rdInLevel
  | rdHashLevel | rdCoefSel =>
    cases h
    exact ⟨rfl, rfl⟩
  | _ => cases hi

end Sys2Proof.Machine
end

section
/-! PROOFS. The commands `START`, `CLEAR` and `RESET` (40_host_ops.md R141 to R144, 10_state.md R62, R63) and the two
transactions of `PUSH` (30_encoding.md R114). -/

namespace Sys2Proof.Machine
open Sys2Proof.Safety

/-- Settles O16: the ranges written out are the legality of the configuration. -/
theorem startOnALegalConfiguration : Obligations.StartOnALegalConfiguration := by
  unfold Obligations.StartOnALegalConfiguration
  refine ⟨fun s hp hrate hodd hFt hFs hNT hNT' hF hF' hH hNB hNB' hmult => ?_, fun s hp => execCmdStart_of_ne_idle hp⟩
  exact execCmdStart_of_legal hp ⟨BitVec.le_def.mpr hrate, hodd, hFt, hFs, hNT, hNT', hF, hF', hH, hNB, hNB', hmult⟩

/-- Settles O20: both resets give the reset block, and the command answers. -/
theorem resetGivesTheResetState : Obligations.ResetGivesTheResetState := by
  unfold Obligations.ResetGivesTheResetState
  refine fun s => ⟨resetBlock s, rfl, fun rest hs => step_of_hardReset hs, ?_⟩
  exact ⟨rfl, rfl, rfl, rfl, rfl, rfl, rfl, rfl, rfl, rfl, rfl, rfl, rfl, (by decide : State.reset.threshHi ++ State.reset.threshLo = 0x3FB999999999999A#64), rfl, rfl, rfl, rfl, rfl, rfl, rfl, rfl, rfl,
    rfl, rfl, rfl, rfl, rfl, rfl, rfl, rfl, rfl, rfl, rfl, rfl⟩

/-- What `CLEAR` leaves is made of the fields it keeps. -/
theorem leaveRun_congr {s s' : State} (himpl : s.impl = s'.impl) (hcfg : configOf s = configOf s')
    (hirq : s.irqEn = s'.irqEn) (hsel : s.coefSel = s'.coefSel) (htrace : s.trace = s'.trace) (hstap : s.stap = s'.stap)
    (hptap : s.ptap = s'.ptap) (hscript : s.script = s'.script) : accept (leaveRun s) = accept (leaveRun s') := by
  simp only [configOf, List.cons.injEq, and_true] at hcfg
  obtain ⟨hsr, htr, hmr, hft, hfs, hhs, hnb, htz, htl, hth⟩ := hcfg
  simp only [accept, respond, leaveRun, clearRun, himpl, hirq, hsel, htrace, hstap, hptap, hscript, hsr, htr, hmr, hft, hfs,
    hhs, hnb, htz, htl, hth]

/-- Settles O45. -/
theorem clearForgetsTheRun : Obligations.ClearForgetsTheRun := by
  unfold Obligations.ClearForgetsTheRun
  intro s s' himpl hcfg hirq hsel htrace hstap hptap hscript
  exact congrArg Host.Outcome.next (leaveRun_congr himpl hcfg hirq hsel htrace hstap hptap hscript)

/-- A value is its two words. -/
theorem join_hi32_lo32 (v : F64) : join (hi32 v) (lo32 v) = v :=
  (BitVec.extractLsb'_append_extractLsb'_eq_extractLsb' (show 32 = 0 + 32 from rfl)).trans BitVec.extractLsb'_eq_self

/-- A finite sample of magnitude at most 1 is in range. -/
theorem outOfRange_eq_false {v : F64} (hfin : isFinite v = true) (hone : |toRat v| ≤ 1) : outOfRange v = false :=
  Bool.eq_false_iff.mpr fun h => (outOfRange_iff.mp h).elim
    (fun hinf => Bool.false_ne_true (hinf.symm.trans hfin)) (fun hlarge => absurd hone hlarge.not_ge)

/-- The scheduled transaction of an operation is that operation's step. -/
theorem step_of_encode {s : State} {i : Instr} {rest : List Event} (hs : s.script = .word (encode i) :: rest) :
    step s = exec i { s with script := rest } :=
  step_of_decodeWord_ok hs (decodeInvertsEncode i)

/-- Settles O8: the first step latches the low half, the second pushes both, which are the value. -/
theorem pushPairQueuesTheSample : Obligations.PushPairQueuesTheSample := by
  unfold Obligations.PushPairQueuesTheSample
  intro s v rest hs hp hfifo hrun hfin hone
  have hv : outOfRange (join (hi32 v) (lo32 v)) = false := (join_hi32_lo32 v).symm ▸ outOfRange_eq_false hfin hone
  have hlow : step s =
      .next (accept { s with script := .word (encode (.wrSampleHi (hi32 v))) :: rest, slo := lo32 v }) :=
    (step_of_encode hs).trans (if_pos hp)
  refine ⟨_, hlow, (step_of_encode (rest := rest) (i := .wrSampleHi (hi32 v)) rfl).trans ?_⟩
  have hhigh := execWrSampleHi_of_inRange (s := accept { s with script := rest, slo := lo32 v }) hp
    (roomForSample_iff.mpr ⟨hfifo, hrun⟩) hv
  refine hhigh.trans ?_
  simp only [accept_slo, accept_inFifo, join_hi32_lo32]
  rfl

end Sys2Proof.Machine
end

section
/-! PROOFS. What each operation can do, said once with the operation: the step of a stage agent, and what a host operation or
the FAULT turn does. The rules about the whole machine follow by cases on these. -/

namespace Sys2Proof.Machine
open Sys2Proof.Safety

/-- The step of a stage agent from `s` to the state given: the operation, its guard, its effect. -/
inductive StageMove (s : State) : Instr → State → Prop
  | ingest (v : F64) (rest : List F64) (hs : stageOk s = true) (hf : s.inFifo = v :: rest) :
      StageMove s .ingest (emit 1#4 s.n { s with inFifo := rest, xin := s.xin ++ [v] })
  | kdes (hs : stageOk s = true) (hk : s.kvalid = false) :
      StageMove s .kdes (emit 2#4 s.NT
        { s with
          kern := (designKernel (numericsOf s.impl.numerics) s.Fs s.Ft s.NT).1
          ksumZero := (designKernel (numericsOf s.impl.numerics) s.Fs s.Ft s.NT).2
          kvalid := true })
  | wgen (hs : stageOk s = true) (hw : s.wvalid = false) :
      StageMove s .wgen
        (emit 3#4 s.F { s with win := makeWindow (numericsOf s.impl.numerics) s.F, wvalid := true })
  | fird (hr : firdReady s = true) :
      StageMove s .fird (emit 4#4 s.m { s with ys := s.ys ++ [conv s.kern s.xin s.NT (centre s.Fs s.Ft s.m)] })
  | wfft (idx : Word) (j : Nat) (hs : stageOk s = true) (hw : s.wvalid = true) (hj : chosenFrame s idx = some j) :
      StageMove s (.wfft idx) (transform (numericsOf s.impl.numerics) j s)
  | peak (v : List F64) (hs : stageOk s = true) (hv : slot? s.spec s.npf = some v) :
      StageMove s .peak (emit 6#4 s.npf
        { s with
          pk := s.pk ++ framePeaks s.B s.NB s.MULT s.npf v
          ptap := s.ptap ++ peakBeats (framePeaks s.B s.NB s.MULT s.npf v)
          npf := s.npf + 1 })
  | hemit (p q : Peak) (hs : stageOk s = true) (hp : s.pk[s.a]? = some p) (hq : s.pk[s.t]? = some q)
      (hz : frameDelta p q ≤ s.Z) :
      StageMove s .hemit (emit 7#4 s.hashCount
        { s with
          hq := s.hq ++ [pack p.bin q.bin (frameDelta p q)], hashCount := s.hashCount + 1, t := s.t + 1 })
  | hadv (hg : Guard .hadv s) : StageMove s .hadv (emit 8#4 (s.a + 1) { s with a := s.a + 1, t := s.a + 2 })
  | retire (hs : stageOk s = true) (hp : s.phase = .flush) (hd : HDone s) :
      StageMove s .retire (emit 9#4 s.hashCount { s with phase := .done })

/-- A step is what the turn of its agent does. -/
theorem StageMove.exec_eq {s t : State} {i : Instr} (h : StageMove s i t) : exec i s = .next t := by
  cases h with
  | ingest v rest hs hf => exact execIngest_of_cons hs hf
  | kdes hs hk => exact execKdes_of_enabled hs hk
  | wgen hs hw => exact congrArg Host.Outcome.next (if_pos (by rw [hs, hw]; rfl))
  | fird hr => exact execFird_of_ready hr
  | wfft idx j hs hw hj =>
    refine congrArg Host.Outcome.next ?_
    rw [wfftStep, hs, hw, hj]
    rfl
  | peak v hs hv => exact execPeak_of_filled hs hv
  | hemit p q hs hp hq hz => exact execHemit_of_inZone hs hp hq hz
  | hadv hg => exact execHadv_of_guard hg
  | retire hs hp hd => exact execRetire_of_enabled hp hd hs

/-- A turn of a stage agent is its step, or nothing. -/
theorem stageTurn_cases {s t : State} {i : Instr} (hi : isStageTurn i = true) (h : exec i s = .next t) :
    t = s ∨ StageMove s i t := by
  cases i with
  | ingest =>
    change execIngest s = .next t at h
    unfold execIngest at h
    split at h
    next hs =>
      split at h
      next => cases h; exact .inl rfl
      next v rest hf => cases h; exact .inr (.ingest v rest hs hf)
    next => cases h; exact .inl rfl
  | kdes =>
    cases hc : stageOk s && !s.kvalid with
    | true =>
      rw [Bool.and_eq_true, Bool.not_eq_true'] at hc
      cases (execKdes_of_enabled hc.1 hc.2).symm.trans h
      exact .inr (.kdes hc.1 hc.2)
    | false => cases h; exact .inl (by rw [kdesStep, hc]; rfl)
  | wgen =>
    cases hc : stageOk s && !s.wvalid with
    | true =>
      rw [Bool.and_eq_true, Bool.not_eq_true'] at hc
      have hmove := StageMove.wgen hc.1 hc.2
      cases hmove.exec_eq.symm.trans h
      exact .inr hmove
    | false => cases h; exact .inl (by rw [wgenStep, hc]; rfl)
  | fird =>
    change execFird s = .next t at h
    unfold execFird at h
    split at h
    next hr => cases h; exact .inr (.fird hr)
    next => cases h; exact .inl rfl
  | wfft idx =>
    cases h
    unfold wfftStep
    split
    next hc =>
      rw [Bool.and_eq_true] at hc
      split
      next => exact .inl rfl
      next j hj => exact .inr (.wfft idx j hc.1 hc.2 hj)
    next => exact .inl rfl
  | peak =>
    change execPeak s = .next t at h
    unfold execPeak at h
    split at h
    next hs =>
      split at h
      next => cases h; exact .inl rfl
      next v hv => cases h; exact .inr (.peak v hs hv)
    next => cases h; exact .inl rfl
  | hemit =>
    change execHemit s = .next t at h
    unfold execHemit at h
    split at h
    next hs =>
      split at h
      next => cases h; exact .inl rfl
      next p q hpq =>
        cases h
        obtain ⟨hp, hq, hz⟩ := pairInZone_spec hpq
        exact .inr (.hemit p q hs hp hq hz)
    next => cases h; exact .inl rfl
  | hadv =>
    change execHadv s = .next t at h
    unfold execHadv at h
    split at h
    next hc => cases h; exact .inr (.hadv (hadvReady_iff_Guard.mp hc))
    next => cases h; exact .inl rfl
  | retire =>
    change execRetire s = .next t at h
    unfold execRetire at h
    split at h
    next hc => cases h; exact .inr (.retire hc.2.2 hc.1 (hdone_iff_HDone.mp hc.2.1))
    next => cases h; exact .inl rfl
  | _ => cases hi

/-- An agent steps only when its guard holds. -/
theorem StageMove.guard {s t : State} {i : Instr} (h : StageMove s i t) : Guard i s := by
  cases h with
  | ingest v rest hs hf => exact ⟨stageOk_iff.mp hs, by rw [hf]; exact Nat.succ_pos _⟩
  | kdes hs hk => exact ⟨stageOk_iff.mp hs, hk⟩
  | wgen hs hw => exact ⟨stageOk_iff.mp hs, hw⟩
  | fird hr => exact firdReady_iff_Guard.mp hr
  | wfft idx j hs hw hj =>
    obtain ⟨-, hfits, hempty, hidx⟩ := chosenFrame_spec hj
    exact ⟨stageOk_iff.mp hs, hw, j, hidx, hfits, hempty⟩
  | peak v hs hv => exact ⟨stageOk_iff.mp hs, by rw [hv]; exact Option.some_ne_none v⟩
  | hemit p q hs hp hq hz => exact ⟨stageOk_iff.mp hs, p, q, hp, hq, hz⟩
  | hadv hg => exact hg
  | retire hs hp hd => exact ⟨stageOk_iff.mp hs, hp, hd⟩

/-- A beat of WFFT that names a ready frame names one to choose. -/
theorem chosenFrame_isSome {s : State} (hH : 1 ≤ s.H) {j : Nat} (hj : j * s.H + s.F ≤ s.m)
    (he : slot? s.spec j = none) : ∃ k, chosenFrame s (low32 j) = some k := by
  refine Option.isSome_iff_exists.mp (List.find?_isSome.mpr ⟨j, List.mem_range.mpr (lt_frameCount hH hj), ?_⟩)
  have hready : frameReady s j = true := by simp [frameReady, hj, he]
  rw [hready, Bool.true_and, beq_iff_eq]

/-- An agent whose guard holds has its step. -/
theorem exists_stageMove {s : State} {i : Instr} (hi : isStageTurn i = true) (hH : 1 ≤ s.H) (hg : Guard i s) :
    ∃ t, StageMove s i t := by
  cases i with
  | ingest =>
    obtain ⟨hs, hf⟩ := hg
    obtain ⟨v, rest, hf⟩ := List.exists_cons_of_length_pos hf
    exact ⟨_, .ingest v rest (stageOk_iff.mpr hs) hf⟩
  | kdes => exact ⟨_, .kdes (stageOk_iff.mpr hg.1) hg.2⟩
  | wgen => exact ⟨_, .wgen (stageOk_iff.mpr hg.1) hg.2⟩
  | fird => exact ⟨_, .fird (firdReady_iff_Guard.mpr hg)⟩
  | wfft idx =>
    obtain ⟨hs, hw, j, rfl, hj, he⟩ := hg
    obtain ⟨k, hk⟩ := chosenFrame_isSome hH hj he
    exact ⟨_, .wfft _ k (stageOk_iff.mpr hs) hw hk⟩
  | peak =>
    obtain ⟨hs, hv⟩ := hg
    obtain ⟨v, hv⟩ := Option.ne_none_iff_exists'.mp hv
    exact ⟨_, .peak v (stageOk_iff.mpr hs) hv⟩
  | hemit =>
    obtain ⟨hs, p, q, hp, hq, hz⟩ := hg
    exact ⟨_, .hemit p q (stageOk_iff.mpr hs) hp hq hz⟩
  | hadv => exact ⟨_, .hadv hg⟩
  | retire =>
    obtain ⟨hs, hp, hd⟩ := hg
    exact ⟨_, .retire (stageOk_iff.mpr hs) hp hd⟩
  | _ => cases hi

theorem low32_toNat (w : Word) : low32 w.toNat = w := (BitVec.ofNat_toNat 32 w).trans (BitVec.setWidth_eq w)

/-- A step emits the one beat of its operation (30_encoding.md R110). -/
theorem StageMove.beat {s t : State} {i : Instr} (h : StageMove s i t) :
    ∃ b, stepBeat i s t = some b ∧ t.trace = s.trace ++ [b] := by
  cases h with
  | kdes => exact ⟨_, rfl, congrArg (fun w => s.trace ++ [(⟨2#4, w⟩ : TraceBeat)]) (low32_toNat _)⟩
  | wgen => exact ⟨_, rfl, congrArg (fun w => s.trace ++ [(⟨3#4, w⟩ : TraceBeat)]) (low32_toNat _)⟩
  | wfft idx j hs hw hj =>
    obtain ⟨-, -, -, hidx⟩ := chosenFrame_spec hj
    exact ⟨_, rfl, by rw [transform_trace, hidx]⟩
  | ingest | fird | peak | hemit | hadv | retire => exact ⟨_, rfl, rfl⟩

theorem StageMove.ne {s t : State} {i : Instr} (h : StageMove s i t) : t ≠ s := by
  rintro rfl
  obtain ⟨b, -, htrace⟩ := h.beat
  simp at htrace

theorem StageMove.isStageTurn {s t : State} {i : Instr} (h : StageMove s i t) : isStageTurn i = true := by
  cases h <;> rfl

/-- What the end of a run adds to its steps: the one of RETIRE. -/
def retired (p : Phase) : Nat := if p = .done then 1 else 0

theorem progress_eq_sum (s : State) :
    progress s = s.n + s.kvalid.toNat + s.wvalid.toNat + s.m + s.spec.length + s.npf + s.hashCount + s.a +
      retired s.phase := rfl

/-- A step adds one to what the run has done (70_reset_and_hazards.md R364 (b)). -/
theorem StageMove.progress_eq {s t : State} {i : Instr} (h : StageMove s i t) : progress t = progress s + 1 := by
  rw [progress_eq_sum, progress_eq_sum]
  cases h with
  | ingest | fird | peak | hemit | hadv =>
    simp only [State.n, State.m, emit_xin, emit_kvalid, emit_wvalid, emit_ys, emit_spec, emit_npf, emit_hashCount,
      emit_a, emit_phase, List.length_append, List.length_cons, List.length_nil]
    omega
  | kdes hs hk =>
    simp only [State.n, State.m, emit_xin, emit_kvalid, emit_wvalid, emit_ys, emit_spec, emit_npf, emit_hashCount,
      emit_a, emit_phase, hk, Bool.toNat_true, Bool.toNat_false]
    omega
  | wgen hs hw =>
    simp only [State.n, State.m, emit_xin, emit_kvalid, emit_wvalid, emit_ys, emit_spec, emit_npf, emit_hashCount,
      emit_a, emit_phase, hw, Bool.toNat_true, Bool.toNat_false]
    omega
  | wfft idx j hs hw hj =>
    obtain ⟨-, -, hempty, -⟩ := chosenFrame_spec hj
    simp only [transform_n, transform_kvalid, transform_wvalid, transform_m, transform_spec, transform_npf,
      transform_hashCount, transform_a, transform_phase, length_fillSlot _ hempty]
    omega
  | retire hs hp hd =>
    rw [hp]
    rfl

/-- Settles O25: an agent whose guard holds has a step, whose beat shows; one whose guard does not hold has none. -/
theorem turnsActExactlyWhenGuarded : Obligations.TurnsActExactlyWhenGuarded := by
  unfold Obligations.TurnsActExactlyWhenGuarded
  intro i s hi hH
  refine ⟨fun hg hsame => ?_, fun hacts => ?_⟩
  · obtain ⟨t, ht⟩ := exists_stageMove hi hH hg
    exact ht.ne (Host.Outcome.next.inj (ht.exec_eq.symm.trans hsame))
  · obtain ⟨t, ht, -⟩ := exec_move i s
    rcases stageTurn_cases hi ht with rfl | hmove
    · exact absurd ht hacts
    · exact hmove.guard

/-- Every guard has `stage_ok`. -/
theorem stageOk_of_guard {s : State} {i : Instr} (hg : Guard i s) : StageOk s := by
  cases i with
  | ingest | kdes | wgen | fird | wfft | peak | hemit | hadv | retire => exact hg.1
  | _ => exact hg.elim

/-- An agent whose guard does not hold does nothing, whatever the hop. -/
theorem exec_of_not_guard {s : State} {i : Instr} (hi : isStageTurn i = true) (hg : ¬ Guard i s) : exec i s = .next s := by
  obtain ⟨t, ht, -⟩ := exec_move i s
  rcases stageTurn_cases hi ht with rfl | hmove
  · exact ht
  · exact absurd hmove.guard hg

/-- Settles O35: `stage_ok` is in every guard, and asks for room. -/
theorem fullOutputFifoStallsEveryStage : Obligations.FullOutputFifoStallsEveryStage := by
  unfold Obligations.FullOutputFifoStallsEveryStage
  intro s hfull
  have hno (i : Instr) : ¬ Guard i s := fun hg => absurd (stageOk_of_guard hg).2 (Nat.not_lt.mpr hfull)
  have hstays {i : Instr} (hi : isStageTurn i = true) : exec i s = .next s := exec_of_not_guard hi (hno i)
  exact ⟨fun i hi => ⟨hno i, hstays hi⟩, fun hp => ⟨fun ⟨i, hi, hacts⟩ => hacts (hstays hi), hp⟩⟩

/-- Settles O37. -/
theorem stageStepsMakeProgress : Obligations.StageStepsMakeProgress := by
  unfold Obligations.StageStepsMakeProgress
  exact fun i s t hi h => (stageTurn_cases hi h).imp_right StageMove.progress_eq

end Sys2Proof.Machine
end

section
/-! PROOFS. What a host operation or the FAULT turn does, said once with the operation, and the rules of the whole machine that
follow from it and from the steps of the agents: who writes what, what keeps its order, what only grows, what shows on the
trace. -/

namespace Sys2Proof.Machine
open Sys2Proof.Safety

/-- The ten writes of the configuration registers (40_host_ops.md R137). -/
def configWrites (d : Word) : List Instr :=
  [.wrSrcRate d, .wrTargetRate d, .wrMinRate d, .wrFilterTaps d, .wrFrameSize d, .wrHopSize d, .wrNumBands d,
    .wrTargetZone d, .wrThreshLo d, .wrThreshHi d]

/-- What a host operation or the FAULT turn does in `s`: the operation, its condition, its effect. The two kinds of fault
entry name the operations that have them. -/
inductive HostMove (s : State) : Instr → State → Prop
  | answer (i : Instr) (r : Resp) : HostMove s i { s with resp := some r }
  | setIrqEn (d : Word) : HostMove s (.wrIrqEn d) (accept { s with irqEn := irqEnOf d })
  | setCoefSel (d : Word) : HostMove s (.wrCoefSel d) (accept { s with coefSel := coefSelOf d })
  | setConfig (i : Instr) (d : Word) (t : State) (hi : i ∈ configWrites d) (hp : s.phase = .idle)
      (ht : SameButConfig s t) : HostMove s i (accept t)
  | start (hp : s.phase = .idle) : HostMove s .cmdStart (accept { clearRun s with phase := .run })
  | startFault (i : Instr) (hi : i = .cmdStart ∨ ∃ e, i = .fault e) (sub : FaultSub) (info : Word)
      (hp : s.phase = .idle) : HostMove s i (enterFault sub info (clearRun s))
  | runFault (i : Instr) (hi : i = .cmdFinish ∨ (∃ d, i = .wrSampleHi d) ∨ ∃ e, i = .fault e) (sub : FaultSub)
      (info : Word) (hp : s.phase = .run) : HostMove s i (enterFault sub info s)
  | noFault (e : Word) : HostMove s (.fault e) s
  | finish (hp : s.phase = .run) : HostMove s .cmdFinish (accept { s with fin := true, phase := .flush })
  | clear : HostMove s .cmdClear (accept (leaveRun s))
  | reset : HostMove s .cmdReset (accept (resetBlock s))
  | latch (d : Word) (hp : s.phase = .run) : HostMove s (.wrSampleLo d) (accept { s with slo := d })
  | push (d : Word) (hp : s.phase = .run) (hr : roomForSample s = true) :
      HostMove s (.wrSampleHi d) (accept { s with inFifo := s.inFifo ++ [join d s.slo] })
  | pop (w : Word) (rest : List Word) (hp : popPhase s.phase = true) (hq : s.hq = w :: rest) :
      HostMove s .rdHashData (respond w { s with hq := rest, popped := s.popped ++ [w] })

theorem configWrite_hostMove {s t : State} {i : Instr} {d : Word} (hi : i ∈ configWrites d) (ht : SameButConfig s t) :
    HostMove s i (configWrite s t) := by
  by_cases hp : s.phase = .idle
  · rw [configWrite_of_idle hp]
    exact .setConfig i d t hi hp ht
  · rw [configWrite_of_ne_idle hp]
    exact .answer i _

theorem cmdStart_hostMove {s t : State} (h : execCmdStart s = .next t) : HostMove s .cmdStart t := by
  by_cases hp : s.phase = .idle
  · by_cases hc : cfgOk s
    · cases (execCmdStart_of_legal hp hc).symm.trans h
      exact .start hp
    · obtain ⟨sub, info, hfault⟩ := execCmdStart_of_illegal hp hc
      cases hfault.symm.trans h
      exact .startFault _ (.inl rfl) sub info hp
  · cases (execCmdStart_of_ne_idle hp).symm.trans h
    exact .answer _ _

theorem cmdFinish_hostMove {s t : State} (h : execCmdFinish s = .next t) : HostMove s .cmdFinish t := by
  by_cases hp : s.phase = .run
  · obtain ha | ha := s.accepted.eq_zero_or_pos
    · cases (execCmdFinish_of_empty hp ha).symm.trans h
      exact .runFault _ (.inl rfl) _ _ hp
    · cases (execCmdFinish_of_accepted hp ha).symm.trans h
      exact .finish hp
  · cases (execCmdFinish_of_ne_run hp).symm.trans h
    exact .answer _ _

theorem wrSampleLo_hostMove {s t : State} {d : Word} (h : execWrSampleLo d s = .next t) :
    HostMove s (.wrSampleLo d) t := by
  by_cases hp : s.phase = .run
  · cases (execWrSampleLo_of_run hp d).symm.trans h
    exact .latch d hp
  · cases (execWrSampleLo_of_ne_run hp d).symm.trans h
    exact .answer _ _

theorem wrSampleHi_hostMove {s t : State} {d : Word} (h : execWrSampleHi d s = .next t) :
    HostMove s (.wrSampleHi d) t := by
  by_cases hready : s.phase = .run ∧ roomForSample s = true
  · obtain ⟨hp, hroom⟩ := hready
    cases hv : outOfRange (join d s.slo) with
    | false =>
      cases (execWrSampleHi_of_inRange hp hroom hv).symm.trans h
      exact .push d hp hroom
    | true =>
      cases (execWrSampleHi_of_outOfRange hp hroom hv).symm.trans h
      exact .runFault _ (.inr (.inl ⟨d, rfl⟩)) _ _ hp
  · cases (execWrSampleHi_of_not_ready hready d).symm.trans h
    exact .answer _ _

theorem rdHashData_hostMove {s t : State} (h : execRdHashData s = .next t) : HostMove s .rdHashData t := by
  by_cases hp : popPhase s.phase = true
  · cases hq : s.hq with
    | nil =>
      cases (execRdHashData_of_nil hq).symm.trans h
      exact .answer _ _
    | cons w rest =>
      cases (execRdHashData_of_cons hp hq).symm.trans h
      exact .pop w rest hp hq
  · cases (execRdHashData_of_not_popPhase hp).symm.trans h
    exact .answer _ _

theorem readCoef_hostMove (i : Instr) (half : F64 → Word) (s : State) : HostMove s i (readCoef half s) := by
  unfold readCoef
  split
  · exact .answer i _
  · split <;> exact .answer i _

theorem faultTurn_hostMove {s t : State} {e : Word} (h : execFault e s = .next t) : HostMove s (.fault e) t := by
  have ht : (faultNamed e s).getD (noStep s) = t := Host.Outcome.next.inj h
  unfold faultNamed at ht
  split at ht
  next hp =>
    split at ht
    next => cases ht; exact .runFault _ (.inr (.inr ⟨e, rfl⟩)) _ _ hp
    next =>
      split at ht
      next => cases ht; exact .runFault _ (.inr (.inr ⟨e, rfl⟩)) _ _ hp
      next => cases ht; exact .noFault e
  next =>
    split at ht
    next hp =>
      split at ht
      next sub info hc =>
        split at ht
        next => cases ht; exact .startFault _ (.inr ⟨e, rfl⟩) sub info hp
        next => cases ht; exact .noFault e
      next => cases ht; exact .noFault e
    next => cases ht; exact .noFault e

/-- Every operation that is no turn of a stage agent. Those not named in the proof are `NOP` and the reads allowed in every
phase, which only answer. -/
theorem hostMove_of_exec {s t : State} {i : Instr} (hi : isStageTurn i = false) (h : exec i s = .next t) :
    HostMove s i t := by
  cases i with
  | ingest | kdes | wgen | fird | wfft | peak | hemit | hadv | retire => cases hi
  | cmdStart => exact cmdStart_hostMove h
  | cmdFinish => exact cmdFinish_hostMove h
  | wrSampleLo d => exact wrSampleLo_hostMove h
  | wrSampleHi d => exact wrSampleHi_hostMove h
  | rdHashData => exact rdHashData_hostMove h
  | fault e => exact faultTurn_hostMove h
  | cmdClear => cases h; exact .clear
  | cmdReset => cases h; exact .reset
  | wrIrqEn d => cases h; exact .setIrqEn d
  | wrCoefSel d => cases h; exact .setCoefSel d
  | wrSrcRate d => cases h; exact configWrite_hostMove (d := d) (by simp [configWrites]) ⟨d, _, _, _, _, _, _, _, _, _, rfl⟩
  | wrTargetRate d => cases h; exact configWrite_hostMove (d := d) (by simp [configWrites]) ⟨_, d, _, _, _, _, _, _, _, _, rfl⟩
  | wrMinRate d => cases h; exact configWrite_hostMove (d := d) (by simp [configWrites]) ⟨_, _, d, _, _, _, _, _, _, _, rfl⟩
  | wrFilterTaps d => cases h; exact configWrite_hostMove (d := d) (by simp [configWrites]) ⟨_, _, _, d, _, _, _, _, _, _, rfl⟩
  | wrFrameSize d => cases h; exact configWrite_hostMove (d := d) (by simp [configWrites]) ⟨_, _, _, _, d, _, _, _, _, _, rfl⟩
  | wrHopSize d => cases h; exact configWrite_hostMove (d := d) (by simp [configWrites]) ⟨_, _, _, _, _, d, _, _, _, _, rfl⟩
  | wrNumBands d => cases h; exact configWrite_hostMove (d := d) (by simp [configWrites]) ⟨_, _, _, _, _, _, d, _, _, _, rfl⟩
  | wrTargetZone d => cases h; exact configWrite_hostMove (d := d) (by simp [configWrites]) ⟨_, _, _, _, _, _, _, d, _, _, rfl⟩
  | wrThreshLo d => cases h; exact configWrite_hostMove (d := d) (by simp [configWrites]) ⟨_, _, _, _, _, _, _, _, d, _, rfl⟩
  | wrThreshHi d => cases h; exact configWrite_hostMove (d := d) (by simp [configWrites]) ⟨_, _, _, _, _, _, _, _, _, d, rfl⟩
  | rdCoefLo => cases h; exact readCoef_hostMove _ lo32 s
  | rdCoefHi => cases h; exact readCoef_hostMove _ hi32 s
  | _ => cases h; exact .answer _ _

/-- What an operation can do: nothing or its step, when it is the turn of a stage agent, or what a host operation or the
FAULT turn does. -/
theorem exec_cases {s t : State} {i : Instr} (h : exec i s = .next t) :
    (isStageTurn i = true ∧ (t = s ∨ StageMove s i t)) ∨ (isStageTurn i = false ∧ HostMove s i t) := by
  cases hi : isStageTurn i with
  | true => exact .inl ⟨rfl, stageTurn_cases hi h⟩
  | false => exact .inr ⟨rfl, hostMove_of_exec hi h⟩

/-! ### The configuration and the error record -/

theorem StageMove.keepsConfig {s t : State} {i : Instr} (h : StageMove s i t) : configOf t = configOf s := by
  cases h <;> rfl

theorem StageMove.keepsErr {s t : State} {i : Instr} (h : StageMove s i t) : t.err = s.err ∧ t.errInfo = s.errInfo := by
  cases h <;> exact ⟨rfl, rfl⟩

theorem HostMove.config {s t : State} {i : Instr} (h : HostMove s i t) :
    configOf t = configOf s ∨ i = .cmdReset ∨ (s.phase = .idle ∧ ∃ d, i ∈ configWrites d) := by
  cases h with
  | setConfig i d u hi hp hu => exact .inr (.inr ⟨hp, d, hi⟩)
  | reset => exact .inr (.inl rfl)
  | _ => exact .inl rfl

theorem HostMove.err {s t : State} {i : Instr} (h : HostMove s i t) :
    (t.err = s.err ∧ t.errInfo = s.errInfo) ∨ (s.phase ≠ .fault ∧ t.phase = .fault ∧ t.err ∈ faultWords) ∨
    ((i = .cmdClear ∨ i = .cmdReset) ∧ t.err = 0#32 ∧ t.errInfo = 0#32) := by
  cases h with
  | setConfig i d u hi hp hu =>
    obtain ⟨_, _, _, _, _, _, _, _, _, _, rfl⟩ := hu
    exact .inl ⟨rfl, rfl⟩
  | startFault i hi sub info hp => exact .inr (.inl ⟨by rw [hp]; decide, rfl, errWordOf_mem sub⟩)
  | runFault i hi sub info hp => exact .inr (.inl ⟨by rw [hp]; decide, rfl, errWordOf_mem sub⟩)
  | clear => exact .inr (.inr ⟨.inl rfl, rfl, rfl⟩)
  | reset => exact .inr (.inr ⟨.inr rfl, rfl, rfl⟩)
  | _ => exact .inl ⟨rfl, rfl⟩

/-- Settles O39: no stage step writes either, and each host operation that does is its owner. -/
theorem configurationAndErrorRecordOwners : Obligations.ConfigurationAndErrorRecordOwners := by
  unfold Obligations.ConfigurationAndErrorRecordOwners
  refine ⟨fun i s t h => ?_, fun i s t h => ?_⟩ <;> rcases exec_cases h with ⟨-, rfl | hmove⟩ | ⟨-, hmove⟩
  · exact .inl rfl
  · exact .inl hmove.keepsConfig
  · exact hmove.config
  · exact .inl ⟨rfl, rfl⟩
  · exact .inl hmove.keepsErr
  · exact hmove.err

/-! ### The samples -/

/-- INGEST moves a sample from the queue to the signal, and no other step touches either. -/
theorem StageMove.keepsSamples {s t : State} {i : Instr} (h : StageMove s i t) :
    t.xin ++ t.inFifo = s.xin ++ s.inFifo := by
  cases h with
  | ingest v rest hs hf => simp [hf]
  | _ => rfl

theorem HostMove.samples {s t : State} {i : Instr} (h : HostMove s i t) :
    t.xin ++ t.inFifo = s.xin ++ s.inFifo ∨
    (∃ d, i = .wrSampleHi d ∧ t.xin ++ t.inFifo = s.xin ++ s.inFifo ++ [d ++ s.slo]) ∨
    ((i = .cmdStart ∨ i = .cmdClear ∨ i = .cmdReset ∨ ∃ e, i = .fault e) ∧ t.xin ++ t.inFifo = []) := by
  cases h with
  | setConfig i d u hi hp hu =>
    obtain ⟨_, _, _, _, _, _, _, _, _, _, rfl⟩ := hu
    exact .inl rfl
  | push d hp hr => exact .inr (.inl ⟨d, rfl, (List.append_assoc _ _ _).symm⟩)
  | start => exact .inr (.inr ⟨.inl rfl, rfl⟩)
  | startFault i hi => exact .inr (.inr ⟨hi.imp_right fun he => .inr (.inr he), rfl⟩)
  | clear => exact .inr (.inr ⟨.inr (.inl rfl), rfl⟩)
  | reset => exact .inr (.inr ⟨.inr (.inr (.inl rfl)), rfl⟩)
  | _ => exact .inl rfl

/-- Settles O42. -/
theorem samplesKeepTheirOrder : Obligations.SamplesKeepTheirOrder := by
  unfold Obligations.SamplesKeepTheirOrder
  intro i s t h
  rcases exec_cases h with ⟨-, rfl | hmove⟩ | ⟨-, hmove⟩
  · exact .inl rfl
  · exact .inl hmove.keepsSamples
  · exact hmove.samples

/-! ### The trace -/

theorem enterFault_beat (sub : FaultSub) (info : Word) (s : State) :
    (enterFault sub info s).trace = s.trace ++ [⟨10#4, (enterFault sub info s).err⟩] := by
  rw [enterFault_trace, low32_toNat, enterFault_err]

/-- A host operation shows no beat, or enters a fault and shows that. -/
theorem HostMove.beat {s t : State} {i : Instr} (h : HostMove s i t) :
    (t.trace = s.trace ∧ ¬ (s.phase ≠ .fault ∧ t.phase = .fault)) ∨
    (s.phase ≠ .fault ∧ t.phase = .fault ∧ t.trace = s.trace ++ [⟨10#4, t.err⟩]) := by
  cases h with
  | setConfig i d u hi hp hu =>
    obtain ⟨_, _, _, _, _, _, _, _, _, _, rfl⟩ := hu
    exact .inl ⟨rfl, fun hf => hf.1 hf.2⟩
  | startFault i hi sub info hp => exact .inr ⟨by rw [hp]; decide, rfl, enterFault_beat sub info (clearRun s)⟩
  | runFault i hi sub info hp => exact .inr ⟨by rw [hp]; decide, rfl, enterFault_beat sub info s⟩
  | start | finish | clear | reset => exact .inl ⟨rfl, fun hf => nomatch hf.2⟩
  | _ => exact .inl ⟨rfl, fun hf => hf.1 hf.2⟩

/-- Settles O44. -/
theorem traceShowsEveryStepOnce : Obligations.TraceShowsEveryStepOnce := by
  unfold Obligations.TraceShowsEveryStepOnce
  intro i s t h
  rcases exec_cases h with ⟨hi, rfl | hmove⟩ | ⟨hi, hmove⟩
  · exact .inl ⟨rfl, fun _ => rfl, fun hf => hf.1 hf.2⟩
  · exact .inr (.inr ⟨hi, hmove.guard, hmove.beat⟩)
  · rcases hmove.beat with ⟨htrace, hno⟩ | ⟨hp, hp', htrace⟩
    · exact .inl ⟨htrace, fun hturn => absurd (hi.symm.trans hturn) Bool.false_ne_true, hno⟩
    · exact .inr (.inl ⟨hi, hp, hp', htrace⟩)

end Sys2Proof.Machine
end

section
/-! PROOFS. What only grows within a run (20_memory.md R80, 10_state.md R61). First the relation and the two kinds of operation
that keep it, then the derived predicates, then the statement. -/

namespace Sys2Proof.Machine
open Sys2Proof.Safety

/-- From `s` to `t` the run has lost nothing: the sequences are extended, the filled slots and the valid banks are kept, the
counters and the anchor have not fallen. -/
structure Grows (s t : State) : Prop where
  xin : s.xin <+: t.xin
  ys : s.ys <+: t.ys
  pk : s.pk <+: t.pk
  popped : s.popped <+: t.popped
  slots : ∀ j v, slot? s.spec j = some v → slot? t.spec j = some v
  accepted : s.accepted ≤ t.accepted
  filled : s.spec.length ≤ t.spec.length
  npf : s.npf ≤ t.npf
  hashCount : s.hashCount ≤ t.hashCount
  anchor : s.a ≤ t.a
  kernel : s.kvalid = true → t.kvalid = true ∧ t.kern = s.kern ∧ t.ksumZero = s.ksumZero
  window : s.wvalid = true → t.wvalid = true ∧ t.win = s.win
  fin : s.fin = true → t.fin = true

theorem Grows.refl (s : State) : Grows s s where
  xin := List.prefix_rfl
  ys := List.prefix_rfl
  pk := List.prefix_rfl
  popped := List.prefix_rfl
  slots := fun _ _ h => h
  accepted := le_rfl
  filled := le_rfl
  npf := le_rfl
  hashCount := le_rfl
  anchor := le_rfl
  kernel := fun h => ⟨h, rfl, rfl⟩
  window := fun h => ⟨h, rfl⟩
  fin := id

/-- Each step of an agent extends what it computes and leaves the rest. -/
theorem StageMove.grows {s t : State} {i : Instr} (h : StageMove s i t) : Grows s t := by
  cases h with
  | ingest v rest hs hf =>
    exact
      { Grows.refl s with
        xin := List.prefix_append _ _
        accepted := by simp [State.accepted, State.n, hf]; omega }
  | kdes hs hk =>
    exact { Grows.refl s with kernel := fun h => absurd (hk.symm.trans h) Bool.false_ne_true }
  | wgen hs hw =>
    exact { Grows.refl s with window := fun h => absurd (hw.symm.trans h) Bool.false_ne_true }
  | fird hr => exact { Grows.refl s with ys := List.prefix_append _ _ }
  | wfft idx j hs hw hj =>
    obtain ⟨-, -, hempty, -⟩ := chosenFrame_spec hj
    exact
      { Grows.refl s with
        slots := fun k v hk => by
          have hne : k ≠ j := by rintro rfl; rw [hempty] at hk; cases hk
          exact (slot?_fillSlot_of_ne hne _ _).trans hk
        filled := (Nat.le_succ _).trans_eq (length_fillSlot _ hempty).symm }
  | peak v hs hv => exact { Grows.refl s with pk := List.prefix_append _ _, npf := Nat.le_succ _ }
  | hemit => exact { Grows.refl s with hashCount := Nat.le_succ _ }
  | hadv => exact { Grows.refl s with anchor := Nat.le_succ _ }
  | retire => exact { Grows.refl s with }

/-- The operations that undo a run: `START`, `CLEAR`, `RESET` and the FAULT turn. -/
def undoesRun : Instr → Bool
  | .cmdStart | .cmdClear | .cmdReset | .fault _ => true
  | _ => false

/-- Every other host operation loses nothing of a run. -/
theorem HostMove.grows {s t : State} {i : Instr} (hi : undoesRun i = false) (h : HostMove s i t) : Grows s t := by
  cases h with
  | start | clear | reset => cases hi
  | startFault i hop =>
    rcases hop with rfl | ⟨e, rfl⟩ <;> cases hi
  | setConfig i d u _ hp hu =>
    obtain ⟨_, _, _, _, _, _, _, _, _, _, rfl⟩ := hu
    exact { Grows.refl s with }
  | finish => exact { Grows.refl s with fin := fun _ => rfl }
  | push d hp hr => exact { Grows.refl s with accepted := by simp [State.accepted, State.n] }
  | pop w rest hp hq => exact { Grows.refl s with popped := List.prefix_append _ _ }
  | _ => exact { Grows.refl s with }

/-- What is done in `s` is done in `t`. -/
structure DoneKept (s t : State) : Prop where
  x : XDone s → XDone t
  y : YDone s → YDone t
  slots : SDone s → SDone t
  peaks : PDone s → PDone t
  hashes : HDone s → HDone t

/-- Before the input has ended nothing is done. -/
theorem doneKept_of_not_xdone {s : State} (h : ¬ XDone s) (t : State) : DoneKept s t where
  x := fun hx => absurd hx h
  y := fun hy => absurd hy.1 h
  slots := fun hs => absurd hs.1.1 h
  peaks := fun hp => absurd hp.1.1.1 h
  hashes := fun hh => absurd hh.1.1.1.1 h

theorem DoneKept.refl (s : State) : DoneKept s s := ⟨id, id, id, id, id⟩

/-- A step changes a predicate's operands only where it was false. -/
theorem StageMove.doneKept {s t : State} {i : Instr} (harch : ArchInv s) (hstream : StreamInv s)
    (h : StageMove s i t) : DoneKept s t := by
  have hH (hs : stageOk s = true) : 1 ≤ s.H := by
    obtain ⟨-, -, -, -, -, -, -, -, hH, -⟩ := harch.configLegal ((phase_of_stageOk hs).imp_right .inl)
    exact hH
  cases h with
  | ingest v rest hs hf => exact doneKept_of_not_xdone (fun hx => by simp [hx.2] at hf) _
  | fird hr =>
    have hno : ¬ YDone s := fun hy => hy.2 (lenOk_iff_LenOk.mp (firdReady_iff.mp hr).2.2.1)
    exact ⟨id, fun hy => absurd hy hno, fun hs => absurd hs.1 hno, fun hp => absurd hp.1.1 hno,
      fun hh => absurd hh.1.1.1 hno⟩
  | wfft idx j hs hw hj =>
    obtain ⟨hlt, -, hempty, -⟩ := chosenFrame_spec hj
    have hno : ¬ SDone s := fun hd => hd.2 j hlt hempty
    exact ⟨id, id, fun hs => absurd hs hno, fun hp => absurd hp.1 hno, fun hh => absurd hh.1.1 hno⟩
  | peak v hs hv =>
    have hlt : s.npf < framesOf s := lt_frameCount (hH hs) (hstream.slots _ _ hv).2.1
    have hno : ¬ PDone s := fun hp => hlt.ne hp.2
    exact ⟨id, id, id, fun hp => absurd hp hno, fun hh => absurd hh.1 hno⟩
  | hadv hg =>
    obtain ⟨-, p, hp, -⟩ := hg
    have hno : ¬ HDone s := fun hh => (List.getElem?_eq_some_iff.mp hp).1.ne hh.2
    exact ⟨id, id, id, id, fun hh => absurd hh hno⟩
  | kdes | wgen | hemit | retire => exact { DoneKept.refl s with }

/-- Only a pushed sample and the end of input touch the operands, in `RUN`, where nothing is done yet. -/
theorem HostMove.doneKept {s t : State} {i : Instr} (harch : ArchInv s) (hi : undoesRun i = false)
    (h : HostMove s i t) : DoneKept s t := by
  have hrun (hp : s.phase = .run) : ¬ XDone s := fun hx => absurd (harch.fin_of_run hp ▸ hx.1) Bool.false_ne_true
  cases h with
  | start | clear | reset => cases hi
  | startFault i hop =>
    rcases hop with rfl | ⟨e, rfl⟩ <;> cases hi
  | setConfig i d u _ hp hu =>
    obtain ⟨-, -, hfin, -⟩ := clearRun_eq_iff.mp (harch.idleClear hp)
    exact doneKept_of_not_xdone (fun hx => Bool.false_ne_true (hfin.symm.trans hx.1)) _
  | finish hp => exact doneKept_of_not_xdone (hrun hp) _
  | push d hp => exact doneKept_of_not_xdone (hrun hp) _
  | _ => exact { DoneKept.refl s with }

/-- Settles O43: lengths follow from the prefixes, and `ksum_zero` from the valid kernel it belongs to. -/
theorem runStateIsMonotone : Obligations.RunStateIsMonotone := by
  unfold Obligations.RunStateIsMonotone
  intro i s t hi hstart hclear hreset h
  have hundo : undoesRun i = false := by
    cases i with
    | cmdStart => exact absurd rfl hstart
    | cmdClear => exact absurd rfl hclear
    | cmdReset => exact absurd rfl hreset
    | fault => rcases hi with hi | hi <;> cases hi
    | _ => rfl
  have hgrows : Grows s t := by
    rcases exec_cases h with ⟨-, rfl | hmove⟩ | ⟨-, hmove⟩
    · exact Grows.refl t
    · exact hmove.grows
    · exact hmove.grows hundo
  refine ⟨⟨hgrows.xin, hgrows.ys, hgrows.pk, hgrows.popped, hgrows.slots⟩,
    ⟨hgrows.accepted, hgrows.ys.length_le, hgrows.filled, hgrows.npf, hgrows.pk.length_le, hgrows.hashCount,
      hgrows.anchor⟩, hgrows.kernel, hgrows.window, hgrows.fin,
    fun harch hz => (hgrows.kernel (harch.ksumFlag hz)).2.2.trans hz, fun harch hstream => ?_⟩
  have hdone : DoneKept s t := by
    rcases exec_cases h with ⟨-, rfl | hmove⟩ | ⟨-, hmove⟩
    · exact DoneKept.refl t
    · exact hmove.doneKept harch hstream
    · exact hmove.doneKept harch hundo
  exact ⟨hdone.x, hdone.y, hdone.slots, hdone.peaks, hdone.hashes⟩

end Sys2Proof.Machine
end

section
/-! PROOFS. The FAULT turn (60_exceptions.md R312, R318, log entry 6): the fault it names in `RUN`, in `IDLE` and in the other
phases, then the statement. -/

namespace Sys2Proof.Machine
open Sys2Proof.Safety

theorem execFault_of_some {e : Word} {s t : State} (h : faultNamed e s = some t) : execFault e s = .next t := by
  rw [execFault, h]
  rfl

theorem execFault_of_none {e : Word} {s : State} (h : faultNamed e s = none) : execFault e s = .next s := by
  rw [execFault, h]
  rfl

theorem faultNamed_of_run {s : State} (hp : s.phase = .run) (e : Word) :
    faultNamed e s =
      if e = errWordOf .emptyInput ∧ s.accepted = 0 then some (enterFault .emptyInput 0#32 s)
      else if e = errWordOf .sampleRange ∧ roomForSample s = true then
        some (enterFault .sampleRange (low32 s.accepted) s)
      else none := if_pos hp

/-- In `IDLE` the turn can name the first failing check of `START`, and nothing else. -/
theorem faultNamed_of_failing {s : State} {sub : FaultSub} {info : Word} (hp : s.phase = .idle)
    (hc : startCheck s = some (sub, info)) (e : Word) :
    faultNamed e s = if e = errWordOf sub then some (enterFault sub info (clearRun s)) else none := by
  rw [faultNamed, if_neg (by rw [hp]; decide), if_pos hp, hc]

theorem faultNamed_of_legal {s : State} (hp : s.phase = .idle) (hc : startCheck s = none) (e : Word) :
    faultNamed e s = none := by
  rw [faultNamed, if_neg (by rw [hp]; decide), if_pos hp, hc]

theorem faultNamed_of_other {s : State} (hrun : s.phase ≠ .run) (hidle : s.phase ≠ .idle) (e : Word) :
    faultNamed e s = none := by
  rw [faultNamed, if_neg hrun, if_neg hidle]

/-- Settles O34: the turn's own conditions are the ones listed, in each phase. -/
theorem faultTurnEntersThePossibleFaults : Obligations.FaultTurnEntersThePossibleFaults := by
  unfold Obligations.FaultTurnEntersThePossibleFaults
  refine ⟨fun s hp ha => ?_, fun s hp hfifo hrun => ?_, fun s e info hp hfail => ?_, fun s e hp hempty hrange => ?_,
    fun s e hp hother => ?_, fun s e hp => ?_⟩
  · refine (execFault_of_some ?_).trans (congrArg _ (enterFault_eq_faulted .emptyInput 0#32 s))
    rw [faultNamed_of_run hp, if_pos ⟨by decide, ha⟩]
  · refine (execFault_of_some ?_).trans (congrArg _ (enterFault_eq_faulted .sampleRange _ s))
    rw [faultNamed_of_run hp, if_neg (fun hc => absurd hc.1 (by decide)),
      if_pos ⟨by decide, roomForSample_iff.mpr ⟨hfifo, hrun⟩⟩]
    rfl
  · rw [find?_startChecks] at hfail
    obtain ⟨⟨sub, word⟩, hc, hreport⟩ := Option.map_eq_some_iff.mp hfail
    cases hreport
    refine (execFault_of_some ?_).trans (congrArg _ (enterFault_eq_faulted _ _ _))
    rw [faultNamed_of_failing hp hc, if_pos rfl]
  · refine execFault_of_none ?_
    have hempty : ¬ (e = errWordOf .emptyInput ∧ s.accepted = 0) := hempty
    rw [faultNamed_of_run hp, if_neg hempty,
      if_neg (fun hc => hrange ⟨hc.1, (roomForSample_iff.mp hc.2).1, (roomForSample_iff.mp hc.2).2⟩)]
  · refine execFault_of_none ?_
    cases hc : startCheck s with
    | none => exact faultNamed_of_legal hp hc e
    | some c =>
      obtain ⟨sub, info⟩ := c
      have hne : errWordOf sub ≠ e := hother (failedCheck (sub, info)) (by rw [find?_startChecks, hc]; rfl)
      rw [faultNamed_of_failing hp hc, if_neg (Ne.symm hne)]
  · refine execFault_of_none (faultNamed_of_other ?_ ?_ e) <;> rcases hp with hp | hp | hp <;> rw [hp] <;> decide

end Sys2Proof.Machine
end

section
/-! PROOFS. The window and the transform (41_kernel_design.md R180, 44_fft_magnitude.md R231). First the turn of WGEN, then
the two ways to name a frame to WFFT, each with its statement. -/

namespace Sys2Proof.Machine
open Sys2Proof.Safety

theorem getElem?_makeWindow (N : Numerics) {F k : Nat} (hk : k < F) : (makeWindow N F)[k]? = some (hamming N k F) := by
  rw [makeWindow, List.getElem?_map, List.getElem?_range hk, Option.map_some]

/-- Settles O28. -/
theorem windowGenerationStep : Obligations.WindowGenerationStep := by
  unfold Obligations.WindowGenerationStep
  intro s hs hw
  exact ⟨_, (StageMove.wgen (stageOk_iff.mpr hs) hw).exec_eq, length_makeWindow _ _, fun k hk => getElem?_makeWindow _ hk⟩

/-- A frame of the statements is ready as the model checks it. -/
theorem frameReady_iff {s : State} {j : Nat} : frameReady s j = true ↔ j * s.H + s.F ≤ s.m ∧ slot? s.spec j = none := by
  simp [frameReady]

/-- Below `2^32` the low word of an index names it: a lower frame has another one. -/
theorem chosenFrame_of_lt {s : State} (hH : 1 ≤ s.H) {j : Nat} (hj : j < 2 ^ 32) (hready : frameReady s j = true) :
    chosenFrame s (low32 j) = some j := by
  refine List.find?_range_eq_some.mpr ⟨by simp [hready], List.mem_range.mpr ?_, fun k hk => ?_⟩
  · exact lt_frameCount hH (frameReady_iff.mp hready).1
  · have hne : low32 k ≠ low32 j := fun h => by
      have := congrArg BitVec.toNat h
      simp only [low32, BitVec.toNat_ofNat] at this
      omega
    simp [hne]

theorem frameTurn_of_ready {s : State} {j : Nat} (hs : stageOk s = true) (hw : s.wvalid = true)
    (hready : frameReady s j = true) : frameTurn j s = transform (numericsOf s.impl.numerics) j s := by
  rw [frameTurn, hs, hw, hready]
  rfl

theorem frameTurn_of_not_ready {s : State} {j : Nat}
    (h : ¬ (stageOk s = true ∧ s.wvalid = true ∧ frameReady s j = true)) : frameTurn j s = s :=
  if_neg (by simpa [and_assoc] using h)

theorem step_of_frame {s : State} {j : Nat} {rest : List Event} (hs : s.script = .frame j :: rest) :
    step s = .next (frameTurn j { s with script := rest }) := by
  simp only [step, nextEvent, hs]

/-- Settles O30. -/
theorem transformStep : Obligations.TransformStep := by
  unfold Obligations.TransformStep
  refine ⟨fun s j hs hw hH hj he => ?_, fun s j rest hscript hno => ?_⟩
  · have hok : stageOk s = true := stageOk_iff.mpr hs
    have hready : frameReady s j = true := frameReady_iff.mpr ⟨hj, he⟩
    refine ⟨frameMagnitudes (numericsOf s.impl.numerics) s j,
      fillSlot s.spec j (frameMagnitudes (numericsOf s.impl.numerics) s j),
      transform (numericsOf s.impl.numerics) j s, rfl, rfl, slot?_fillSlot_self _ _ _,
      fun k hk => slot?_fillSlot_of_ne hk _ _, fun hlt => ?_, fun rest => ?_⟩
    · exact (StageMove.wfft _ j hok hw (chosenFrame_of_lt hH hlt hready)).exec_eq
    · refine (step_of_frame rfl).trans (congrArg _ ?_)
      exact frameTurn_of_ready (s := { s with script := rest }) hok hw hready
  · refine (step_of_frame hscript).trans (congrArg _ (frameTurn_of_not_ready fun ⟨hok, hw, hready⟩ => hno ?_))
    exact ⟨stageOk_iff.mp hok, hw, frameReady_iff.mp hready⟩

end Sys2Proof.Machine
end

section
/-! PROOFS. No deadlock after the end of input (70_reset_and_hazards.md R364 (c)), by the stages in the order of the
pipeline: the first that has work left has its guard. -/

namespace Sys2Proof.Machine
open Sys2Proof.Safety

/-- In `FLUSH` with room in the output FIFO the guard of some stage agent holds. -/
theorem exists_guard_of_flush {s : State} (harch : ArchInv s) (hstream : StreamInv s) (hp : s.phase = .flush)
    (hroom : s.hq.length < s.impl.outDepth) : ∃ i, isStageTurn i = true ∧ Guard i s := by
  have hok : StageOk s := ⟨.inr hp, hroom⟩
  obtain ⟨-, -, -, -, -, -, -, -, hH, -⟩ := harch.configLegal (.inr (.inl hp))
  cases hf : s.inFifo with
  | cons v rest => exact ⟨.ingest, rfl, hok, by rw [hf]; exact Nat.succ_pos _⟩
  | nil =>
  have hx : XDone s := ⟨harch.finPhase.mpr (.inl hp), hf⟩
  cases hk : s.kvalid with
  | false => exact ⟨.kdes, rfl, hok, hk⟩
  | true =>
  cases hw : s.wvalid with
  | false => exact ⟨.wgen, rfl, hok, hw⟩
  | true =>
  by_cases hl : LenOk s s.ys.length
  · exact ⟨.fird, rfl, hok, hk, hl, .inr hx⟩
  by_cases hslots : ∀ j, j < framesOf s → slot? s.spec j ≠ none
  swap
  · obtain ⟨j, hj, he⟩ : ∃ j, j < framesOf s ∧ slot? s.spec j = none := by simpa using hslots
    exact ⟨.wfft (low32 j), rfl, hok, hw, j, rfl, frame_le_of_lt_frameCount hH hj, he⟩
  have hsdone : SDone s := ⟨⟨hx, hl⟩, hslots⟩
  by_cases hn : slot? s.spec s.npf = none
  swap
  · exact ⟨.peak, rfl, hok, hn⟩
  have hpdone : PDone s := by
    refine ⟨hsdone, le_antisymm (Nat.le_of_not_lt fun hlt => ?_) (Nat.le_of_not_lt fun hlt => hslots _ hlt hn)⟩
    obtain ⟨v, hv⟩ := Option.isSome_iff_exists.mp (hstream.searched _ hlt)
    exact lt_irrefl (framesOf s) (lt_frameCount hH (hstream.slots _ v hv).2.1)
  rcases hstream.anchorBound.lt_or_eq with ha | ha
  swap
  · exact ⟨.retire, rfl, hok, hp, hpdone, ha⟩
  have hanchor : s.pk[s.a]? = some s.pk[s.a] := List.getElem?_eq_getElem ha
  rcases (hstream.targetBound ha).2.lt_or_eq with ht | ht
  swap
  · exact ⟨.hadv, rfl, hok, _, hanchor, .inr ⟨ht, .inl hpdone⟩⟩
  have htarget : s.pk[s.t]? = some s.pk[s.t] := List.getElem?_eq_getElem ht
  rcases Nat.lt_or_ge s.Z (frameDelta s.pk[s.a] s.pk[s.t]) with hz | hz
  · exact ⟨.hadv, rfl, hok, _, hanchor, .inl ⟨_, htarget, hz⟩⟩
  · exact ⟨.hemit, rfl, hok, _, _, hanchor, htarget, hz⟩

/-- Settles O36. -/
theorem flushNeverDeadlocks : Obligations.FlushNeverDeadlocks := by
  unfold Obligations.FlushNeverDeadlocks
  intro s harch hstream hp hroom
  obtain ⟨-, -, -, -, -, -, -, -, hH, -⟩ := harch.configLegal (.inr (.inl hp))
  obtain ⟨i, hi, hg⟩ := exists_guard_of_flush harch hstream hp hroom
  exact ⟨i, hi, (turnsActExactlyWhenGuarded i s hi hH).mp hg⟩

end Sys2Proof.Machine
end

section
/-! PROOFS. The result of a finished run (42_fir_decimate.md R196, 45_peak_detect.md R254, 46_hash_encode.md R270, R275,
20_memory.md R81). First the hashes of complete cursors, then what a finished run holds stage by stage, then that the batch
pipeline reads nothing but the configuration, then the statements. -/

namespace Sys2Proof.Machine
open Sys2Proof.Safety

/-- The hashes of all released anchors are the canonical sequence, by induction on the peak list. -/
theorem flatMap_releasedHashes (Z : Nat) (pk : List Peak) :
    (List.range pk.length).flatMap (releasedHashes Z pk) = canonicalHashes Z pk := by
  induction pk with
  | nil => rfl
  | cons p rest ih =>
    rw [List.length_cons, List.range_succ_eq_map, List.flatMap_cons, List.flatMap_map, canonicalHashes, ← ih]
    rfl

/-- When every anchor is released the hashes of the cursors' positions are the canonical sequence. -/
theorem hashesBelow_of_released (Z : Nat) (pk : List Peak) :
    hashesBelow Z pk pk.length (pk.length + 1) = canonicalHashes Z pk := by
  rw [hashesBelow_eq, flatMap_releasedHashes, takenHashes_fresh, List.append_nil]

section Finished
variable {s : State} (harch : ArchInv s) (hstream : StreamInv s) (hp : s.phase = .done)
include harch hp

theorem hdone_of_done : HDone s := hdone_iff_HDone.mp (harch.doneComplete hp)

theorem cfgOk_of_done : cfgOk s := harch.configLegal (.inr (.inr hp))

include hstream

/-- Every output there is has been computed. -/
theorem length_ys_of_done : s.m = newLength s.Fs s.Ft s.n := by
  obtain ⟨-, -, -, hFs, -⟩ := cfgOk_of_done harch hp
  obtain ⟨⟨⟨⟨-, hnone⟩, -⟩, -⟩, -⟩ := hdone_of_done harch hp
  refine le_antisymm (Nat.le_of_not_lt fun hlt => ?_) (Nat.le_of_not_lt fun hlt => hnone ?_)
  · obtain ⟨-, hl, -⟩ := hstream.outputs _ hlt
    exact lt_irrefl (newLength s.Fs s.Ft s.n) ((lt_newLength_iff hFs _ _ _).mpr (lenOk_iff_LenOk.mp hl))
  · exact (lt_newLength_iff hFs _ _ _).mp hlt

/-- The decimated signal is that of the whole input (R196). -/
theorem ys_of_done : s.ys = batchDecimated (numericsOf s.impl.numerics) s s.xin := by
  have hlen : s.m = newLength s.Fs s.Ft s.xin.length := length_ys_of_done harch hstream hp
  refine List.ext_getElem? fun i => ?_
  rw [batchDecimated, List.getElem?_map, ← hlen]
  rcases Nat.lt_or_ge i s.m with hi | hi
  · obtain ⟨hk, -, -, hy⟩ := hstream.outputs i hi
    have hkern : s.kern = (designKernel (numericsOf s.impl.numerics) s.Fs s.Ft s.NT).1 :=
      congrArg Prod.fst (hstream.kernel hk)
    rw [hy, List.getElem?_range hi, Option.map_some, hkern]
  · rw [List.getElem?_eq_none hi, List.getElem?_eq_none (by rw [List.length_range]; exact hi), Option.map_none]

/-- The slots are those of the frames that exist, each with its magnitudes (44_fft_magnitude.md R233). -/
theorem slot?_of_done (j : Nat) :
    slot? s.spec j =
      if j < framesOf s then some (batchMagnitudes (numericsOf s.impl.numerics) s s.ys j) else none := by
  obtain ⟨-, -, -, -, -, -, -, -, hH, -⟩ := cfgOk_of_done harch hp
  obtain ⟨⟨⟨-, hfilled⟩, -⟩, -⟩ := hdone_of_done harch hp
  cases hv : slot? s.spec j with
  | none => rw [if_neg fun hlt => hfilled j hlt hv]
  | some v =>
    obtain ⟨hw, hj, rfl⟩ := hstream.slots j v hv
    have hlt : j < framesOf s := lt_frameCount hH hj
    rw [if_pos hlt, frameMagnitudes, hstream.window hw]
    rfl

/-- The peaks are those of every frame (45_peak_detect.md R254). -/
theorem pk_of_done : s.pk = batchPeaks (numericsOf s.impl.numerics) s s.ys := by
  obtain ⟨⟨-, hn⟩, -⟩ := hdone_of_done harch hp
  rw [hstream.peaks, hn]
  refine List.flatMap_congr fun j hj => ?_
  rw [slot?_of_done harch hstream hp, if_pos (List.mem_range.mp hj), Option.getD_some]

/-- The hashes are the canonical sequence of the peaks (46_hash_encode.md R275). -/
theorem produced_of_done : produced s = canonicalHashes s.Z s.pk := by
  have ha : s.a = s.P := (hdone_of_done harch hp).2
  rw [hstream.hashes (by rw [hp]; decide), hstream.targetFresh ha, ha]
  exact hashesBelow_of_released s.Z s.pk

end Finished

/-- Settles O49, stage by stage. -/
theorem finishedRunIsTheBatchFingerprint : Obligations.FinishedRunIsTheBatchFingerprint := by
  unfold Obligations.FinishedRunIsTheBatchFingerprint
  intro s harch hstream hp
  rw [produced_of_done harch hstream hp, pk_of_done harch hstream hp, ys_of_done harch hstream hp]
  rfl

section SameConfiguration
variable {s s' : State} (h : configOf s = configOf s') (N : Numerics)
include h

/-- The batch pipeline reads nothing of a state but its configuration. -/
theorem batchDecimated_congr (x : List F64) : batchDecimated N s x = batchDecimated N s' x := by
  simp only [configOf, List.cons.injEq] at h
  obtain ⟨hsr, htr, -, hft, -⟩ := h
  simp only [batchDecimated, State.Fs, State.Ft, State.NT, hsr, htr, hft]

theorem framesOf_congr (hys : s.ys = s'.ys) : framesOf s = framesOf s' := by
  simp only [configOf, List.cons.injEq] at h
  obtain ⟨-, -, -, -, hfs, hhs, -⟩ := h
  simp only [framesOf, hys, hfs, hhs]

theorem batchMagnitudes_congr (ys : List F64) (j : Nat) : batchMagnitudes N s ys j = batchMagnitudes N s' ys j := by
  simp only [configOf, List.cons.injEq] at h
  obtain ⟨-, -, -, -, hfs, hhs, -⟩ := h
  simp only [batchMagnitudes, State.F, State.H, hfs, hhs]

theorem batchPeaks_congr (ys : List F64) : batchPeaks N s ys = batchPeaks N s' ys := by
  have hmag := batchMagnitudes_congr h N ys
  simp only [configOf, List.cons.injEq] at h
  obtain ⟨-, -, -, -, hfs, hhs, hnb, -, htl, hth, -⟩ := h
  simp only [batchPeaks, hmag, State.B, State.NB, State.MULT, State.F, State.H, hfs, hhs, hnb, htl, hth]

theorem Z_congr : s.Z = s'.Z := by
  simp only [configOf, List.cons.injEq] at h
  obtain ⟨-, -, -, -, -, -, -, htz, -⟩ := h
  rw [State.Z, State.Z, htz]

end SameConfiguration

/-- Settles O50: each result is that of the batch pipeline, which both runs share. -/
theorem scheduleDoesNotShowInTheResult : Obligations.ScheduleDoesNotShowInTheResult := by
  unfold Obligations.ScheduleDoesNotShowInTheResult
  intro s s' harch hstream harch' hstream' hp hp' hcfg hnum hx
  have hys : s.ys = s'.ys := by
    rw [ys_of_done harch hstream hp, ys_of_done harch' hstream' hp', hnum, hx]
    exact batchDecimated_congr hcfg _ _
  have hpk : s.pk = s'.pk := by
    rw [pk_of_done harch hstream hp, pk_of_done harch' hstream' hp', hnum, hys]
    exact batchPeaks_congr hcfg _ _
  refine ⟨?_, hpk, fun j => ?_⟩
  · rw [produced_of_done harch hstream hp, produced_of_done harch' hstream' hp', hpk, Z_congr hcfg]
  · rw [slot?_of_done harch hstream hp, slot?_of_done harch' hstream' hp', hnum, hys, framesOf_congr hcfg hys,
      batchMagnitudes_congr hcfg]

end Sys2Proof.Machine
end

section
/-! PROOFS. The peaks of one frame (45_peak_detect.md R250, R254, R255): the strongest bins of ascending bands ascend. -/

namespace Sys2Proof.Machine
open Sys2Proof.Safety

/-- The strongest bin of a band is in the band. -/
theorem strongestPeak_mem_band {B NB b : Nat} (hNB : 1 ≤ NB) (hB : NB ≤ B) (hb : b < NB) (j : Nat) (v : List F64) :
    bandLo B NB b ≤ (strongestPeak B NB j v b).bin ∧ (strongestPeak B NB j v b).bin < bandHi B NB b :=
  bestBin_mem v (bandLo_lt_bandHi hNB hB hb)

/-- A band ends before a later one begins. -/
theorem bandHi_le_bandLo {NB b c : Nat} (hbc : b < c) (hc : c < NB) (B : Nat) : bandHi B NB b ≤ bandLo B NB c := by
  rw [bandHi_of_inner (Nat.lt_of_le_of_lt hbc hc)]
  exact Nat.mul_le_mul_right _ hbc

/-- Settles O57: the bands partition the bins, in order. -/
theorem peaksOfAFrame : Obligations.PeaksOfAFrame := by
  unfold Obligations.PeaksOfAFrame
  intro B NB mult j v hNB hB
  have hw := bandWidth_pos hNB hB
  rw [framePeaks_eq_map_filter]
  refine ⟨?_, ?_, fun p hp => ?_⟩
  · rw [List.length_map]
    exact (List.length_filter_le _ _).trans_eq List.length_range
  · refine List.pairwise_map.mpr ((List.pairwise_lt_range.filter _).imp_of_mem fun {b c} hb hc hbc => ?_)
    have hb : b < NB := List.mem_range.mp (List.mem_filter.mp hb).1
    have hc : c < NB := List.mem_range.mp (List.mem_filter.mp hc).1
    have hpb := strongestPeak_mem_band hNB hB hb j v
    have hpc := strongestPeak_mem_band hNB hB hc j v
    refine ⟨hpb.2.trans_le ((bandHi_le_bandLo hbc hc B).trans hpc.1), fun d hd ⟨hdb, hdc⟩ => hbc.ne ?_⟩
    have hin {k : Nat} (hk : k < bandHi B NB d) : k < B := hk.trans_le (bandHi_le hd)
    calc b = min ((strongestPeak B NB j v b).bin / bandWidth B NB) (NB - 1) := (mem_band_iff hw hb (hin hdb.2)).mp hpb
      _ = d := ((mem_band_iff hw hd (hin hdb.2)).mp hdb).symm
      _ = min ((strongestPeak B NB j v c).bin / bandWidth B NB) (NB - 1) := (mem_band_iff hw hd (hin hdc.2)).mp hdc
      _ = c := ((mem_band_iff hw hc (hin hdc.2)).mp hpc).symm
  · obtain ⟨b, hb, rfl⟩ := List.mem_map.mp hp
    obtain ⟨hb, hq⟩ := List.mem_filter.mp hb
    have hb := List.mem_range.mp hb
    exact ⟨rfl, rfl, b, hb, (strongestPeak_mem_band hNB hB hb j v).1, (strongestPeak_mem_band hNB hB hb j v).2, hq⟩

end Sys2Proof.Machine
end

section
/-! PROOFS. Correct rounding (00_scope.md R10). First the fields of a pattern put together, then what the rounding of a number
to 53 bits has, then that no finite pattern is nearer than the rounded one and that a tie goes to the even significand, then
that `roundFix` rounds so. -/

namespace Sys2Proof.Machine
open Sys2Proof.Safety

theorem infBits_lt : infBits < 2 ^ 63 := by decide

section WithSign
variable {neg : Bool} {bits : Nat} (hb : bits < 2 ^ 63)
include hb

theorem withSign_toNat : (withSign neg bits).toNat = (if neg then 2 ^ 63 else 0) + bits := by
  rw [withSign, BitVec.toNat_ofNat]
  cases neg <;> simp only [Bool.false_eq_true, if_true, if_false] <;> omega

theorem fabs_withSign : (fabs (withSign neg bits)).toNat = bits := by
  rw [fabs_toNat, withSign_toNat hb]
  cases neg <;> simp only [Bool.false_eq_true, if_true, if_false] <;> omega

theorem signBit_withSign : signBit (withSign neg bits) = neg := by
  rw [signBit, BitVec.getLsbD, withSign_toNat hb, Nat.testBit_eq_decide_div_mod_eq]
  cases neg <;> simp only [Bool.false_eq_true, if_true, if_false, decide_eq_true_eq, decide_eq_false_iff_not] <;> omega

theorem expField_withSign : expField (withSign neg bits) = bits / 2 ^ 52 := by
  rw [← expField_fabs, expField_eq_div, fabs_withSign hb]
  omega

theorem fracField_withSign : fracField (withSign neg bits) = bits % 2 ^ 52 := by
  rw [fracField_eq_mod, withSign_toNat hb]
  cases neg <;> simp only [Bool.false_eq_true, if_true, if_false] <;> omega

theorem getLsbD_withSign_zero : (withSign neg bits).getLsbD 0 = decide (bits % 2 = 1) := by
  rw [BitVec.getLsbD, withSign_toNat hb, Nat.testBit_eq_decide_div_mod_eq]
  cases neg <;> simp only [Bool.false_eq_true, if_true, if_false, decide_eq_decide] <;> omega

end WithSign

theorem isFinite_iff {a : F64} : isFinite a = true ↔ (fabs a).toNat < infBits := by
  have hexp : expField a = (fabs a).toNat / 2 ^ 52 := by
    rw [fabs_toNat, expField_eq_div]
    omega
  have hlt : (fabs a).toNat < 2 ^ 63 := by
    rw [fabs_toNat]
    omega
  simp only [isFinite, bne_iff_ne, hexp, infBits]
  omega

/-- A significand of at most 53 bits above its exponent: a carry out of the significand moves into the exponent. -/
theorem fixMag_withSign (neg : Bool) {shift sig : Nat} (hb : shift * 2 ^ 52 + sig < 2 ^ 63) (hsig : sig ≤ 2 ^ 53)
    (hnormal : shift = 0 ∨ 2 ^ 52 ≤ sig) : fixMag (withSign neg (shift * 2 ^ 52 + sig)) = sig * 2 ^ shift := by
  rw [fixMag, expField_withSign hb, fracField_withSign hb]
  rcases Nat.lt_or_ge sig (2 ^ 52) with hsub | hnorm
  · obtain rfl : shift = 0 := hnormal.resolve_right hsub.not_ge
    rw [if_pos (by omega)]
    omega
  · rcases hsig.lt_or_eq with hlt | rfl
    · rw [if_neg (by omega), show (shift * 2 ^ 52 + sig) / 2 ^ 52 - 1 = shift by omega,
        show 2 ^ 52 + (shift * 2 ^ 52 + sig) % 2 ^ 52 = sig by omega]
    · rw [if_neg (by omega), show (shift * 2 ^ 52 + 2 ^ 53) / 2 ^ 52 - 1 = shift + 1 by omega,
        show 2 ^ 52 + (shift * 2 ^ 52 + 2 ^ 53) % 2 ^ 52 = 2 ^ 52 by omega, Nat.pow_succ' (n := shift), ← Nat.mul_assoc,
        ← Nat.pow_succ]

/-- `X` rounded to `sig + up` units of `2 ^ shift`: `sig` is the significand below it, of 53 bits, or of fewer when the unit is
the smallest, and `up` is 1 in the upper half, with ties to even. -/
structure IsRounding {K : Type} [Field K] [LinearOrder K] [IsStrictOrderedRing K] (X : K) (shift sig up : Nat) : Prop where
  low : sig * 2 ^ shift ≤ X
  high : X < (sig + 1) * 2 ^ shift
  width : sig < 2 ^ 53
  normal : shift = 0 ∨ 2 ^ 52 ≤ sig
  half : (up = 1 ∧ (2 * sig + 1) * 2 ^ shift ≤ 2 * X) ∨ (up = 0 ∧ 2 * X ≤ (2 * sig + 1) * 2 ^ shift)
  even : 2 * X = (2 * sig + 1) * 2 ^ shift → (sig + up) % 2 = 0

section Nearest
variable {K : Type} [Field K] [LinearOrder K] [IsStrictOrderedRing K] {X : K} {shift sig up : Nat}

theorem IsRounding.up_le (h : IsRounding X shift sig up) : up ≤ 1 := by
  rcases h.half with ⟨rfl, -⟩ | ⟨rfl, -⟩ <;> decide

/-- No pattern lies between the two neighbours of `X`. -/
theorem IsRounding.gap (h : IsRounding X shift sig up) (hb : shift * 2 ^ 52 + sig < infBits) (c : F64) :
    fixMag c ≤ sig * 2 ^ shift ∨ (sig + 1) * 2 ^ shift ≤ fixMag c := by
  have hinf := infBits_lt
  have hwidth := h.width
  have hlow := fixMag_withSign false (shift := shift) (sig := sig) (by omega) h.width.le h.normal
  have hhigh := fixMag_withSign false (shift := shift) (sig := sig + 1) (by omega) h.width (by have := h.normal; omega)
  rcases Nat.lt_or_ge (shift * 2 ^ 52 + sig) (fabs c).toNat with hlt | hge
  · refine .inr (hhigh ▸ Nat.le_of_not_lt fun hc => ?_)
    rw [fixMag_lt_iff, fabs_withSign (by omega)] at hc
    omega
  · refine .inl (hlow ▸ Nat.le_of_not_lt fun hc => ?_)
    rw [fixMag_lt_iff, fabs_withSign (by omega)] at hc
    omega

/-- The same for the values of the patterns, and for their opposites. -/
theorem IsRounding.gap_of_abs (h : IsRounding X shift sig up) (hb : shift * 2 ^ 52 + sig < infBits) {z : Int} {c : F64}
    (hz : |z| = fixMag c) : (z : K) ≤ sig * 2 ^ shift ∨ (sig + 1) * 2 ^ shift ≤ (z : K) := by
  have hcast (n : Nat) : (z ≤ n ∨ (n + 2 ^ shift : Nat) ≤ z) → (z : K) ≤ n ∨ (n : K) + 2 ^ shift ≤ z := by
    rintro (hle | hle)
    · exact .inl (by exact_mod_cast hle)
    · exact .inr (by exact_mod_cast hle)
  have hz' : z ≤ (sig * 2 ^ shift : Nat) ∨ ((sig * 2 ^ shift + 2 ^ shift : Nat) : Int) ≤ z := by
    have hgap := h.gap hb c
    rw [Nat.succ_mul] at hgap
    rcases abs_cases z with ⟨ha, -⟩ | ⟨ha, hneg⟩ <;> omega
  have := hcast _ hz'
  push_cast at this
  rwa [add_one_mul]

/-- Of the two neighbours the rounded one is the nearer, and nothing lies between them. -/
theorem IsRounding.nearest (h : IsRounding X shift sig up) {c : K}
    (hc : c ≤ sig * 2 ^ shift ∨ (sig + 1) * 2 ^ shift ≤ c) :
    |(sig + up) * 2 ^ shift - X| ≤ |c - X| := by
  have hlow := h.low
  have hhigh := h.high
  rw [add_one_mul] at hhigh hc
  have hpos : (0 : K) < 2 ^ shift := by positivity
  rcases h.half with ⟨rfl, hhalf⟩ | ⟨rfl, hhalf⟩ <;> rw [add_mul] at hhalf ⊢ <;> push_cast
  · rw [abs_of_nonneg (by linarith)]
    rcases hc with hc | hc
    · rw [abs_of_nonpos (by linarith)]; linarith
    · rw [abs_of_nonneg (by linarith)]; linarith
  · rw [abs_of_nonpos (by linarith)]
    rcases hc with hc | hc
    · rw [abs_of_nonpos (by linarith)]; linarith
    · rw [abs_of_nonneg (by linarith)]; linarith

/-- When another value is as near, `X` is in the middle, and the rounded significand is even. -/
theorem IsRounding.even_of_tie (h : IsRounding X shift sig up) {c : K}
    (hc : c ≤ sig * 2 ^ shift ∨ (sig + 1) * 2 ^ shift ≤ c) (hne : c ≠ (sig + up) * 2 ^ shift)
    (htie : |c - X| = |(sig + up) * 2 ^ shift - X|) : (sig + up) % 2 = 0 := by
  refine h.even ?_
  have hlow := h.low
  have hhigh := h.high
  rw [add_one_mul] at hhigh hc
  have hpos : (0 : K) < 2 ^ shift := by positivity
  rcases h.half with ⟨rfl, hhalf⟩ | ⟨rfl, hhalf⟩ <;> rw [add_mul] at hhalf hne htie ⊢ <;> push_cast at hne htie
  · rw [abs_of_nonneg (a := _ + _ - X) (by linarith)] at htie
    rcases hc with hc | hc
    · rw [abs_of_nonpos (by linarith)] at htie; linarith
    · rw [abs_of_nonneg (by linarith)] at htie
      exact absurd (by linarith) hne
  · rw [abs_of_nonpos (a := _ + _ - X) (by linarith)] at htie
    rcases hc with hc | hc
    · rw [abs_of_nonpos (by linarith)] at htie
      exact absurd (by linarith) hne
    · rw [abs_of_nonneg (by linarith)] at htie; linarith

end Nearest

end Sys2Proof.Machine
end

section
/-! PROOFS. The rounding of `roundFix` (00_scope.md R10): the significand and the unit it takes are those of `IsRounding`, so
the pattern it gives is the nearest one, and infinity exactly from the overflow bound on. -/

namespace Sys2Proof.Machine
open Sys2Proof.Safety

/-- A magnitude with its sign. -/
def signed {K : Type} [Neg K] (neg : Bool) (x : K) : K := if neg then -x else x

theorem toFix_eq_signed (a : F64) : toFix a = signed (signBit a) (fixMag a : Int) := rfl

theorem abs_signed {K : Type} [AddGroup K] [Lattice K] (neg : Bool) (x : K) : |signed neg x| = |x| := by
  cases neg
  · rfl
  · exact abs_neg x

theorem signed_signed {K : Type} [AddGroup K] (neg : Bool) (x : K) : signed neg (signed neg x) = x := by
  cases neg
  · rfl
  · exact neg_neg x

theorem cast_signed {K : Type} [Ring K] (neg : Bool) (z : Int) : ((signed neg z : Int) : K) = signed neg (z : K) := by
  cases neg
  · rfl
  · exact Int.cast_neg z

theorem signed_sub_signed {K : Type} [AddCommGroup K] (neg : Bool) (x y : K) :
    signed neg x - signed neg y = signed neg (x - y) := by
  cases neg
  · rfl
  · exact (neg_sub' x y).symm

theorem abs_sub_signed {K : Type} [AddCommGroup K] [Lattice K] (neg : Bool) (x y : K) :
    |x - signed neg y| = |signed neg x - y| := by
  rw [← abs_signed neg (signed neg x - y), ← signed_sub_signed, signed_signed]

theorem signed_mul_signed {K : Type} [Ring K] (p q : Bool) (x y : K) :
    signed p x * signed q y = signed (p != q) (x * y) := by
  cases p <;> cases q <;> simp [signed]

theorem signed_div_signed {K : Type} [Field K] (p q : Bool) (x y : K) :
    signed p x / signed q y = signed (p != q) (x / y) := by
  cases p <;> cases q <;> simp [signed, neg_div, div_neg]

theorem signed_natAbs (v : Int) : signed (decide (v < 0)) (v.natAbs : Int) = v := by
  unfold signed
  split <;> rename_i h <;> simp only [decide_eq_true_eq] at h <;> omega

/-! ### What `roundFix` rounds to -/

theorem roundFix_zero (neg : Bool) (den : Nat) : roundFix neg 0 den = withSign neg 0 := by
  simp [roundFix]

theorem signBit_roundFix (neg : Bool) (num den : Nat) : signBit (roundFix neg num den) = neg :=
  signBit_withSign ((Nat.min_le_right ..).trans_lt infBits_lt)

/-- The integer quotient, cut to 53 bits. -/
theorem width_of_shift (q : Nat) : q / 2 ^ (Nat.log2 q - 52) < 2 ^ 53 ∧
    (Nat.log2 q - 52 = 0 ∨ 2 ^ 52 ≤ q / 2 ^ (Nat.log2 q - 52)) := by
  have hupper : q < 2 ^ (Nat.log2 q + 1) := Nat.lt_log2_self
  rcases Nat.lt_or_ge (Nat.log2 q) 53 with hsmall | hlarge
  · have hshift : Nat.log2 q - 52 = 0 := by omega
    rw [hshift, pow_zero, Nat.div_one]
    exact ⟨hupper.trans_le (Nat.pow_le_pow_right (by decide) (by omega)), .inl rfl⟩
  · have hlower : 2 ^ Nat.log2 q ≤ q := Nat.log2_self_le (by rintro rfl; simp at hlarge)
    refine ⟨Nat.div_lt_of_lt_mul ?_, .inr ((Nat.le_div_iff_mul_le (by positivity)).mpr ?_)⟩
    · rwa [← pow_add, show Nat.log2 q - 52 + 53 = Nat.log2 q + 1 by omega]
    · rwa [← pow_add, show 52 + (Nat.log2 q - 52) = Nat.log2 q by omega]

theorem roundFix_isRounding {K : Type} [Field K] [LinearOrder K] [IsStrictOrderedRing K] (neg : Bool) {num den : Nat}
    (hden : 0 < den) : ∃ shift sig up, IsRounding ((num : K) / den) shift sig up ∧
      roundFix neg num den = withSign neg (min (shift * 2 ^ 52 + sig + up) infBits) := by
  refine ⟨_, _, _, ?_, rfl⟩
  obtain ⟨hwidth, hnormal⟩ := width_of_shift (num / den)
  rw [Nat.div_div_eq_div_mul] at hwidth hnormal
  generalize Nat.log2 (num / den) - 52 = shift at *
  have hunit : 0 < den * 2 ^ shift := by positivity
  have hnum := Nat.div_add_mod num (den * 2 ^ shift)
  have hrem := Nat.mod_lt num hunit
  generalize num / (den * 2 ^ shift) = sig at *
  generalize num % (den * 2 ^ shift) = rem at *
  have hd : (0 : K) < den := by exact_mod_cast hden
  have hX : (num : K) / den = sig * 2 ^ shift + rem / den := by
    rw [← hnum, div_eq_iff hd.ne', add_mul, div_mul_cancel₀ _ hd.ne']
    push_cast
    ring
  have htwice (hle : den * 2 ^ shift ≤ 2 * rem) : (2 ^ shift : K) ≤ 2 * (rem / den) := by
    rw [← mul_div_assoc, le_div_iff₀ hd, mul_comm]
    exact_mod_cast hle
  have htwice' (hle : 2 * rem ≤ den * 2 ^ shift) : 2 * (rem / den) ≤ (2 ^ shift : K) := by
    rw [← mul_div_assoc, div_le_iff₀ hd, mul_comm _ (den : K)]
    exact_mod_cast hle
  rw [hX]
  refine ⟨?_, ?_, hwidth, hnormal, ?_, ?_⟩
  · have : (0 : K) ≤ rem / den := by positivity
    linarith
  · rw [add_one_mul, add_lt_add_iff_left, div_lt_iff₀ hd, mul_comm]
    exact_mod_cast hrem
  · split
    · exact .inl ⟨rfl, by linarith [htwice (by omega)]⟩
    · exact .inr ⟨rfl, by linarith [htwice' (by omega)]⟩
  · intro htie
    have hmid : 2 * ((rem : K) / den) = 2 ^ shift := by linarith
    rw [← mul_div_assoc, div_eq_iff hd.ne', mul_comm _ (den : K)] at hmid
    have hmid' : 2 * rem = den * 2 ^ shift := by exact_mod_cast hmid
    split <;> omega

section Rounded
variable {K : Type} [Field K] [LinearOrder K] [IsStrictOrderedRing K] {X : K} {shift sig up : Nat}

/-- Below the infinity pattern the value is `sig + up` units. -/
theorem IsRounding.toFix_eq (h : IsRounding X shift sig up) (hb : shift * 2 ^ 52 + sig + up < infBits) (neg : Bool) :
    toFix (withSign neg (shift * 2 ^ 52 + sig + up)) = signed neg (((sig + up) * 2 ^ shift : Nat) : Int) := by
  have hup := h.up_le
  have hwidth := h.width
  have hlt := hb.trans infBits_lt
  rw [toFix_eq_signed, signBit_withSign hlt, add_assoc,
    fixMag_withSign neg (Nat.add_assoc .. ▸ hlt) (by omega) (h.normal.imp_right Nat.le_add_right_of_le)]

/-- Below the infinity pattern the rounded value is the nearest one, and even when another is as near. -/
theorem IsRounding.nearest_toFix (h : IsRounding X shift sig up) (hb : shift * 2 ^ 52 + sig + up < infBits) (neg : Bool)
    (c : F64) :
    |(toFix (withSign neg (shift * 2 ^ 52 + sig + up)) : K) - signed neg X| ≤ |(toFix c : K) - signed neg X| ∧
      (toFix c ≠ toFix (withSign neg (shift * 2 ^ 52 + sig + up)) →
        |(toFix c : K) - signed neg X| = |(toFix (withSign neg (shift * 2 ^ 52 + sig + up)) : K) - signed neg X| →
        (withSign neg (shift * 2 ^ 52 + sig + up)).getLsbD 0 = false) := by
  have hgap := h.gap_of_abs ((Nat.le_add_right ..).trans_lt hb) (z := signed neg (toFix c)) (c := c)
    ((abs_signed neg _).trans (abs_toFix c))
  rw [cast_signed] at hgap
  have hinf := infBits_lt
  rw [abs_sub_signed, abs_sub_signed, getLsbD_withSign_zero (by omega)]
  have hvalue : (signed neg (toFix (withSign neg (shift * 2 ^ 52 + sig + up)) : K) : K) = (sig + up) * 2 ^ shift := by
    rw [← cast_signed, h.toFix_eq hb, signed_signed]
    push_cast
    rfl
  rw [hvalue]
  refine ⟨h.nearest hgap, fun hne htie => ?_⟩
  have heven := h.even_of_tie hgap (fun heq => hne ?_) htie
  · rw [decide_eq_false_iff_not]
    omega
  · have hval : signed neg (toFix c) = (((sig + up) * 2 ^ shift : Nat) : Int) := by
      have : ((signed neg (toFix c) : Int) : K) = (((sig + up) * 2 ^ shift : Nat) : Int) := by
        rw [cast_signed, heq]
        push_cast
        rfl
      exact_mod_cast this
    rw [h.toFix_eq hb, ← hval, signed_signed]

/-- The infinity pattern is reached exactly at half a unit beyond the largest finite value. -/
theorem IsRounding.finite_iff (h : IsRounding X shift sig up) :
    shift * 2 ^ 52 + sig + up < infBits ↔ X < (2 ^ 54 - 1) * 2 ^ 2044 := by
  have hup := h.up_le
  have hwidth := h.width
  have hhigh := h.high
  have hlow := h.low
  have hunit (k : Nat) : (0 : K) < 2 ^ k := by positivity
  rcases Nat.lt_trichotomy shift 2045 with hlt | rfl | hgt
  · refine iff_of_true (by unfold infBits; omega) (hhigh.trans_le ?_)
    have hsig : (sig : K) + 1 ≤ 2 ^ 53 := by exact_mod_cast hwidth
    have hpow : (2 : K) ^ shift ≤ 2 ^ 2044 := pow_le_pow_right₀ one_le_two (by omega)
    exact mul_le_mul (hsig.trans (by norm_num)) hpow (hunit _).le (by norm_num)
  · have hnormal := h.normal.resolve_left (by decide)
    have hhalf := h.half
    have heven := h.even
    have hdouble : (2 : K) ^ 2045 = 2 * 2 ^ 2044 := pow_succ' ..
    rw [hdouble] at hhigh hhalf heven
    have hpos := hunit 2044
    generalize (2 : K) ^ 2044 = P at *
    rcases Nat.lt_or_ge (sig + up) (2 ^ 53) with hsmall | hlarge
    · refine iff_of_true (by unfold infBits; omega) ?_
      rcases Nat.lt_or_ge (sig + 1) (2 ^ 53) with hbelow | htop
      · have hsig : (sig : K) + 1 + 1 ≤ 2 ^ 53 := by exact_mod_cast hbelow
        calc X < (sig + 1) * (2 * P) := hhigh
          _ ≤ (2 ^ 53 - 1) * (2 * P) := mul_le_mul_of_nonneg_right (by linarith) (mul_pos two_pos hpos).le
          _ ≤ (2 ^ 54 - 1) * P := by
            rw [← mul_assoc]
            exact mul_le_mul_of_nonneg_right (by norm_num) hpos.le
      · obtain rfl : sig = 2 ^ 53 - 1 := by omega
        obtain rfl : up = 0 := by omega
        have hle := hhalf.resolve_left (by simp)
        have hne := mt heven (by decide)
        have := lt_of_le_of_ne hle.2 hne
        push_cast at this
        linarith
    · obtain rfl : up = 1 := by omega
      obtain rfl : sig = 2 ^ 53 - 1 := by omega
      refine iff_of_false (by unfold infBits; omega) (not_lt.mpr ?_)
      have hge := (hhalf.resolve_right (by simp)).2
      push_cast at hge
      linarith
  · have hnormal := h.normal.resolve_left (by omega)
    refine iff_of_false (by unfold infBits; omega) (not_lt.mpr (le_trans ?_ hlow))
    have hsig : (2 : K) ^ 52 ≤ sig := by exact_mod_cast hnormal
    have hpow : (2 : K) ^ (2 + 2044) ≤ 2 ^ shift := pow_le_pow_right₀ one_le_two (by omega)
    rw [pow_add] at hpow
    refine le_trans ?_ (mul_le_mul hsig hpow (mul_pos (hunit _) (hunit _)).le (by positivity))
    rw [← mul_assoc]
    exact mul_le_mul_of_nonneg_right (by norm_num) (hunit _).le

end Rounded

/-! ### The same for the rational values -/

theorem overflowBound_eq : overflowBound = (2 ^ 54 - 1) * 2 ^ 2044 / 2 ^ 1074 := by
  rw [overflowBound, eq_div_iff (by positivity), show (2 : ℚ) ^ 1024 = 2 ^ 54 * 2 ^ 970 from pow_add 2 54 970,
    show (2 : ℚ) ^ 2044 = 2 ^ 970 * 2 ^ 1074 from pow_add 2 970 1074,
    ← mul_assoc, sub_one_mul]

theorem abs_toRat_sub (c : F64) (y : ℚ) : |toRat c - y / 2 ^ 1074| = |(toFix c : ℚ) - y| / 2 ^ 1074 := by
  rw [toRat, ← sub_div, abs_div, abs_of_pos (a := (2 : ℚ) ^ 1074) (by positivity)]

theorem toRat_inj_iff {a b : F64} : toRat a = toRat b ↔ toFix a = toFix b := by
  rw [toRat, toRat, div_left_inj' (by positivity), Int.cast_inj]

/-- `roundFix` rounds correctly. -/
theorem roundFix_roundsTo {x : ℚ} {neg : Bool} {num den : Nat} (hden : 0 < den)
    (hx : x = signed neg ((num : ℚ) / den) / 2 ^ 1074) : RoundsTo x (roundFix neg num den) := by
  obtain ⟨shift, sig, up, h, hround⟩ := roundFix_isRounding (K := ℚ) neg (num := num) hden
  have hX : (0 : ℚ) ≤ num / den := by positivity
  have hscale : (0 : ℚ) < 2 ^ 1074 := by positivity
  have hsmall : |x| < overflowBound ↔ shift * 2 ^ 52 + sig + up < infBits := by
    rw [h.finite_iff, overflowBound_eq, hx, abs_div, abs_signed, abs_of_nonneg hX, abs_of_pos hscale,
      div_lt_div_iff_of_pos_right hscale]
  have hinf := infBits_lt
  rw [RoundsTo, hround]
  split
  next hlt =>
    have hb := hsmall.mp hlt
    rw [min_eq_left hb.le]
    refine ⟨isFinite_iff.mpr (by rwa [fabs_withSign (by omega)]), fun c _ => ?_⟩
    obtain ⟨hnear, htie⟩ := h.nearest_toFix hb neg c
    rw [hx, abs_toRat_sub, abs_toRat_sub, div_le_div_iff_of_pos_right hscale, div_left_inj' hscale.ne', ne_eq,
      toRat_inj_iff]
    exact ⟨hnear, htie⟩
  next hge =>
    rw [min_eq_right (Nat.le_of_not_lt (mt hsmall.mpr hge))]
    have hpos : 0 < (num : ℚ) / den := by
      refine hX.lt_of_ne fun h0 => hge ?_
      rw [hx, ← h0, abs_div, abs_signed, abs_zero, zero_div, overflowBound, sub_pos]
      exact pow_lt_pow_right₀ one_lt_two (by decide)
    refine congrArg (withSign · infBits) ?_
    rw [hx]
    cases neg
    · exact (decide_eq_false (not_lt.mpr (div_nonneg hX hscale.le))).symm
    · exact (decide_eq_true (div_neg_of_neg_of_pos (neg_neg_of_pos hpos) hscale)).symm

end Sys2Proof.Machine
end

section
/-! PROOFS. The four operations are the correctly rounded ones (00_scope.md R10): rules for the kinds of patterns and for the
opposite of one, then finite operands, NaNs and infinities. -/

namespace Sys2Proof.Machine
open Sys2Proof.Safety

/-! ### The kinds of patterns -/

theorem not_isNaN_of_isFinite {a : F64} (h : isFinite a = true) : isNaN a = false := by
  have hexp : expField a ≠ 2047 := by simpa [isFinite] using h
  simp [isNaN, hexp]

theorem isNaN_nanOf (a b : F64) : isNaN (nanOf a b) = true := by
  unfold nanOf
  generalize (Config.nanBits a b).extractLsb' 51 1 = sign
  generalize (Config.nanBits a b).extractLsb' 0 51 = payload
  have happend {m n : Nat} (x : BitVec m) (y : BitVec n) : (x ++ y).toNat = 2 ^ n * x.toNat + y.toNat := by
    rw [BitVec.toNat_append, Nat.shiftLeft_eq, Nat.mul_comm, Nat.two_pow_add_eq_or_of_lt y.isLt]
  have hval : (sign ++ 0xFFF#12 ++ payload).toNat = 2 ^ 51 * (2 ^ 12 * sign.toNat + 4095) + payload.toNat := by
    rw [happend, happend]
    rfl
  have hpayload := payload.isLt
  have hexp : expField (sign ++ 0xFFF#12 ++ payload) = 2047 := by
    rw [expField_eq_div, hval]
    omega
  have hfrac : fracField (sign ++ 0xFFF#12 ++ payload) ≠ 0 := by
    rw [fracField_eq_mod, hval]
    omega
  simp [isNaN, hexp, hfrac]

theorem toNat_fabs_of_feq0 {a : F64} : feq0 a = true ↔ (fabs a).toNat = 0 := by
  rw [feq0, beq_iff_eq, ← BitVec.toNat_inj]
  rfl

theorem feq0_iff_fixMag {a : F64} : feq0 a = true ↔ fixMag a = 0 := by
  have hpos := fixMag_lt_iff fzero a
  have hzero : fixMag fzero = 0 ∧ (fabs fzero).toNat = 0 := by decide
  rw [hzero.1, hzero.2] at hpos
  rw [toNat_fabs_of_feq0]
  omega

theorem not_feq0_of_not_isFinite {a : F64} (h : isFinite a = false) : feq0 a = false := by
  by_contra hz
  rw [Bool.not_eq_false, toNat_fabs_of_feq0] at hz
  have hfin : isFinite a = true := isFinite_iff.mpr (hz ▸ by decide)
  rw [h] at hfin
  cases hfin

/-! ### The opposite -/

theorem signBit_fneg (a : F64) : signBit (fneg a) = !signBit a := by
  simp [signBit, fneg]

theorem fabs_fneg (a : F64) : fabs (fneg a) = fabs a := by
  have hmasks : ∀ i : Fin 64, (0x8000000000000000#64).getLsbD i = !(0x7FFFFFFFFFFFFFFF#64).getLsbD i := by decide
  refine BitVec.eq_of_getLsbD_eq fun i hi => ?_
  rw [fabs, fneg, fabs, BitVec.getLsbD_and, BitVec.getLsbD_and, BitVec.getLsbD_xor, hmasks ⟨i, hi⟩]
  cases (0x7FFFFFFFFFFFFFFF#64).getLsbD i <;> simp

theorem expField_fneg (a : F64) : expField (fneg a) = expField a := by
  rw [← expField_fabs, fabs_fneg, expField_fabs]

theorem fracField_fneg (a : F64) : fracField (fneg a) = fracField a := by
  have hlow (b : F64) : fracField b = (fabs b).toNat % 2 ^ 52 := by
    rw [fabs_toNat, fracField_eq_mod]
    omega
  rw [hlow, hlow, fabs_fneg]

theorem isFinite_fneg (a : F64) : isFinite (fneg a) = isFinite a := by rw [isFinite, isFinite, expField_fneg]

theorem isNaN_fneg (a : F64) : isNaN (fneg a) = isNaN a := by rw [isNaN, isNaN, expField_fneg, fracField_fneg]

theorem fixMag_fneg (a : F64) : fixMag (fneg a) = fixMag a := fixMag_eq_of_fields (expField_fneg a) (fracField_fneg a)

theorem toRat_fneg (a : F64) : toRat (fneg a) = -toRat a := by
  unfold toRat toFix
  rw [signBit_fneg, fixMag_fneg, ← neg_div, ← Int.cast_neg]
  cases signBit a
  · rfl
  · rw [Bool.not_true, if_neg Bool.false_ne_true, if_pos rfl, neg_neg]

/-! ### Finite operands -/

theorem toRat_eq_signed (a : F64) : toRat a = signed (signBit a) (fixMag a : ℚ) / 2 ^ 1074 := by
  rw [toRat, toFix_eq_signed, cast_signed, Int.cast_natCast]

theorem signed_div {K : Type} [Field K] (neg : Bool) (x y : K) : signed neg x / y = signed neg (x / y) :=
  (signed_div_signed neg false x y).trans (by rw [Bool.bne_false])

theorem fixOne_pos : 0 < fixOne := by
  rw [fixOne]
  positivity

theorem fixOne_cast : (fixOne : ℚ) = 2 ^ 1074 := by rw [fixOne, Nat.cast_pow, Nat.cast_ofNat]

section Finite
variable {a b : F64}

theorem fadd_of_finite (ha : isFinite a = true) (hb : isFinite b = true) :
    fadd a b = if toFix a + toFix b = 0 then withSign (signBit a && signBit b) 0
      else roundFix (toFix a + toFix b < 0) (toFix a + toFix b).natAbs 1 := by
  simp [fadd, ha, hb, not_isNaN_of_isFinite]

theorem fsub_of_finite (ha : isFinite a = true) (hb : isFinite b = true) : fsub a b = fadd a (fneg b) := by
  simp [fsub, ha, hb, not_isNaN_of_isFinite]

theorem fmul_of_finite (ha : isFinite a = true) (hb : isFinite b = true) :
    fmul a b = roundFix (signBit a != signBit b) (fixMag a * fixMag b) fixOne := by
  simp [fmul, ha, hb, not_isNaN_of_isFinite]

theorem fdiv_of_finite (ha : isFinite a = true) (hb : isFinite b = true) :
    fdiv a b = if feq0 b then (if feq0 a then nanOf a b else withSign (signBit a != signBit b) infBits)
      else roundFix (signBit a != signBit b) (fixMag a * fixOne) (fixMag b) := by
  simp [fdiv, ha, hb, not_isNaN_of_isFinite]

theorem toRat_add (a b : F64) : toRat a + toRat b = ((toFix a + toFix b : Int) : ℚ) / 2 ^ 1074 := by
  rw [toRat, toRat, ← add_div, Int.cast_add]

theorem toRat_add_eq_zero_iff {a b : F64} : toRat a + toRat b = 0 ↔ toFix a + toFix b = 0 := by
  rw [toRat_add, div_eq_iff (pow_ne_zero _ two_ne_zero), zero_mul, Int.cast_eq_zero]

theorem fadd_roundsTo (ha : isFinite a = true) (hb : isFinite b = true) : RoundsTo (toRat a + toRat b) (fadd a b) := by
  rw [fadd_of_finite ha hb, toRat_add]
  split
  next hzero =>
    rw [← roundFix_zero _ 1, hzero]
    exact roundFix_roundsTo one_pos (by cases signBit a <;> cases signBit b <;> simp [signed])
  next =>
    refine roundFix_roundsTo one_pos ?_
    rw [Nat.cast_one, div_one, ← Int.cast_natCast, ← cast_signed, signed_natAbs]

theorem signBit_fadd_of_sum_zero (ha : isFinite a = true) (hb : isFinite b = true) (hzero : toRat a + toRat b = 0) :
    signBit (fadd a b) = (signBit a && signBit b) := by
  rw [fadd_of_finite ha hb, if_pos (toRat_add_eq_zero_iff.mp hzero), signBit_withSign (by decide)]

theorem fmul_roundsTo (ha : isFinite a = true) (hb : isFinite b = true) : RoundsTo (toRat a * toRat b) (fmul a b) := by
  rw [fmul_of_finite ha hb]
  refine roundFix_roundsTo fixOne_pos ?_
  rw [toRat_eq_signed, toRat_eq_signed, div_mul_div_comm, signed_mul_signed, fixOne_cast, Nat.cast_mul, ← div_div, signed_div]

theorem fdiv_roundsTo (ha : isFinite a = true) (hb : isFinite b = true) (hzero : feq0 b = false) :
    RoundsTo (toRat a / toRat b) (fdiv a b) := by
  have hpos : 0 < fixMag b := Nat.pos_of_ne_zero fun h => by simp [feq0_iff_fixMag.mpr h] at hzero
  rw [fdiv_of_finite ha hb, hzero, if_neg Bool.false_ne_true]
  refine roundFix_roundsTo hpos ?_
  rw [toRat_eq_signed, toRat_eq_signed, div_div_div_cancel_right₀ (by positivity), signed_div_signed, Nat.cast_mul, fixOne_cast,
    signed_div, mul_div_right_comm, mul_div_cancel_right₀ _ (by positivity)]

end Finite

/-! ### NaNs and infinities -/

theorem isNaN_of_nan_operand {a b : F64} (h : isNaN a = true ∨ isNaN b = true) :
    isNaN (fadd a b) = true ∧ isNaN (fsub a b) = true ∧ isNaN (fmul a b) = true ∧ isNaN (fdiv a b) = true := by
  have hor : (isNaN a || isNaN b) = true := by simpa using h
  simp [fadd, fsub, fmul, fdiv, hor, isNaN_nanOf]

section FiniteInfinite
variable {a b : F64} (ha : isFinite a = true) (hb : isFinite b = false) (hnb : isNaN b = false)
include ha hb hnb

theorem fadd_finite_infinite : fadd a b = b ∧ fadd b a = b := by
  simp [fadd, ha, hb, hnb, not_isNaN_of_isFinite ha]

theorem fsub_finite_infinite : fsub a b = fneg b ∧ fsub b a = b := by
  have hna := not_isNaN_of_isFinite ha
  have hb' : isFinite (fneg b) = false := (isFinite_fneg b).trans hb
  have hnb' : isNaN (fneg b) = false := (isNaN_fneg b).trans hnb
  have ha' : isFinite (fneg a) = true := (isFinite_fneg a).trans ha
  constructor
  · rw [fsub, hna, hnb]
    exact (fadd_finite_infinite ha hb' hnb').1
  · rw [fsub, hna, hnb]
    exact (fadd_finite_infinite ha' hb hnb).2

theorem fmul_finite_infinite :
    fmul a b = (if feq0 a then nanOf a b else withSign (signBit a != signBit b) infBits) ∧
      fmul b a = if feq0 a then nanOf b a else withSign (signBit b != signBit a) infBits := by
  simp [fmul, ha, hb, hnb, not_isNaN_of_isFinite ha]

theorem fdiv_finite_infinite :
    fdiv a b = withSign (signBit a != signBit b) 0 ∧ fdiv b a = withSign (signBit b != signBit a) infBits := by
  simp [fdiv, ha, hb, hnb, not_isNaN_of_isFinite ha]

end FiniteInfinite

section Infinite
variable {a b : F64} (ha : isFinite a = false) (hna : isNaN a = false) (hb : isFinite b = false) (hnb : isNaN b = false)
include ha hna hb hnb

theorem fadd_of_infinite : fadd a b = if signBit a = signBit b then a else nanOf a b := by
  by_cases h : signBit a = signBit b <;> simp [fadd, ha, hna, hb, hnb, h]

theorem fsub_of_infinite : fsub a b = if signBit a = signBit b then nanOf a (fneg b) else a := by
  have hfadd := fadd_of_infinite ha hna ((isFinite_fneg b).trans hb) ((isNaN_fneg b).trans hnb)
  rw [signBit_fneg] at hfadd
  rw [fsub, hna, hnb, Bool.or_false, if_neg Bool.false_ne_true, hfadd]
  cases signBit a <;> cases signBit b <;> rfl

theorem fmul_of_infinite : fmul a b = withSign (signBit a != signBit b) infBits := by
  simp [fmul, ha, hna, hnb, not_feq0_of_not_isFinite hb]

theorem fdiv_of_infinite : fdiv a b = nanOf a b := by
  simp [fdiv, ha, hna, hb, hnb]

end Infinite

/-- Settles O51. -/
theorem arithmeticRoundsToNearestEven : Obligations.ArithmeticRoundsToNearestEven := by
  refine ⟨fun a b ha hb => ?_, fun a b h => isNaN_of_nan_operand h, fun a b ha hb hnb => ?_, fun a b ha hna hb hnb => ?_⟩
  · have hb' : isFinite (fneg b) = true := (isFinite_fneg b).trans hb
    have hsub := fadd_roundsTo ha hb'
    have hsign := signBit_fadd_of_sum_zero ha hb'
    rw [← fsub_of_finite ha hb, toRat_fneg, ← sub_eq_add_neg] at hsub hsign
    rw [signBit_fneg] at hsign
    refine ⟨fadd_roundsTo ha hb, hsub, fmul_roundsTo ha hb, fdiv_roundsTo ha hb, signBit_fadd_of_sum_zero ha hb, hsign,
      ?_, fun hz => ?_, fun hz => ?_⟩
    · rw [fmul_of_finite ha hb, signBit_roundFix]
    · rw [fdiv_of_finite ha hb, hz, if_neg Bool.false_ne_true, signBit_roundFix]
    · rw [fdiv_of_finite ha hb, if_pos hz]
      split
      · exact isNaN_nanOf a b
      · rfl
  · have hcomm : (signBit b != signBit a) = (signBit a != signBit b) := bne_comm
    obtain ⟨hadd, hadd'⟩ := fadd_finite_infinite ha hb hnb
    obtain ⟨hsub, hsub'⟩ := fsub_finite_infinite ha hb hnb
    obtain ⟨hmul, hmul'⟩ := fmul_finite_infinite ha hb hnb
    obtain ⟨hdiv, hdiv'⟩ := fdiv_finite_infinite ha hb hnb
    refine ⟨hadd, hadd', hsub', hsub, hdiv, hcomm ▸ hdiv', fun hz => ?_, fun hz => ?_⟩
    · rw [hmul, hmul', hz, hcomm, if_neg Bool.false_ne_true, if_neg Bool.false_ne_true]
      exact ⟨rfl, rfl⟩
    · rw [hmul, hmul', if_pos hz, if_pos hz]
      exact ⟨isNaN_nanOf a b, isNaN_nanOf b a⟩
  · rw [fadd_of_infinite ha hna hb hnb, fsub_of_infinite ha hna hb hnb, fmul_of_infinite ha hna hb hnb,
      fdiv_of_infinite ha hna hb hnb]
    refine ⟨?_, rfl, isNaN_nanOf a b⟩
    split
    next heq => exact ⟨rfl, isNaN_nanOf a (fneg b)⟩
    next hne => exact ⟨isNaN_nanOf a b, rfl⟩

end Sys2Proof.Machine
end

section
/-! PROOFS. Conversion and comparison (00_scope.md R10): an integer below `2^53` needs no rounding, and the order of the patterns'
keys is that of the values. -/

namespace Sys2Proof.Machine
open Sys2Proof.Safety

/-- A whole number of units is rounded to itself. -/
theorem IsRounding.exact {K : Type} [Field K] [LinearOrder K] [IsStrictOrderedRing K] {N shift sig up : Nat}
    (h : IsRounding ((N * 2 ^ shift : Nat) : K) shift sig up) : sig = N ∧ up = 0 := by
  have hpos : 0 < 2 ^ shift := Nat.two_pow_pos shift
  have hlow : sig * 2 ^ shift ≤ N * 2 ^ shift := by exact_mod_cast h.low
  have hhigh : N * 2 ^ shift < (sig + 1) * 2 ^ shift := by exact_mod_cast h.high
  have hN : sig = N := by
    have := Nat.le_of_mul_le_mul_right hlow hpos
    have := Nat.lt_of_mul_lt_mul_right hhigh
    omega
  subst hN
  refine ⟨rfl, (h.half.resolve_left ?_).1⟩
  rintro ⟨-, hhalf⟩
  have hhalf' : (2 * sig + 1) * 2 ^ shift ≤ 2 * (sig * 2 ^ shift) := by exact_mod_cast hhalf
  rw [← Nat.mul_assoc] at hhalf'
  have := Nat.le_of_mul_le_mul_right hhalf' hpos
  omega

theorem IsRounding.shift_le {K : Type} [Field K] [LinearOrder K] [IsStrictOrderedRing K] {n k shift sig up : Nat}
    (h : IsRounding ((n * 2 ^ k : Nat) : K) shift sig up) (hn : n < 2 ^ 53) : shift ≤ k := by
  by_contra hlt
  have hnormal := h.normal.resolve_left (by omega)
  have hlow : sig * 2 ^ shift ≤ n * 2 ^ k := by exact_mod_cast h.low
  have hpow : 2 ^ (k + 1) ≤ 2 ^ shift := Nat.pow_le_pow_right two_pos (by omega)
  have hunits : 2 ^ 52 * 2 ^ (k + 1) ≤ n * 2 ^ k := (Nat.mul_le_mul hnormal hpow).trans hlow
  rw [Nat.pow_succ' (n := k), ← Nat.mul_assoc] at hunits
  have := Nat.le_of_mul_le_mul_right hunits (Nat.two_pow_pos k)
  omega

/-- A value with at most 53 significant bits and no overflow is rounded to itself. -/
theorem toFix_roundFix_exact (neg : Bool) {n k : Nat} (hn : n < 2 ^ 53) (hk : k ≤ 2044) :
    isFinite (roundFix neg (n * 2 ^ k) 1) = true ∧
      toFix (roundFix neg (n * 2 ^ k) 1) = signed neg ((n * 2 ^ k : Nat) : Int) := by
  obtain ⟨shift, sig, up, h, hround⟩ := roundFix_isRounding (K := ℚ) neg (num := n * 2 ^ k) one_pos
  rw [Nat.cast_one, div_one] at h
  have hshift := h.shift_le hn
  have hsplit : n * 2 ^ k = n * 2 ^ (k - shift) * 2 ^ shift := by
    rw [Nat.mul_assoc, ← Nat.pow_add, Nat.sub_add_cancel hshift]
  have hexact := h
  rw [hsplit] at hexact
  obtain ⟨hsig, rfl⟩ := hexact.exact
  have hb : shift * 2 ^ 52 + sig + 0 < infBits := by
    have := h.width
    unfold infBits
    omega
  rw [hround, min_eq_left hb.le, h.toFix_eq hb, hsplit, ← hsig]
  exact ⟨isFinite_iff.mpr (by rwa [fabs_withSign (hb.trans infBits_lt)]), rfl⟩

theorem f64OfInt_exact {i : Int} (hi : i.natAbs < 2 ^ 53) : isFinite (f64OfInt i) = true ∧ toRat (f64OfInt i) = i := by
  obtain ⟨hfinite, hvalue⟩ := toFix_roundFix_exact (decide (i < 0)) (k := 1074) hi (by decide)
  refine ⟨hfinite, ?_⟩
  have hfix : toFix (f64OfInt i) = i * 2 ^ 1074 := hvalue.trans (by
    rw [Nat.cast_mul, Nat.cast_pow, Nat.cast_ofNat]
    conv_rhs => rw [← signed_natAbs i]
    exact (signed_mul_signed (decide (i < 0)) false (i.natAbs : Int) (2 ^ 1074)).symm ▸ (by rw [Bool.bne_false]))
  rw [toRat, hfix, Int.cast_mul, Int.cast_pow, Int.cast_ofNat, mul_div_cancel_right₀ _ (pow_ne_zero _ two_ne_zero)]

theorem orderKey_lt_iff (a b : F64) : orderKey b < orderKey a ↔ toRat b < toRat a := by
  rw [toRat, toRat, div_lt_div_iff_of_pos_right (by positivity), Int.cast_lt, orderKey, orderKey, toFix, toFix]
  have hab := fixMag_lt_iff a b
  have hba := fixMag_lt_iff b a
  have ha := feq0_iff_fixMag (a := a)
  have hb := feq0_iff_fixMag (a := b)
  rw [toNat_fabs_of_feq0] at ha hb
  generalize fixMag a = ma at *
  generalize fixMag b = mb at *
  generalize (fabs a).toNat = ka at *
  generalize (fabs b).toNat = kb at *
  cases signBit a <;> cases signBit b <;> simp only [Bool.false_eq_true, if_true, if_false] <;> omega

/-- Settles O52. -/
theorem conversionAndComparisonAreExact : Obligations.ConversionAndComparisonAreExact := by
  refine ⟨fun i hi => f64OfInt_exact hi, fun a b => ⟨fun ha hb => ?_, ?_⟩⟩
  · rw [fgt_iff (not_isNaN_of_isFinite ha) (not_isNaN_of_isFinite hb), orderKey_lt_iff]
  · rintro (h | h) <;> simp [fgt, h]

end Sys2Proof.Machine
end

section
/-! PROOFS. Silence (45_peak_detect.md R250 (d)): the threshold of an all-zero band is a zero or a NaN, and `+0.0` is above neither. -/

namespace Sys2Proof.Machine
open Sys2Proof.Safety

/-- A zero of either sign, or a NaN. -/
def ZeroOrNaN (v : F64) : Prop := feq0 v = true ∨ isNaN v = true

theorem zeroOrNaN_withSign (neg : Bool) : ZeroOrNaN (withSign neg 0) := by
  cases neg <;> exact .inl rfl

theorem zeroOrNaN_nanOf (a b : F64) : ZeroOrNaN (nanOf a b) := .inr (isNaN_nanOf a b)

theorem isFinite_of_feq0 {a : F64} (h : feq0 a = true) : isFinite a = true := by
  by_contra hfin
  have := not_feq0_of_not_isFinite (Bool.not_eq_true _ ▸ hfin)
  rw [h] at this
  cases this

/-- Nothing that is a zero or a NaN is below `+0.0`. -/
theorem not_fgt_fzero {v : F64} (h : ZeroOrNaN v) : fgt fzero v = false := by
  rcases h with hzero | hnan
  · have hkey : orderKey v = 0 := by
      rw [orderKey, toNat_fabs_of_feq0.mp hzero]
      split <;> rfl
    have hfzero : orderKey fzero = 0 := by decide
    simp [fgt, hkey, hfzero]
  · simp [fgt, hnan]

theorem zeroOrNaN_fdiv {a : F64} (b : F64) (ha : feq0 a = true) : ZeroOrNaN (fdiv a b) := by
  have hfin := isFinite_of_feq0 ha
  cases hnan : isNaN b with
  | true => exact .inr (isNaN_of_nan_operand (.inr hnan)).2.2.2
  | false =>
    cases hb : isFinite b with
    | false =>
      rw [(fdiv_finite_infinite hfin hb hnan).1]
      exact zeroOrNaN_withSign _
    | true =>
      rw [fdiv_of_finite hfin hb, if_pos ha, feq0_iff_fixMag.mp ha, Nat.zero_mul, roundFix_zero]
      split
      · exact zeroOrNaN_nanOf a b
      · exact zeroOrNaN_withSign _

theorem zeroOrNaN_fmul {a b : F64} (ha : ZeroOrNaN a) (hb : isFinite b = true) : ZeroOrNaN (fmul a b) := by
  rcases ha with hzero | hnan
  · rw [fmul_of_finite (isFinite_of_feq0 hzero) hb, feq0_iff_fixMag.mp hzero, Nat.zero_mul, roundFix_zero]
    exact zeroOrNaN_withSign _
  · exact .inr (isNaN_of_nan_operand (.inl hnan)).2.2.1

theorem fsum_of_forall_fzero {l : List F64} (h : ∀ x ∈ l, x = fzero) : fsum l = fzero := by
  induction l with
  | nil => rfl
  | cons x rest ih =>
    obtain rfl := h x (List.mem_cons_self ..)
    have hadd : fadd fzero fzero = fzero := by decide
    rw [fsum, List.foldl_cons, hadd]
    exact ih fun y hy => h y (List.mem_cons_of_mem _ hy)

theorem zeroOrNaN_bandThreshold {v : List F64} {lo hi : Nat} {mult : F64} (hmult : isFinite mult = true)
    (h : ∀ k, lo ≤ k → k < hi → v.getD k fzero = fzero) : ZeroOrNaN (bandThreshold v lo hi mult) := by
  refine zeroOrNaN_fmul ?_ hmult
  rw [bandMean, fsum_of_forall_fzero]
  · exact zeroOrNaN_fdiv _ rfl
  · rintro x hx
    obtain ⟨k, hk, rfl⟩ := List.mem_map.mp hx
    obtain ⟨hlo, hhi⟩ := List.mem_range'_1.mp hk
    exact h k hlo (by omega)

theorem bandPeak_eq_none {B NB j b : Nat} {v : List F64} {mult : F64} (hmult : isFinite mult = true)
    (h : ∀ k, bandLo B NB b ≤ k → k < bandHi B NB b → v.getD k fzero = fzero)
    (hbest : v.getD (bestBin v (bandLo B NB b) (bandHi B NB b)) fzero = fzero) : bandPeak B NB mult j v b = none := by
  rw [bandPeak, hbest, not_fgt_fzero (zeroOrNaN_bandThreshold hmult h), if_neg Bool.false_ne_true]

/-- Settles O58. -/
theorem silenceGivesNoPeak : Obligations.SilenceGivesNoPeak := by
  refine ⟨fun B NB mult j v b hmult hne h => ?_, fun B NB mult j v hmult h => ?_⟩
  · obtain ⟨hlo, hhi⟩ := bestBin_mem (v := v) hne
    exact bandPeak_eq_none hmult h (h _ hlo hhi)
  · have hnone (b : Nat) : bandPeak B NB mult j v b = none := bandPeak_eq_none hmult (fun k _ _ => h k) (h _)
    exact ⟨hnone, List.filterMap_eq_nil_iff.mpr fun b _ => hnone b⟩

end Sys2Proof.Machine
end

section
/-! PROOFS. The numerics configurations (41_kernel_design.md R172, 44_fft_magnitude.md R228, R229). The reference square root:
Newton's falling sequence ends at the integer root; the root and a sticky bit round as the exact root does, because the unit
of the rounding is at least 2. The reference sine and cosine round a number between -1 and 1. -/

namespace Sys2Proof.Machine
open Sys2Proof.Safety

/-! ### The integer square root -/

/-- Newton's step does not fall below the root. -/
theorem sqrt_le_newton {n x : Nat} (hx : 0 < x) : Nat.sqrt n ≤ (x + n / x) / 2 := by
  have hroot : Nat.sqrt n * Nat.sqrt n ≤ n := Nat.sqrt_le n
  generalize Nat.sqrt n = s at *
  have hdiv : 2 * s - x ≤ n / x := by
    rw [Nat.le_div_iff_mul_le hx]
    refine le_trans ?_ hroot
    rcases Nat.le_total (2 * s) x with hle | hge
    · rw [Nat.sub_eq_zero_of_le hle, Nat.zero_mul]
      exact Nat.zero_le _
    · obtain ⟨d, hd⟩ := Nat.exists_eq_add_of_le hge
      rw [hd, Nat.add_sub_cancel_left]
      nlinarith [sq_nonneg ((d : Int) - x)]
  omega

/-- Above the root, Newton's step halves the distance to it. -/
theorem newton_le {n x : Nat} (hx : Nat.sqrt n < x) : (x + n / x) / 2 ≤ (x + Nat.sqrt n) / 2 := by
  have hlt : n / x < Nat.sqrt n + 1 := by
    rw [Nat.div_lt_iff_lt_mul (Nat.zero_lt_of_lt hx)]
    exact (Nat.lt_succ_sqrt n).trans_le (Nat.mul_le_mul_left _ hx)
  omega

theorem sqrtLoop_eq_sqrt {n fuel x : Nat} (hlow : Nat.sqrt n ≤ x) (hfuel : x < Nat.sqrt n + 2 ^ fuel) :
    sqrtLoop n fuel x = Nat.sqrt n := by
  induction fuel generalizing x with
  | zero =>
    rw [sqrtLoop]
    omega
  | succ fuel ih =>
    rw [sqrtLoop]
    rcases hlow.eq_or_lt with rfl | hlt
    · rcases Nat.eq_zero_or_pos (Nat.sqrt n) with hzero | hpos
      · rw [if_neg (by simp [hzero])]
      · rw [if_neg (sqrt_le_newton hpos).not_gt]
    · have hstep := newton_le hlt
      rw [if_pos (by omega)]
      exact ih (sqrt_le_newton (by omega)) (by omega)

theorem isqrt_eq_sqrt (n : Nat) : isqrt n = Nat.sqrt n := by
  have hn : n < 2 ^ (Nat.log2 n + 1) := Nat.lt_log2_self
  have hstart : Nat.sqrt n < 2 ^ (Nat.log2 n / 2 + 1) := by
    rw [Nat.sqrt_lt', ← Nat.pow_mul]
    exact hn.trans_le (Nat.pow_le_pow_right two_pos (by omega))
  have hfuel : 2 ^ (Nat.log2 n / 2 + 1) < 2 ^ (Nat.log2 n + 2) := Nat.pow_lt_pow_right one_lt_two (by omega)
  exact sqrtLoop_eq_sqrt hstart.le (by omega)

theorem toRat_of_feq0 {a : F64} (h : feq0 a = true) : toRat a = 0 := by
  rw [toRat, toFix, feq0_iff_fixMag.mp h]
  split <;> exact zero_div _

/-! ### The correctly rounded square root -/

/-- `2 * r + sticky` for the integer root `r`: half of it is the root to one bit after the point. -/
def stickyRoot (n : Nat) : Nat := 2 * Nat.sqrt n + if Nat.sqrt n * Nat.sqrt n = n then 0 else 1

theorem stickyRoot_le_two_mul_iff (n k : Nat) : stickyRoot n ≤ 2 * k ↔ n ≤ k * k := by
  unfold stickyRoot
  split
  next hsquare =>
    have hmono : Nat.sqrt n ≤ k ↔ Nat.sqrt n * Nat.sqrt n ≤ k * k := Nat.mul_self_le_mul_self_iff.symm
    rw [hsquare] at hmono
    omega
  next hsquare =>
    have hne : n ≠ k * k := fun h => hsquare (by rw [h, Nat.sqrt_eq])
    have hlt : Nat.sqrt n < k ↔ n < k * k := Nat.sqrt_lt
    omega

theorem two_mul_le_stickyRoot_iff (n k : Nat) : 2 * k ≤ stickyRoot n ↔ k * k ≤ n := by
  rw [← Nat.le_sqrt, stickyRoot]
  split <;> omega

/-- The root and the number with the sticky bit are on the same side of every whole number. -/
theorem stickyRoot_le_iff (n k : Nat) : (stickyRoot n : ℝ) / 2 ≤ k ↔ √(n : ℝ) ≤ k := by
  rw [Real.sqrt_le_left (Nat.cast_nonneg k), div_le_iff₀ two_pos, sq, mul_comm _ (2 : ℝ)]
  exact_mod_cast stickyRoot_le_two_mul_iff n k

theorem le_stickyRoot_iff (n k : Nat) : (k : ℝ) ≤ (stickyRoot n : ℝ) / 2 ↔ (k : ℝ) ≤ √(n : ℝ) := by
  rw [Real.le_sqrt (Nat.cast_nonneg k), le_div_iff₀ two_pos, sq, mul_comm _ (2 : ℝ)]
  · exact_mod_cast two_mul_le_stickyRoot_iff n k
  · exact Nat.cast_nonneg n

/-- With a unit of 2 or more, the exact root rounds as the number with the sticky bit. -/
theorem IsRounding.of_stickyRoot {n shift sig up : Nat} (h : IsRounding ((stickyRoot n : ℝ) / 2) (shift + 1) sig up) :
    IsRounding √(n : ℝ) (shift + 1) sig up := by
  have hlow := h.low
  have hhigh := h.high
  have hhalf := h.half
  have heven := h.even
  have hmiddle : (2 * (sig : ℝ) + 1) * 2 ^ (shift + 1) = 2 * ((2 * sig + 1) * 2 ^ shift : Nat) := by
    push_cast
    ring
  have hcast (k : Nat) : (k : ℝ) * 2 ^ (shift + 1) = (k * 2 ^ (shift + 1) : Nat) := by push_cast; rfl
  have hcast' : ((sig : ℝ) + 1) * 2 ^ (shift + 1) = ((sig + 1) * 2 ^ (shift + 1) : Nat) := by push_cast; rfl
  rw [hmiddle, mul_le_mul_iff_right₀ two_pos, mul_le_mul_iff_right₀ two_pos] at hhalf
  rw [hmiddle, mul_right_inj' two_ne_zero] at heven
  rw [hcast, le_stickyRoot_iff] at hlow
  rw [hcast', ← not_le, le_stickyRoot_iff, not_le] at hhigh
  rw [le_stickyRoot_iff, stickyRoot_le_iff] at hhalf
  refine ⟨?_, ?_, h.width, h.normal, ?_, ?_⟩
  · rwa [hcast]
  · rwa [hcast']
  · rwa [hmiddle, mul_le_mul_iff_right₀ two_pos, mul_le_mul_iff_right₀ two_pos]
  · rw [hmiddle, mul_right_inj' two_ne_zero]
    intro hmid
    exact heven (le_antisymm ((stickyRoot_le_iff ..).mpr hmid.le) ((le_stickyRoot_iff ..).mpr hmid.ge))

/-- What the reference square root rounds, of a number that is not zero. -/
theorem fsqrt_of_pos {a : F64} (ha : isFinite a = true) (hsign : signBit a = false) (hpos : feq0 a = false) :
    fsqrt a = roundFix false (stickyRoot (fixMag a * fixOne)) 2 := by
  simp only [fsqrt, not_isNaN_of_isFinite ha, hpos, hsign, ha, isqrt_eq_sqrt, stickyRoot, Bool.not_true,
    Bool.false_eq_true, if_false]

theorem fixMag_lt_of_isFinite {a : F64} (ha : isFinite a = true) : fixMag a < 2 ^ 53 * 2 ^ 2045 := by
  have hexp : expField a ≠ 2047 := by simpa [isFinite] using ha
  have hexp' : expField a < 2 ^ 11 := (a.extractLsb' 52 11).isLt
  have hfrac := fracField_lt a
  have hpow : 2 ^ (expField a - 1) ≤ 2 ^ 2045 := pow_le_pow_right₀ one_le_two (by omega)
  have hone : 1 ≤ 2 ^ 2045 := one_le_pow₀ one_le_two
  generalize 2 ^ 2045 = unit at *
  unfold fixMag
  split
  · exact (hfrac.trans (by decide : 2 ^ 52 < 2 ^ 53)).trans_le (Nat.le_mul_of_pos_right _ hone)
  · exact (Nat.mul_lt_mul_of_pos_right (by omega) (Nat.two_pow_pos _)).trans_le (Nat.mul_le_mul_left _ hpow)

/-- The rounding of the root of a number in units of `2 ^ -1074` has a unit of 2 or more, and does not overflow. -/
theorem fsqrt_isRounding {a : F64} (ha : isFinite a = true) (hsign : signBit a = false) (hpos : feq0 a = false) :
    ∃ shift sig up, IsRounding √((fixMag a * fixOne : Nat) : ℝ) shift sig up ∧ shift * 2 ^ 52 + sig + up < infBits ∧
      fsqrt a = withSign false (shift * 2 ^ 52 + sig + up) := by
  obtain ⟨shift, sig, up, h, hround⟩ :=
    roundFix_isRounding (K := ℝ) false (num := stickyRoot (fixMag a * fixOne)) two_pos
  have hmag : 1 ≤ fixMag a := Nat.pos_of_ne_zero fun h0 => by simp [feq0_iff_fixMag.mpr h0] at hpos
  have hshift : shift ≠ 0 := by
    rintro rfl
    have hlarge : 2 ^ 53 * 2 ^ 53 ≤ fixMag a * fixOne := by
      rw [← Nat.pow_add, ← Nat.one_mul (2 ^ (53 + 53)), fixOne]
      exact Nat.mul_le_mul hmag (pow_le_pow_right₀ one_le_two (by decide))
    have hroot := (two_mul_le_stickyRoot_iff ..).mpr hlarge
    have hhigh := h.high
    rw [pow_zero, mul_one, Nat.cast_ofNat, div_lt_iff₀ two_pos] at hhigh
    have hhigh' : stickyRoot (fixMag a * fixOne) < (sig + 1) * 2 := by exact_mod_cast hhigh
    have hwidth := h.width
    omega
  obtain ⟨k, rfl⟩ := Nat.exists_eq_succ_of_ne_zero hshift
  have hroot := h.of_stickyRoot
  have hb : (k + 1) * 2 ^ 52 + sig + up < infBits := by
    rw [hroot.finite_iff]
    refine lt_of_lt_of_le (?_ : _ < (2 : ℝ) ^ 2044) (le_mul_of_one_le_left (pow_nonneg two_pos.le _) (by norm_num))
    rw [Real.sqrt_lt' (pow_pos two_pos _), ← pow_mul]
    have hsmall : fixMag a * fixOne < 2 ^ (2044 * 2) := by
      refine (Nat.mul_lt_mul_of_pos_right (fixMag_lt_of_isFinite ha) fixOne_pos).trans_le ?_
      rw [fixOne, ← pow_add, ← pow_add]
      exact pow_le_pow_right₀ one_le_two (by decide)
    exact_mod_cast hsmall
  exact ⟨_, _, _, hroot, hb, by rw [fsqrt_of_pos ha hsign hpos, hround, min_eq_left hb.le]⟩

theorem realSqrt_toRat {a : F64} (hsign : signBit a = false) :
    √(toRat a : ℝ) = √((fixMag a * fixOne : Nat) : ℝ) / 2 ^ 1074 := by
  have hscale : (0 : ℝ) < 2 ^ 1074 := pow_pos two_pos _
  have hvalue : (toRat a : ℝ) = (fixMag a * fixOne : Nat) / (2 ^ 1074) ^ 2 := by
    rw [toRat_eq_signed, hsign, Rat.cast_div, Rat.cast_pow, Rat.cast_ofNat, Nat.cast_mul, fixOne, Nat.cast_pow,
      Nat.cast_ofNat, sq, mul_div_mul_right _ _ hscale.ne']
    exact congrArg (· / _) (Rat.cast_natCast _)
  rw [hvalue, Real.sqrt_div' _ (sq_nonneg _), Real.sqrt_sq hscale.le]

theorem abs_toRat_sub_real (c : F64) (y : ℝ) : |(toRat c : ℝ) - y / 2 ^ 1074| = |(toFix c : ℝ) - y| / 2 ^ 1074 := by
  have hcast : (toRat c : ℝ) = (toFix c : ℝ) / 2 ^ 1074 := by
    rw [toRat, Rat.cast_div, Rat.cast_intCast, Rat.cast_pow, Rat.cast_ofNat]
  rw [hcast, ← sub_div, abs_div, abs_of_pos (a := (2 : ℝ) ^ 1074) (by positivity)]

/-- The reference square root is the nearest binary64 to the root. -/
theorem fsqrt_nearest {a : F64} (ha : isFinite a = true) (hsign : signBit a = false) :
    isFinite (fsqrt a) = true ∧ signBit (fsqrt a) = false ∧
      ∀ c : F64, |(toRat (fsqrt a) : ℝ) - √(toRat a)| ≤ |(toRat c : ℝ) - √(toRat a)| := by
  cases hzero : feq0 a with
  | true =>
    have hsame : fsqrt a = a := by
      simp only [fsqrt, not_isNaN_of_isFinite ha, hzero, Bool.false_eq_true, if_false, if_true]
    rw [hsame, toRat_of_feq0 hzero, Rat.cast_zero, Real.sqrt_zero, sub_zero, abs_zero]
    exact ⟨ha, hsign, fun c => abs_nonneg _⟩
  | false =>
    obtain ⟨shift, sig, up, h, hb, heq⟩ := fsqrt_isRounding ha hsign hzero
    have hlt := hb.trans infBits_lt
    rw [heq, realSqrt_toRat hsign, signBit_withSign hlt]
    refine ⟨isFinite_iff.mpr (by rwa [fabs_withSign hlt]), rfl, fun c => ?_⟩
    rw [abs_toRat_sub_real, abs_toRat_sub_real, div_le_div_iff_of_pos_right (by positivity)]
    exact (h.nearest_toFix hb false c).1

/-! ### Sine and cosine -/

theorem toRat_fONE : toRat fONE = 1 := by
  rw [toRat_eq_signed, fixMag_fONE, fixOne_cast]
  exact div_self (pow_ne_zero _ two_ne_zero)

/-- A number between -1 and 1 is rounded to one between -1 and 1. -/
theorem RoundsTo.abs_le_one {x : ℚ} {r : F64} (h : RoundsTo x r) (hx : |x| ≤ 1) : isFinite r = true ∧ |toRat r| ≤ 1 := by
  have hbound : 1 < overflowBound := by
    have hpow : (1 : ℚ) ≤ 2 ^ 970 := one_le_pow₀ one_le_two
    rw [overflowBound, show (2 : ℚ) ^ 1024 = 2 ^ 54 * 2 ^ 970 from pow_add 2 54 970]
    generalize (2 : ℚ) ^ 970 = P at *
    linarith
  rw [RoundsTo, if_pos (hx.trans_lt hbound)] at h
  obtain ⟨hfinite, hnear⟩ := h
  refine ⟨hfinite, abs_le.mpr ?_⟩
  obtain ⟨hlow, hhigh⟩ := abs_le.mp hx
  rcases le_total 0 x with hnonneg | hneg
  · have hone := (hnear fONE (by decide)).1
    rw [toRat_fONE, abs_of_nonneg (a := 1 - x) (by linarith), abs_le] at hone
    exact ⟨by linarith, by linarith⟩
  · have hone := (hnear (fneg fONE) (by decide)).1
    rw [toRat_fneg, toRat_fONE, abs_of_nonpos (a := -1 - x) (by linarith), abs_le] at hone
    exact ⟨by linarith, by linarith⟩

theorem roundBits_clampUnit (p : Nat) (v : Int) :
    isFinite (roundBits p (clampUnit p v)) = true ∧ |toRat (roundBits p (clampUnit p v))| ≤ 1 := by
  have hclamp : |clampUnit p v| ≤ 2 ^ p := by
    have := Nat.two_pow_pos p
    unfold clampUnit
    rw [abs_le]
    exact ⟨le_max_left .., max_le (by simp) (min_le_left ..)⟩
  generalize clampUnit p v = z at *
  have hround : RoundsTo (z / 2 ^ p : ℚ) (roundBits p z) := by
    refine roundFix_roundsTo (Nat.two_pow_pos p) ?_
    rw [signed_div, Nat.cast_mul, fixOne_cast, div_right_comm, mul_div_cancel_right₀ _ (pow_ne_zero _ two_ne_zero),
      ← signed_div, Nat.cast_pow, Nat.cast_ofNat, ← Int.cast_natCast, ← cast_signed, signed_natAbs]
  refine RoundsTo.abs_le_one hround ?_
  rw [abs_div, abs_of_pos (a := (2 : ℚ) ^ p) (by positivity), div_le_one (by positivity)]
  exact_mod_cast hclamp

theorem abs_toRat_of_isTiny {a : F64} (h : isTiny a = true) : |toRat a| ≤ 1 := by
  rw [← not_lt, one_lt_abs_toRat_iff, ← fixMag_fONE, fixMag_lt_iff, fabs_toNat_eq_fields a]
  have hexp : expField a < 1023 - 27 := by simpa [isTiny] using h
  have hone : (fabs fONE).toNat = 1023 * 2 ^ 52 := by decide
  have := fracField_lt a
  omega

theorem trigFinite_referenceNumerics : TrigFinite referenceNumerics := by
  intro x hx
  constructor
  · change isFinite (sinRef x) = true ∧ |toRat (sinRef x)| ≤ 1
    rw [sinRef, hx]
    simp only [Bool.not_true, Bool.false_eq_true, if_false]
    split
    · have hzero (neg : Bool) : isFinite (withSign neg 0) = true ∧ feq0 (withSign neg 0) = true := by
        cases neg <;> decide
      obtain ⟨hfinite, hfeq⟩ := hzero Config.sinNegZeroSign
      exact ⟨hfinite, by rw [toRat_of_feq0 hfeq, abs_zero]; exact zero_le_one⟩
    · split
      next htiny => exact ⟨hx, abs_toRat_of_isTiny htiny⟩
      next => exact roundBits_clampUnit ..
  · change isFinite (cosRef x) = true ∧ |toRat (cosRef x)| ≤ 1
    rw [cosRef, hx]
    simp only [Bool.not_true, Bool.false_eq_true, if_false]
    split
    · exact ⟨by decide, by rw [toRat_fONE, abs_one]⟩
    · exact roundBits_clampUnit ..

theorem trigZero_referenceNumerics : TrigZero referenceNumerics := by
  constructor
  · change sinRef fzero = fzero
    rw [sinRef, if_neg (by decide), if_neg (by decide), if_pos (by decide)]
  · change cosRef fzero = fONE
    rw [cosRef, if_neg (by decide), if_pos (by decide)]

theorem numericsOf_other (tag : Nat) (epsTrig epsDft : ℚ) :
    numericsOf (.other tag epsTrig epsDft) = referenceNumerics ∨
      Conforms epsTrig epsDft (numericsOf (.other tag epsTrig epsDft)) := by
  cases h : Config.openChoice (Conforms epsTrig epsDft) tag with
  | none => exact .inl (by simp only [numericsOf, h])
  | some N => exact .inr (by simpa only [numericsOf, h] using N.property)

/-- Settles O53. -/
theorem openNumericsHaveTheirProperties : Obligations.OpenNumericsHaveTheirProperties := by
  refine ⟨fun tag epsTrig epsDft => (numericsOf_other tag epsTrig epsDft).imp_right fun h => ?_,
    trigFinite_referenceNumerics, trigZero_referenceNumerics, fun F xw _ => ?_, fun a ha hsign => ?_, fun F xw k _ hk => ?_⟩
  · exact ⟨h.epsTrigPos, h.epsDftPos, h.trigFinite, h.trigZero, h.trigAcc, h.dftLen, h.dftNonneg, h.dftAcc,
      fun F xw k u hlen hfinite hk hu hsign hnear => h.dftAcc.near hlen hfinite hk hu hsign hnear⟩
  · exact (List.length_map ..).trans List.length_range
  · obtain ⟨hfinite, hsign', hnear⟩ := fsqrt_nearest ha hsign
    exact ⟨hfinite, hsign', fun c _ => hnear c⟩
  · simp only [List.foldl_map]
    change (dftMagRef sinRef cosRef fsqrt F xw)[k]? = _
    rw [dftMagRef, List.getElem?_map, List.getElem?_range hk]
    rfl

end Sys2Proof.Machine
end

section
/-! PROOFS. What an event does in a run (70_reset_and_hazards.md R364): a stage step, which moves the run forward by one; a host
operation that leaves the stages where they are; or the end of the run by a fault or by the host. -/

namespace Sys2Proof.Machine
open Sys2Proof.Safety

/-- A stage step moved the run from `s` to `t`. -/
structure Advances (s t : State) : Prop where
  impl : t.impl = s.impl
  config : configOf t = configOf s
  accepted : t.accepted = s.accepted
  progress : progress t = progress s + 1
  phase : t.phase = s.phase ∨ (s.phase = .flush ∧ t.phase = .done)

theorem StageMove.advances {s t : State} {i : Instr} (h : StageMove s i t) : Advances s t where
  impl := by cases h <;> rfl
  config := h.keepsConfig
  accepted := by
    have := congrArg List.length h.keepsSamples
    rwa [List.length_append, List.length_append] at this
  progress := h.progress_eq
  phase := by
    cases h with
    | retire hs hp hd => exact .inr ⟨hp, rfl⟩
    | _ => exact .inl rfl

/-- The turn of WFFT for a ready frame, named by its index. -/
theorem advances_transform {s : State} {j : Nat} (hempty : slot? s.spec j = none) (N : Numerics) :
    Advances s (transform N j s) where
  impl := rfl
  config := rfl
  accepted := rfl
  progress := by
    rw [progress_eq_sum, progress_eq_sum]
    simp only [transform_n, transform_kvalid, transform_wvalid, transform_m, transform_spec, transform_npf,
      transform_hashCount, transform_a, transform_phase, length_fillSlot _ hempty]
    omega
  phase := .inl rfl

/-- From `s` to `t` the host did something in a run, or nothing happened: the host may have pushed or popped a word and may
have signalled the end of input, and the stages are where they were. -/
inductive Waits (s : State) : State → Prop
  | intro (resp : Option Resp) (irqEn coefSel slo : Word) (inFifo : List F64) (fin : Bool) (phase : Phase)
      (hq popped : List Word) (hin : s.inFifo <+: inFifo) (hroom : inFifo = s.inFifo ∨ roomForSample s = true)
      (hfin : s.fin = true → fin = true ∧ inFifo = s.inFifo)
      (hphase : phase = s.phase ∨ (s.phase = .run ∧ phase = .flush)) (hlen : hq.length ≤ s.hq.length) :
      Waits s { s with
        resp := resp, irqEn := irqEn, coefSel := coefSel, slo := slo, inFifo := inFifo, fin := fin, phase := phase
        hq := hq, popped := popped }

/-- The host changes neither the samples nor the phase, and queues no hash. -/
theorem waits_of_quiet (s : State) (resp : Option Resp) (irqEn coefSel slo : Word) {hq : List Word} (popped : List Word)
    (hlen : hq.length ≤ s.hq.length) :
    Waits s { s with resp := resp, irqEn := irqEn, coefSel := coefSel, slo := slo, hq := hq, popped := popped } :=
  .intro resp irqEn coefSel slo s.inFifo s.fin s.phase hq popped List.prefix_rfl (.inl rfl) (fun h => ⟨h, rfl⟩) (.inl rfl) hlen

theorem waits_refl (s : State) : Waits s s := waits_of_quiet s s.resp s.irqEn s.coefSel s.slo s.popped le_rfl

section WaitsFacts
variable {s t : State} (h : Waits s t)
include h

theorem Waits.impl : t.impl = s.impl := by cases h; rfl

theorem Waits.config : configOf t = configOf s := by cases h; rfl

theorem Waits.hq_le : t.hq.length ≤ s.hq.length := by
  cases h with
  | intro _ _ _ _ _ _ _ _ _ _ _ _ _ hlen => exact hlen

theorem Waits.phase : t.phase = s.phase ∨ (s.phase = .run ∧ t.phase = .flush) := by
  cases h with
  | intro _ _ _ _ _ _ _ _ _ _ _ _ hphase _ => exact hphase

theorem Waits.progress_eq : progress t = progress s := by
  have hphase := h.phase
  have hretired : retired t.phase = retired s.phase := by
    rcases hphase with hp | ⟨hs, ht⟩
    · rw [hp]
    · rw [hs, ht]
      rfl
  rw [progress_eq_sum, progress_eq_sum, hretired]
  cases h
  rfl

/-- Samples are accepted in `RUN` only, with room for them. -/
theorem Waits.accepted_eq (hno : s.fin = true ∨ roomForSample s = false) : t.accepted = s.accepted := by
  cases h with
  | intro _ _ _ _ inFifo _ _ _ _ hin hroom hfin _ _ =>
    have hsame : inFifo = s.inFifo := by
      rcases hno with hf | hr
      · exact (hfin hf).2
      · exact hroom.resolve_right (by rw [hr]; decide)
    subst hsame
    rfl

/-- What is enabled stays enabled while the host acts and the run goes on. -/
theorem Waits.guard {i : Instr} (hrun : t.phase = .run ∨ t.phase = .flush) (hg : Guard i s) : Guard i t := by
  have hok := stageOk_of_guard hg
  cases h with
  | intro _ _ _ _ inFifo fin phase _ _ hin _ hfin hphase hlen =>
    have hok' : (phase = .run ∨ phase = .flush) ∧ _ < s.impl.outDepth := ⟨hrun, hlen.trans_lt hok.2⟩
    have hx (hx : XDone s) : fin = true ∧ inFifo = [] := ⟨(hfin hx.1).1, (hfin hx.1).2.trans hx.2⟩
    cases i with
    | ingest => exact ⟨hok', hg.2.trans_le hin.length_le⟩
    | kdes | wgen | wfft | peak | hemit => exact ⟨hok', hg.2⟩
    | fird =>
      obtain ⟨-, hk, hl, hready⟩ := hg
      exact ⟨hok', hk, hl, hready.imp_right hx⟩
    | hadv =>
      obtain ⟨-, p, hp, hdone⟩ := hg
      exact ⟨hok', p, hp, hdone.imp_right fun ⟨ht, hd⟩ => ⟨ht, hd.imp_left fun hd => ⟨⟨⟨hx hd.1.1.1, hd.1.1.2⟩, hd.1.2⟩, hd.2⟩⟩⟩
    | retire =>
      obtain ⟨-, hp, hd⟩ := hg
      refine ⟨hok', hphase.elim (fun hsame => hsame.trans hp) (fun hflush => hflush.2), ?_⟩
      exact ⟨⟨⟨⟨hx hd.1.1.1.1, hd.1.1.1.2⟩, hd.1.1.2⟩, hd.1.2⟩, hd.2⟩
    | _ => exact hg

end WaitsFacts

theorem not_active_of_phase {s : State} (hp : s.phase = .idle ∨ s.phase = .fault) : ¬ Active s := by
  rcases hp with hp | hp <;> simp [Active, hp]

/-- A host operation or a FAULT turn in a run. -/
theorem HostMove.waits_or_leaves {s t : State} {i : Instr} (harch : ArchInv s) (hactive : Active s) (h : HostMove s i t) :
    Waits s t ∨ (¬ Active t ∧ ((i = .cmdClear ∨ i = .cmdReset) ∨ s.phase = .run)) := by
  have hidle : s.phase ≠ .idle := fun hp => not_active_of_phase (.inl hp) hactive
  cases h with
  | answer i r => exact .inl (waits_of_quiet s _ _ _ _ _ le_rfl)
  | setIrqEn d => exact .inl (waits_of_quiet s _ _ _ _ _ le_rfl)
  | setCoefSel d => exact .inl (waits_of_quiet s _ _ _ _ _ le_rfl)
  | setConfig i d u hi hp hu => exact absurd hp hidle
  | start hp => exact absurd hp hidle
  | startFault i hi sub info hp => exact absurd hp hidle
  | runFault i hi sub info hp => exact .inr ⟨not_active_of_phase (.inr rfl), .inr hp⟩
  | noFault e => exact .inl (waits_refl s)
  | finish hp =>
    exact .inl (.intro _ _ _ _ _ true .flush _ _ List.prefix_rfl (.inl rfl) (fun _ => ⟨rfl, rfl⟩) (.inr ⟨hp, rfl⟩) le_rfl)
  | clear => exact .inr ⟨not_active_of_phase (.inl rfl), .inl (.inl rfl)⟩
  | reset => exact .inr ⟨not_active_of_phase (.inl rfl), .inl (.inr rfl)⟩
  | latch d hp => exact .inl (waits_of_quiet s _ _ _ _ _ le_rfl)
  | push d hp hr =>
    have hfin : s.fin ≠ true := by
      rw [harch.fin_of_run hp]
      exact Bool.false_ne_true
    exact .inl (.intro _ _ _ _ _ _ _ _ _ (List.prefix_append ..) (.inr hr) (fun hf => absurd hf hfin) (.inl rfl) le_rfl)
  | pop w rest hp hq => exact .inl (waits_of_quiet s _ _ _ _ _ (by rw [hq]; exact Nat.le_succ _))

theorem step_of_ok {s t : State} {p : PortWord} {i : Instr} (hd : decodeWord p = .ok i)
    (h : step (schedule (.word p) s) = .next t) : exec i s = .next t :=
  (step_of_decodeWord_ok (s := schedule (.word p) s) rfl hd).symm.trans h

/-- A stage step moves the run forward. -/
theorem advances_of_stageStep {s t : State} {e : Event} (harch : ArchInv s) (hstep : StageStep e s)
    (h : step (schedule e s) = .next t) : Advances s t := by
  obtain ⟨i, hi, hg, hturn⟩ := hstep
  have hok := stageOk_of_guard hg
  obtain ⟨-, -, -, -, -, -, -, -, hH, -⟩ := harch.configLegal (hok.1.imp_right .inl)
  rcases hturn with ⟨p, rfl, hd⟩ | ⟨j, rfl, rfl, hready⟩
  · obtain ⟨u, hu⟩ := exists_stageMove hi hH hg
    obtain rfl : u = t := Host.Outcome.next.inj (hu.exec_eq.symm.trans (step_of_ok hd h))
    exact hu.advances
  · have ht : t = frameTurn j s := (Host.Outcome.next.inj h).symm
    rw [ht, frameTurn_of_ready (stageOk_iff.mpr hok) hg.2.1 hready]
    exact advances_transform (frameReady_iff.mp hready).2 _

/-- What an event does in a run. -/
theorem event_in_run {s t : State} {e : Event} (harch : ArchInv s) (hactive : Active s)
    (h : step (schedule e s) = .next t) :
    StageStep e s ∨ Waits s t ∨ (¬ Active t ∧ (Abandons e ∨ s.phase = .run)) := by
  cases e with
  | hardReset =>
    cases h
    exact .inr (.inr ⟨not_active_of_phase (.inl rfl), .inl (.inl rfl)⟩)
  | frame j =>
    by_cases hc : stageOk s = true ∧ s.wvalid = true ∧ frameReady s j = true
    · obtain ⟨hs, hw, hready⟩ := hc
      obtain ⟨hfits, hempty⟩ := frameReady_iff.mp hready
      exact .inl ⟨.wfft (low32 j), rfl, ⟨stageOk_iff.mp hs, hw, j, rfl, hfits, hempty⟩, .inr ⟨j, rfl, rfl, hready⟩⟩
    · have ht : t = frameTurn j s := (Host.Outcome.next.inj h).symm
      rw [ht, frameTurn_of_not_ready hc]
      exact .inr (.inl (waits_refl s))
  | word p =>
    cases hd : decodeWord p with
    | ok i =>
      rcases exec_cases (step_of_ok hd h) with ⟨hi, rfl | hmove⟩ | ⟨-, hmove⟩
      · exact .inr (.inl (waits_refl t))
      · exact .inl ⟨i, hi, hmove.guard, .inl ⟨p, rfl, hd⟩⟩
      · rcases hmove.waits_or_leaves harch hactive with hwaits | ⟨hleft, (rfl | rfl) | hp⟩
        · exact .inr (.inl hwaits)
        · exact .inr (.inr ⟨hleft, .inl (.inr ⟨p, rfl, .inl hd⟩)⟩)
        · exact .inr (.inr ⟨hleft, .inl (.inr ⟨p, rfl, .inr hd⟩)⟩)
        · exact .inr (.inr ⟨hleft, .inr hp⟩)
    | error err =>
      replace h := (step_of_decodeWord_error (s := schedule (.word p) s) rfl hd).symm.trans h
      cases err with
      | reservedBits | reservedStageOp => cases h
      | misaligned | reservedAddress | writeToReadOnly | readOfWriteOnly | reservedCommand =>
        cases h
        exact .inr (.inl (waits_of_quiet s _ _ _ _ _ le_rfl))

end Sys2Proof.Machine
end

section
/-! PROOFS. How far a run can come (70_reset_and_hazards.md R364 (b)): with the samples and the configuration given, every
count of a run is bounded, and a finished run has reached the counts of R364. -/

namespace Sys2Proof.Machine
open Sys2Proof.Safety

/-- Concatenated lists of bounded length. -/
theorem length_flatMap_le {α β : Type} {f : α → List β} {c : Nat} (l : List α) (h : ∀ x ∈ l, (f x).length ≤ c) :
    (l.flatMap f).length ≤ l.length * c := by
  rw [List.length_flatMap, ← List.length_map (f := fun x => (f x).length), ← smul_eq_mul]
  refine List.sum_le_card_nsmul _ _ fun k hk => ?_
  obtain ⟨x, hx, rfl⟩ := List.mem_map.mp hk
  exact h x hx

theorem slot?_ne_none_iff {spec : List (Nat × List F64)} {j : Nat} : slot? spec j ≠ none ↔ j ∈ spec.map Prod.fst := by
  induction spec with
  | nil => simp [slot?]
  | cons entry rest ih =>
    obtain ⟨k, v⟩ := entry
    rw [slot?, List.map_cons, List.mem_cons]
    split
    next heq => simp [heq]
    next hne => rw [ih, or_iff_right (Ne.symm hne)]

/-- Rising slots of frames below `n` are at most `n`, and are `n` when each has one. -/
theorem length_spec_le {spec : List (Nat × List F64)} {n : Nat} (hrising : SlotsRising spec)
    (hlt : ∀ j, slot? spec j ≠ none → j < n) : spec.length ≤ n := by
  have hnodup : (spec.map Prod.fst).Nodup := (List.pairwise_map.mpr hrising).imp Nat.ne_of_lt
  have hsub : spec.map Prod.fst ⊆ List.range n := fun j hj => List.mem_range.mpr (hlt j (slot?_ne_none_iff.mpr hj))
  simpa using (hnodup.subperm hsub).length_le

theorem length_spec_eq {spec : List (Nat × List F64)} {n : Nat} (hrising : SlotsRising spec)
    (hlt : ∀ j, slot? spec j ≠ none → j < n) (hall : ∀ j, j < n → slot? spec j ≠ none) : spec.length = n := by
  refine le_antisymm (length_spec_le hrising hlt) ?_
  have hsub : List.range n ⊆ spec.map Prod.fst := fun j hj => slot?_ne_none_iff.mp (hall j (List.mem_range.mp hj))
  simpa using (List.nodup_range.subperm hsub).length_le

theorem length_framePeaks_le (B NB : Nat) (mult : F64) (j : Nat) (v : List F64) : (framePeaks B NB mult j v).length ≤ NB :=
  (List.length_filterMap_le ..).trans_eq List.length_range

theorem framesOf_le (s : State) : framesOf s ≤ s.m + 1 := by
  unfold framesOf
  split
  · exact Nat.succ_le_succ ((Nat.div_le_self ..).trans (Nat.sub_le ..))
  · exact Nat.zero_le _

theorem length_anchorHashes_le (Z : Nat) (p : Peak) (l : List Peak) : (anchorHashes Z p l).length ≤ l.length := by
  induction l with
  | nil => exact le_rfl
  | cons q rest ih =>
    rw [anchorHashes]
    split
    · exact Nat.succ_le_succ ih
    · exact Nat.zero_le _

theorem length_hashesBelow_le (Z : Nat) (pk : List Peak) (a t : Nat) :
    (hashesBelow Z pk a t).length ≤ a * pk.length + pk.length := by
  rw [hashesBelow_eq, List.length_append]
  refine Nat.add_le_add ?_ ?_
  · refine (length_flatMap_le _ fun i _ => ?_).trans_eq (congrArg (· * pk.length) List.length_range)
    unfold releasedHashes
    split
    · exact (length_anchorHashes_le ..).trans (List.drop_sublist ..).length_le
    · exact Nat.zero_le _
  · unfold takenHashes
    split
    · rw [List.length_map]
      exact (List.drop_sublist ..).length_le.trans (List.length_take_le' _ _)
    · exact Nat.zero_le _

/-- The most a run of `A` samples can do: the frames, the peaks and the pairs of peaks are no more than these. -/
def progressLimit (A Ft NB : Nat) : Nat :=
  let frames := A * Ft + 1
  let peaks := frames * NB
  A + 1 + 1 + A * Ft + frames + frames + (peaks * peaks + peaks) + peaks + 1

end Sys2Proof.Machine

namespace Sys2Proof.Safety
open Sys2Proof.Machine

section Bounds
variable {s : State} (harch : ArchInv s) (hstream : StreamInv s) (hactive : Active s)
include harch hstream hactive

theorem StreamInv.slot_lt_framesOf {j : Nat} (hj : slot? s.spec j ≠ none) : j < framesOf s := by
  obtain ⟨-, -, -, -, -, -, -, -, hH, -⟩ := harch.configLegal hactive
  obtain ⟨v, hv⟩ := Option.ne_none_iff_exists'.mp hj
  exact lt_frameCount hH (hstream.slots j v hv).2.1

theorem StreamInv.m_le : s.m ≤ s.accepted * s.Ft := by
  obtain ⟨-, -, -, hFs, -⟩ := harch.configLegal hactive
  rcases Nat.eq_zero_or_pos s.m with hzero | hpos
  · rw [hzero]
    exact Nat.zero_le _
  · have hlen := (hstream.outputs (s.m - 1) (by omega)).2.1
    rw [lenOk, decide_eq_true_eq, Nat.sub_add_cancel hpos] at hlen
    exact (Nat.le_mul_of_pos_right _ hFs).trans (hlen.trans (Nat.mul_le_mul_right _ (Nat.le_add_right ..)))

theorem StreamInv.npf_le : s.npf ≤ framesOf s :=
  Nat.le_of_not_lt fun hlt =>
    absurd (hstream.slot_lt_framesOf harch hactive (Option.isSome_iff_ne_none.mp (hstream.searched _ hlt))) (lt_irrefl _)

omit harch hactive in
theorem StreamInv.P_le : s.P ≤ s.npf * s.NB := by
  rw [State.P, hstream.peaks]
  exact (length_flatMap_le _ fun j _ => length_framePeaks_le ..).trans_eq (congrArg (· * s.NB) List.length_range)

/-- In a run the stage steps are bounded by the samples and the configuration. -/
theorem StreamInv.progress_le : progress s ≤ progressLimit s.accepted s.Ft s.NB := by
  have hm := hstream.m_le harch hactive
  have hframes := framesOf_le s
  have hspec := length_spec_le harch.slotsRising fun j => hstream.slot_lt_framesOf harch hactive
  have hnpf := hstream.npf_le harch hactive
  have hP := hstream.P_le
  have ha := hstream.anchorBound
  have hpeaks : s.P ≤ (s.accepted * s.Ft + 1) * s.NB := hP.trans (Nat.mul_le_mul_right _ (by omega))
  have hfault : s.phase ≠ .fault := fun hp => not_active_of_phase (.inr hp) hactive
  have hcount : s.hashCount ≤ s.a * s.P + s.P := by
    rw [harch.hashesCounted hfault, hstream.hashes hfault]
    exact length_hashesBelow_le ..
  have hn : s.n ≤ s.accepted := Nat.le_add_right ..
  have hk := s.kvalid.toNat_le
  have hw := s.wvalid.toNat_le
  have hretired : retired s.phase ≤ 1 := by
    unfold retired
    split <;> decide
  have hpairs := Nat.mul_le_mul (ha.trans hpeaks) hpeaks
  rw [progress_eq_sum]
  simp only [progressLimit]
  omega

end Bounds

/-- A run that has ended has done the steps R364 lists; a bank it never generated is a step less (log entry 17). -/
theorem StreamInv.progress_of_done {s : State} (harch : ArchInv s) (hstream : StreamInv s) (hp : s.phase = .done) :
    progress s = s.xin.length + (s.kvalid.toNat + s.wvalid.toNat) + s.ys.length + framesOf s + framesOf s + s.hashCount +
      s.pk.length + 1 := by
  obtain ⟨⟨⟨-, hslots⟩, hnpf⟩, ha⟩ := hdone_of_done harch hp
  have hactive : Active s := .inr (.inr hp)
  have hspec := length_spec_eq harch.slotsRising (fun j => hstream.slot_lt_framesOf harch hactive) hslots
  rw [progress_eq_sum, hp, hspec, hnpf, ha]
  change s.xin.length + s.kvalid.toNat + s.wvalid.toNat + s.ys.length + _ + _ + _ + _ + 1 = _
  omega

/-- A run with a frame has generated both banks. -/
theorem StreamInv.banks_of_frame {s : State} (harch : ArchInv s) (hstream : StreamInv s) (hp : s.phase = .done)
    (hframe : 0 < framesOf s) : s.kvalid = true ∧ s.wvalid = true := by
  obtain ⟨⟨⟨-, hslots⟩, -⟩, -⟩ := hdone_of_done harch hp
  obtain ⟨v, hv⟩ := Option.ne_none_iff_exists'.mp (hslots 0 hframe)
  obtain ⟨hw, hfits, -⟩ := hstream.slots 0 v hv
  obtain ⟨-, -, -, -, -, -, hF, -⟩ := harch.configLegal (.inr (.inr hp))
  exact ⟨(hstream.outputs 0 (by omega)).1, hw⟩

end Sys2Proof.Safety
end

section
/-! PROOFS. Fair executions (70_reset_and_hazards.md R364 (a) to (d)). Along an execution the invariants hold. While a run goes
on without a stage step its enabled agents stay enabled, so a weakly fair schedule lets one act. While it goes on with the
samples given, its stage steps come to an end, so a run that the host keeps draining cannot go on where an agent is enabled
whenever there is room. -/

namespace Sys2Proof.Machine
open Sys2Proof.Safety

/-- The run goes on. -/
abbrev Running (s : State) : Prop := s.phase = .run ∨ s.phase = .flush

theorem active_of_running {s : State} (h : Running s) : Active s := h.imp_right .inl

section Execution
variable {st : Nat → State} {ev : Nat → Event} {n : Nat} (hexec : Executes st ev)
include hexec

theorem invariants_of_le (harch : ArchInv (st n)) (hstream : StreamInv (st n)) {m : Nat} (hm : n ≤ m) :
    ArchInv (st m) ∧ StreamInv (st m) := by
  induction m, hm using Nat.le_induction with
  | base => exact ⟨harch, hstream⟩
  | succ m _ ih =>
    obtain ⟨ha, hs⟩ := ih
    have harch' := ha.script (ev m :: (st m).script)
    exact ⟨stepKeepsTheRegisterInvariant _ _ harch' (hexec.2 m),
      stepKeepsTheStreamInvariant _ _ harch' (hs.script _) (hexec.2 m)⟩

/-- In a run that goes on, an event is a stage step or the host's. -/
theorem stageStep_or_waits {m : Nat} (harch : ArchInv (st m)) (hactive : Active (st m)) (hnext : Active (st (m + 1))) :
    StageStep (ev m) (st m) ∨ Waits (st m) (st (m + 1)) :=
  (event_in_run harch hactive (hexec.2 m)).imp_right fun h => h.resolve_right fun hleft => hleft.1 hnext

/-- R364 (a): an enabled agent steps, or another one does, or the run is over. -/
theorem exists_stageStep_of_guard (hfair : WeaklyFair st ev) (harch : ArchInv (st n)) (hstream : StreamInv (st n))
    {i : Instr} (hi : isStageTurn i = true) (hg : Guard i (st n)) :
    ∃ m, n ≤ m ∧ (StageStep (ev m) (st m) ∨ ¬ Running (st m)) := by
  by_contra hnone
  have hno (m : Nat) (hm : n ≤ m) : ¬ StageStep (ev m) (st m) := fun h => hnone ⟨m, hm, .inl h⟩
  have hrun (m : Nat) (hm : n ≤ m) : Running (st m) := by
    by_contra h
    exact hnone ⟨m, hm, .inr h⟩
  have hguard (m : Nat) (hm : n ≤ m) : Guard i (st m) := by
    induction m, hm using Nat.le_induction with
    | base => exact hg
    | succ m hm ih =>
      have hnext := hrun (m + 1) (by omega)
      rcases stageStep_or_waits hexec (invariants_of_le hexec harch hstream hm).1 (active_of_running (hrun m hm))
        (active_of_running hnext) with hstep | hwaits
      · exact absurd hstep (hno m hm)
      · exact hwaits.guard hnext ih
  obtain ⟨m, hm, hturn⟩ := hfair i n hi hguard
  exact hno m hm ⟨i, hi, hguard m hm, hturn⟩

/-- The host's pop takes a word off the queue. -/
theorem hq_lt_of_pop {k : Nat} (hactive : Active (st k)) (hq : (st k).hq ≠ [])
    (hpop : TakesTurn .rdHashData (ev k) (st k)) : (st (k + 1)).hq.length < (st k).hq.length := by
  obtain ⟨p, he, hd⟩ | ⟨j, -, hwfft, -⟩ := hpop
  swap
  · cases hwfft
  obtain ⟨w, rest, hcons⟩ := List.exists_cons_of_ne_nil hq
  have hstep := hexec.2 k
  rw [he] at hstep
  have hnext := (execRdHashData_of_cons (popPhase_iff.mpr hactive) hcons).symm.trans (step_of_ok hd hstep)
  rw [← Host.Outcome.next.inj hnext, hcons]
  exact Nat.lt_succ_self _

section Forever
variable (harch : ArchInv (st n)) (hstream : StreamInv (st n)) (hrun : ∀ m, n ≤ m → Running (st m))
include harch hstream hrun

/-- In a run that goes on for ever, an event is a stage step or the host's. -/
theorem advances_or_waits_of_le {m : Nat} (hm : n ≤ m) : Advances (st m) (st (m + 1)) ∨ Waits (st m) (st (m + 1)) := by
  have ha := (invariants_of_le hexec harch hstream hm).1
  exact (stageStep_or_waits hexec ha (active_of_running (hrun m hm))
    (active_of_running (hrun (m + 1) (Nat.le_succ_of_le hm)))).imp_left fun h => advances_of_stageStep ha h (hexec.2 m)

theorem config_of_le {m : Nat} (hm : n ≤ m) : (st m).impl = (st n).impl ∧ configOf (st m) = configOf (st n) := by
  induction m, hm using Nat.le_induction with
  | base => exact ⟨rfl, rfl⟩
  | succ m hm ih =>
    rcases advances_or_waits_of_le hexec harch hstream hrun hm with h | h
    · exact ⟨h.impl.trans ih.1, h.config.trans ih.2⟩
    · exact ⟨h.impl.trans ih.1, h.config.trans ih.2⟩

/-- With the samples given, the stage steps come to an end. -/
theorem exists_no_stageStep (hsamples : ∀ m, n ≤ m → (st m).accepted = (st n).accepted) :
    ∃ N, n ≤ N ∧ ∀ m, N ≤ m → ¬ StageStep (ev m) (st m) := by
  have hmono : Monotone fun k => progress (st (n + k)) := monotone_nat_of_le_succ fun k => by
    rcases advances_or_waits_of_le hexec harch hstream hrun (Nat.le_add_right n k) with h | h
    · exact (Nat.le_succ _).trans_eq h.progress.symm
    · exact h.progress_eq.ge
  have hbound (k : Nat) : progress (st (n + k)) ≤ progressLimit (st n).accepted (st n).Ft (st n).NB := by
    have hk := Nat.le_add_right n k
    obtain ⟨ha, hs⟩ := invariants_of_le hexec harch hstream hk
    have hlimit := hs.progress_le ha (active_of_running (hrun _ hk))
    obtain ⟨-, hconfig⟩ := config_of_le hexec harch hstream hrun hk
    simp only [configOf, List.cons.injEq] at hconfig
    obtain ⟨-, hFt, -, -, -, -, hNB, -⟩ := hconfig
    rwa [hsamples _ hk, State.Ft, hFt, State.NB, hNB] at hlimit
  obtain ⟨b, N, hstable⟩ := converges_of_monotone_of_bounded hmono hbound
  refine ⟨n + N, Nat.le_add_right .., fun m hm hstageStep => ?_⟩
  obtain ⟨d, rfl⟩ := Nat.exists_eq_add_of_le hm
  have h := advances_of_stageStep (invariants_of_le hexec harch hstream (by omega)).1 hstageStep (hexec.2 _)
  have hnow := hstable (N + d) (Nat.le_add_right ..)
  have hnext := hstable (N + d + 1) (by omega)
  have hstep := h.progress
  simp only [← Nat.add_assoc] at hnow hnext hstep
  omega

/-- A host that pops what is available makes room, when no stage step adds a hash. -/
theorem exists_room (hlegal : Config.legal (st n).impl) (hpops : HostPops st ev n) {N : Nat} (hN : n ≤ N) :
    ∃ m, N ≤ m ∧ (st m).hq.length < (st m).impl.outDepth := by
  by_contra hnone
  have hfull (m : Nat) (hm : N ≤ m) : (st n).impl.outDepth ≤ (st m).hq.length := by
    rw [← (config_of_le hexec harch hstream hrun (hN.trans hm)).1]
    exact Nat.le_of_not_lt fun hlt => hnone ⟨m, hm, hlt⟩
  have hdepth : 1 ≤ (st n).impl.outDepth := by
    obtain ⟨-, -, -, -, -, -, -, -, -, -, -, hdepth, -⟩ := hlegal
    exact hdepth
  have hne (m : Nat) (hm : N ≤ m) : (st m).hq ≠ [] := List.ne_nil_of_length_pos (hdepth.trans (hfull m hm))
  have hactive (m : Nat) (hm : N ≤ m) : Active (st m) := active_of_running (hrun m (hN.trans hm))
  obtain ⟨k, hk, hpop⟩ := hpops N hN (hashAvail_iff.mpr ⟨hactive N le_rfl, List.length_pos_of_ne_nil (hne N le_rfl)⟩)
  have hlt := hq_lt_of_pop hexec (hactive k hk) (hne k hk) hpop
  have hbound := (invariants_of_le hexec harch hstream (hN.trans hk)).1.hqBound
  rw [(config_of_le hexec harch hstream hrun (hN.trans hk)).1] at hbound
  exact absurd (hfull (k + 1) (by omega)) (by omega)

/-- A run does not go on for ever with the samples given and an agent enabled whenever there is room. -/
theorem not_forever_running (hfair : WeaklyFair st ev) (hlegal : Config.legal (st n).impl) (hpops : HostPops st ev n)
    (hsamples : ∀ m, n ≤ m → (st m).accepted = (st n).accepted)
    (henabled : ∀ m, n ≤ m → (st m).hq.length < (st m).impl.outDepth → ∃ i, isStageTurn i = true ∧ Guard i (st m)) :
    False := by
  obtain ⟨N, hN, hno⟩ := exists_no_stageStep hexec harch hstream hrun hsamples
  obtain ⟨m, hm, hroom⟩ := exists_room hexec harch hstream hrun hlegal hpops hN
  obtain ⟨i, hi, hg⟩ := henabled m (hN.trans hm) hroom
  obtain ⟨ha, hs⟩ := invariants_of_le hexec harch hstream (hN.trans hm)
  obtain ⟨k, hk, hstep | hleft⟩ := exists_stageStep_of_guard hexec hfair ha hs hi hg
  · exact hno k (by omega) hstep
  · exact hleft (hrun k (by omega))

end Forever

end Execution

end Sys2Proof.Machine
end

section
/-! PROOFS. The end of a run and room for samples (70_reset_and_hazards.md R364 (c), (d)), and the statement of R364. -/

namespace Sys2Proof.Machine
open Sys2Proof.Safety

section Execution
variable {st : Nat → State} {ev : Nat → Event} {n : Nat} (hexec : Executes st ev)
include hexec

/-- While no sample is accepted, the samples are those given. -/
theorem accepted_of_le (harch : ArchInv (st n)) (hstream : StreamInv (st n)) (hrun : ∀ m, n ≤ m → Running (st m))
    (hno : ∀ m, n ≤ m → (st m).fin = true ∨ roomForSample (st m) = false) {m : Nat} (hm : n ≤ m) :
    (st m).accepted = (st n).accepted := by
  induction m, hm using Nat.le_induction with
  | base => rfl
  | succ m hm ih =>
    rcases advances_or_waits_of_le hexec harch hstream hrun hm with h | h
    · exact h.accepted.trans ih
    · exact (h.accepted_eq (hno m hm)).trans ih

section NotAbandoned
variable (harch : ArchInv (st n)) (hstream : StreamInv (st n)) (hkeep : ∀ m, n ≤ m → ¬ Abandons (ev m))
include harch hstream hkeep

/-- After the end of input a run that the host does not abandon goes on in `FLUSH` or has ended. -/
theorem flush_or_done_succ {m : Nat} (hm : n ≤ m) (hp : (st m).phase = .flush) :
    (st (m + 1)).phase = .flush ∨ (st (m + 1)).phase = .done := by
  have ha := (invariants_of_le hexec harch hstream hm).1
  rcases event_in_run ha (.inr (.inl hp)) (hexec.2 m) with h | h | ⟨-, h | h⟩
  · rcases (advances_of_stageStep ha h (hexec.2 m)).phase with hsame | ⟨-, hdone⟩
    · exact .inl (hsame.trans hp)
    · exact .inr hdone
  · rcases h.phase with hsame | ⟨hrun, -⟩
    · exact .inl (hsame.trans hp)
    · cases hp.symm.trans hrun
  · exact absurd h (hkeep m hm)
  · cases hp.symm.trans h

/-- A run that has ended stays ended until the host abandons it, and no hash is added. -/
theorem done_succ {m : Nat} (hm : n ≤ m) (hp : (st m).phase = .done) :
    (st (m + 1)).phase = .done ∧ (st (m + 1)).hq.length ≤ (st m).hq.length := by
  have ha := (invariants_of_le hexec harch hstream hm).1
  rcases event_in_run ha (.inr (.inr hp)) (hexec.2 m) with ⟨i, -, hg, -⟩ | h | ⟨-, h | h⟩
  · rcases (stageOk_of_guard hg).1 with hrun | hflush
    · cases hp.symm.trans hrun
    · cases hp.symm.trans hflush
  · rcases h.phase with hsame | ⟨hrun, -⟩
    · exact ⟨hsame.trans hp, h.hq_le⟩
    · cases hp.symm.trans hrun
  · exact absurd h (hkeep m hm)
  · cases hp.symm.trans h

theorem done_of_le {m k : Nat} (hm : n ≤ m) (hp : (st m).phase = .done) (hk : m ≤ k) :
    (st k).phase = .done ∧ (st k).hq.length ≤ (st m).hq.length := by
  induction k, hk using Nat.le_induction with
  | base => exact ⟨hp, le_rfl⟩
  | succ k hk ih =>
    obtain ⟨hdone, hle⟩ := done_succ hexec harch hstream hkeep (hm.trans hk) ih.1
    exact ⟨hdone, hle.trans ih.2⟩

/-- The host drains a run that has ended. -/
theorem endedNormally_of_done (hpops : HostPops st ev n) {len m : Nat} (hm : n ≤ m) (hp : (st m).phase = .done)
    (hlen : (st m).hq.length ≤ len) : ∃ k, m ≤ k ∧ EndedNormally (st k) := by
  induction len generalizing m with
  | zero => exact ⟨m, le_rfl, hp, List.eq_nil_of_length_eq_zero (Nat.le_zero.mp hlen)⟩
  | succ len ih =>
    by_cases hempty : (st m).hq = []
    · exact ⟨m, le_rfl, hp, hempty⟩
    obtain ⟨k, hk, hpop⟩ := hpops m hm (hashAvail_iff.mpr ⟨.inr (.inr hp), List.length_pos_of_ne_nil hempty⟩)
    obtain ⟨hpk, hlek⟩ := done_of_le hexec harch hstream hkeep hm hp hk
    by_cases hempty' : (st k).hq = []
    · exact ⟨k, hk, hpk, hempty'⟩
    have hlt := hq_lt_of_pop hexec (.inr (.inr hpk)) hempty' hpop
    obtain ⟨hdone, -⟩ := done_succ hexec harch hstream hkeep (hm.trans hk) hpk
    obtain ⟨l, hl, hend⟩ := ih (m := k + 1) (by omega) hdone (by omega)
    exact ⟨l, by omega, hend⟩

/-- R364 (c): after the end of input a drained run reaches `DONE`. -/
theorem exists_done_of_flush (hfair : WeaklyFair st ev) (hlegal : Config.legal (st n).impl) (hpops : HostPops st ev n)
    (hp : (st n).phase = .flush) : ∃ m, n ≤ m ∧ (st m).phase = .done := by
  by_contra hnone
  have hflush (m : Nat) (hm : n ≤ m) : (st m).phase = .flush := by
    induction m, hm using Nat.le_induction with
    | base => exact hp
    | succ m hm ih =>
      exact (flush_or_done_succ hexec harch hstream hkeep hm ih).resolve_right fun h => hnone ⟨m + 1, by omega, h⟩
  have hrun (m : Nat) (hm : n ≤ m) : Running (st m) := .inr (hflush m hm)
  have hfin (m : Nat) (hm : n ≤ m) : (st m).fin = true :=
    (invariants_of_le hexec harch hstream hm).1.finPhase.mpr (.inl (hflush m hm))
  refine not_forever_running hexec harch hstream hrun hfair hlegal hpops
    (fun m hm => accepted_of_le hexec harch hstream hrun (fun k hk => .inl (hfin k hk)) hm) fun m hm hroom => ?_
  obtain ⟨ha, hs⟩ := invariants_of_le hexec harch hstream hm
  exact exists_guard_of_flush ha hs (hflush m hm) hroom

end NotAbandoned

/-- R364 (d): INGEST makes room, since a full input FIFO holds a sample for it. -/
theorem exists_roomForSample (harch : ArchInv (st n)) (hstream : StreamInv (st n)) (hfair : WeaklyFair st ev)
    (hlegal : Config.legal (st n).impl) (hpops : HostPops st ev n) (hlimit : (st n).accepted < maxSamples)
    (hphase : ∀ m, n ≤ m → (st m).phase = .run) : ∃ m, n ≤ m ∧ roomForSample (st m) = true := by
  by_contra hnone
  have hrun (m : Nat) (hm : n ≤ m) : Running (st m) := .inl (hphase m hm)
  have hno (m : Nat) (hm : n ≤ m) : roomForSample (st m) = false := by
    rw [← Bool.not_eq_true]
    exact fun h => hnone ⟨m, hm, h⟩
  have hsamples {m : Nat} (hm : n ≤ m) := accepted_of_le hexec harch hstream hrun (fun k hk => .inr (hno k hk)) hm
  refine not_forever_running hexec harch hstream hrun hfair hlegal hpops (fun m => hsamples) fun m hm hroom => ?_
  refine ⟨.ingest, rfl, ⟨hrun m hm, hroom⟩, Nat.pos_of_ne_zero fun hzero => hnone ⟨m, hm, roomForSample_iff.mpr ⟨?_, ?_⟩⟩⟩
  · obtain ⟨-, -, -, -, -, -, -, -, -, hdepth, -⟩ := hlegal
    rw [hzero, (config_of_le hexec harch hstream hrun hm).1]
    exact hdepth
  · exact (hsamples hm).trans_lt hlimit

end Execution

/-- Settles O60. -/
theorem fairRunsProgress : Obligations.FairRunsProgress := by
  refine ⟨fun st ev n i hexec hfair harch hstream hi hg => exists_stageStep_of_guard hexec hfair harch hstream hi hg,
    fun s harch hstream hp => ?_, fun st ev n hexec hfair hlegal harch hstream hp hpops hkeep => ?_,
    fun st ev n hexec hfair hlegal harch hstream hlimit hpops hphase => ?_⟩
  · have hprogress := hstream.progress_of_done harch hp
    refine ⟨hprogress, fun hbanks => ?_⟩
    obtain ⟨hk, hw⟩ := hbanks.elim (hstream.banks_of_frame harch hp) id
    rw [hprogress, hk, hw]
    rfl
  · obtain ⟨m, hm, hdone⟩ := exists_done_of_flush hexec harch hstream hkeep hfair hlegal hpops hp
    obtain ⟨k, hk, hend⟩ := endedNormally_of_done hexec harch hstream hkeep hpops hm hdone le_rfl
    exact ⟨k, hm.trans hk, hend⟩
  · obtain ⟨m, hm, hroom⟩ := exists_roomForSample hexec harch hstream hfair hlegal hpops hlimit hphase
    exact ⟨m, hm, roomForSample_iff.mp hroom⟩

end Sys2Proof.Machine
end
